-- ==== Sys2Proof/Word.lean ====
section
/-! DEFINITION. The value types of the engine (spec 00_scope.md R6): bytes, 16-bit words and the 17-bit values of
the receiver's length arithmetic (10_state.md R12, R17). -/

namespace Sys2Proof

/-- A byte: an unsigned value 0 to 255 (R6). -/
abbrev Byte := BitVec 8

/-- A word: a 16-bit unsigned value (R6). -/
abbrev Word := BitVec 16

/-- A 17-bit unsigned value: `exp_val`, `rx.total` and `rx.rem` (R12, R17). -/
abbrev Val17 := BitVec 17

end Sys2Proof
end

