-- ==== Sys2Proof/Syntax.lean ====
section
/-! DEFINITION. Syntax: the eight function codes (R62), the instructions of the engine, one constructor per row of
spec/opcode_table.json, and the moves of the outside world that the machine's agenda holds (R10, R202). -/

namespace Sys2Proof

/-- The eight function codes (30_encoding.md R62). -/
inductive FnCode where
  | readCoils | readDiscrete | readHolding | readInput
  | writeSingleCoil | writeSingleHolding | writeMultiCoils | writeMultiHolding
  deriving DecidableEq, Repr, Inhabited

/-- Width of the length field of a read reply: one byte (format `RP-READ1`, R68) or two (`RP-READ2`, R69). -/
inductive LenFmt where
  | len1 | len2
  deriving DecidableEq, Repr, Inhabited

/-- The instructions: one constructor per row of the opcode table (R80). A request's CRC trailer is computed, so it
is no operand; a reply's trailer `c` is what the slave sent, right or wrong, so it is one. -/
inductive Instr where
  /-- `ReadCoils a r` (R150). -/
  | readCoils (a : Byte) (r : Word)
  /-- `ReadDiscrete a r` (R151). -/
  | readDiscrete (a : Byte) (r : Word)
  /-- `ReadHolding a r n` (R152). -/
  | readHolding (a : Byte) (r n : Word)
  /-- `ReadInput a r n` (R153). -/
  | readInput (a : Byte) (r n : Word)
  /-- `WriteSingleCoil a r v` (R154). -/
  | writeSingleCoil (a : Byte) (r : Word) (v : Bool)
  /-- `WriteSingleHolding a r v` (R155). -/
  | writeSingleHolding (a : Byte) (r v : Word)
  /-- `WriteMultiCoils a r count data` (R156). -/
  | writeMultiCoils (a : Byte) (r count : Word) (data : List Byte)
  /-- `WriteMultiHolding a r values` (R157). -/
  | writeMultiHolding (a : Byte) (r : Word) (values : List Word)
  /-- Pseudo-command `ReadHoldingOne a r` (R79, R158). -/
  | readHoldingOne (a : Byte) (r : Word)
  /-- Pseudo-command `ReadInputOne a r` (R79, R158). -/
  | readInputOne (a : Byte) (r : Word)
  /-- Normal reply to ReadCoils (R68, R69, R122). -/
  | readCoilsReply (fmt : LenFmt) (a : Byte) (body : List Byte) (c : Word)
  /-- Normal reply to ReadDiscrete. -/
  | readDiscreteReply (fmt : LenFmt) (a : Byte) (body : List Byte) (c : Word)
  /-- Normal reply to ReadHolding. -/
  | readHoldingReply (fmt : LenFmt) (a : Byte) (body : List Byte) (c : Word)
  /-- Normal reply to ReadInput. -/
  | readInputReply (fmt : LenFmt) (a : Byte) (body : List Byte) (c : Word)
  /-- Normal reply to WriteSingleCoil (R70, R121). -/
  | writeSingleCoilReply (a : Byte) (r x c : Word)
  /-- Normal reply to WriteSingleHolding. -/
  | writeSingleHoldingReply (a : Byte) (r x c : Word)
  /-- Normal reply to WriteMultiCoils. -/
  | writeMultiCoilsReply (a : Byte) (r x c : Word)
  /-- Normal reply to WriteMultiHolding. -/
  | writeMultiHoldingReply (a : Byte) (r x c : Word)
  /-- Exception reply to ReadCoils (R71, R120). -/
  | readCoilsException (a code : Byte) (c : Word)
  /-- Exception reply to ReadDiscrete. -/
  | readDiscreteException (a code : Byte) (c : Word)
  /-- Exception reply to ReadHolding. -/
  | readHoldingException (a code : Byte) (c : Word)
  /-- Exception reply to ReadInput. -/
  | readInputException (a code : Byte) (c : Word)
  /-- Exception reply to WriteSingleCoil. -/
  | writeSingleCoilException (a code : Byte) (c : Word)
  /-- Exception reply to WriteSingleHolding. -/
  | writeSingleHoldingException (a code : Byte) (c : Word)
  /-- Exception reply to WriteMultiCoils. -/
  | writeMultiCoilsException (a code : Byte) (c : Word)
  /-- Exception reply to WriteMultiHolding. -/
  | writeMultiHoldingException (a code : Byte) (c : Word)
  /-- Host command `SetTimeout t` (R159). -/
  | setTimeout (t : Nat)
  /-- Internal operation `CRC_INIT` (R91). -/
  | crcInit
  /-- Internal operation `CRC_BYTE(b)` (R92). -/
  | crcByte (b : Byte)
  /-- Internal operation `Crc16(s)` (R93). -/
  | crc16 (bs : List Byte)
  /-- Internal operation `Build(a, f, p)` (R100). -/
  | build (a f : Byte) (p : List Byte)
  /-- Internal operation `Receive(ea, ef, ev, T)` (R110). -/
  | receive (ea ef : Byte) (ev : Val17) (T : Nat)
  deriving DecidableEq, Repr

/-- What the host drives on the command port (R11, decision D1): the operand registers' next values. -/
structure PortCmd where
  op : Byte
  dev : Byte
  reg : Word
  arg : Word
  data : List Byte
  deriving DecidableEq, Repr, Inhabited

/-- One move of one agent (R10, R202, R210). Any interleaving of the agents is some list of moves.
DESIGN CHOICE (notes/assumptions/3.md, 6.md, 7.md). -/
inductive Move where
  /-- The engine makes one move of its own: one phase of R141, one sample of the pause, one poll. -/
  | engine
  /-- The environment advances the clock by `n` ticks (R200, R202). -/
  | tick (n : Nat)
  /-- The environment appends one byte to the inbound buffer (R202). -/
  | byte (b : Byte)
  /-- The environment appends these bytes and the receiver, if it is receiving, polls them all before anything else
  moves. -/
  | frame (bs : List Byte)
  /-- The host issues a command; the engine runs it up to the pause before anything else moves. -/
  | command (c : PortCmd)
  /-- The host issues a command; acceptance alone (R160), the engine's moves follow as moves of their own. -/
  | issue (c : PortCmd)
  /-- The host writes `TIMEOUT` (R159). -/
  | setTimeout (t : Nat)
  /-- The reset event (R210). -/
  | reset
  deriving DecidableEq, Repr, Inhabited

end Sys2Proof
end

