-- ==== Sys2Proof/Config.lean ====
section
/-! DEFINITION. The parameters of a model instance (00_scope.md R5, R26) at the values the spec decides
(notes/assumptions/21.md), the status codes (R181), and the two free values: the moves of the outside world that no
agenda lists, and the byte length of a multiple register write whose data do not fit its count. -/

namespace Sys2Proof.Config

/-- `EXC_FRAME_LEN`: total length of an exception reply (D10, conflict C1). -/
def excFrameLen : Nat := 5

/-- `ECHO_FRAME_LEN`: total length of the reply to any write (D10, conflict C3). -/
def echoFrameLen : Nat := 8

/-- `READ1_OVERHEAD`: bytes of a read reply besides its body, one-byte length field (D10, conflict C2). -/
def read1Overhead : Nat := 5

/-- `READ2_OVERHEAD`: the same with a two-byte length field (D10). -/
def read2Overhead : Nat := 6

/-- `LEN2_THRESHOLD`: an expected value at or above it selects the two-byte length field (D11). -/
def len2Threshold : Nat := 256

/-- `FRAME_MAX`: capacity of the frame buffer (D15). -/
def frameMax : Nat := 65541

/-- `TXDATA_MAX`: most data bytes a multiple write carries (D18). -/
def txDataMax : Nat := 255

/-- Most values WriteMultiHolding carries (R157, R162). -/
def valuesMax : Nat := 127

/-- `CRC_FAIL_STATUS`: status of a CRC mismatch (D14, conflict C4); `CrcError` of R181. -/
def crcFailStatus : Byte := 8

/-- `ReceiveTimeout` (R181). -/
def receiveTimeout : Byte := 9

/-- `MemoryError` (R181), reserved: nothing in the engine produces it (R185). -/
def memoryError : Byte := 10

/-- `AddressError` (R181). -/
def addressError : Byte := 11

/-- The move the outside world makes when no agenda lists one: any move at all (U16, R202). It has no body, so
nothing can be proved of its value. DESIGN CHOICE, safe (notes/assumptions/3.md). -/
opaque freeMove : Nat → Move

/-- The `byte_len` of a multiple register write whose `cmd.data` is not two bytes for each of its `cmd.arg` registers,
where R66 and R157 give different values; the argument counts the bytes transmitted before. It has no body, so nothing
can be proved of its value. DESIGN CHOICE, safe (notes/assumptions/23.md). -/
opaque freeByteLen : Nat → Byte

end Sys2Proof.Config
end

