-- ==== Sys2Proof/Machine/Bits.lean ====
section
/-! DEFINITION. Bit fields and byte order: the notation of 00_scope.md R6 and R7, the byte of a function code (R62),
its class, and the reading of a byte sequence as words (R43, R73). -/

namespace Sys2Proof.Machine

/-- `hi8(w) = w[15:8]` (R6). -/
def hi8 (w : Word) : Byte := w.extractLsb' 8 8

/-- `lo8(w) = w[7:0]` (R6). -/
def lo8 (w : Word) : Byte := w.extractLsb' 0 8

/-- `word(b0, b1)`: the first byte in bits 15 to 8 (R7). -/
def word (b0 b1 : Byte) : Word := b0 ++ b1

/-- `swap16(w)`: the two bytes exchanged (R6). -/
def swap16 (w : Word) : Word := word (lo8 w) (hi8 w)

/-- `be16(w)`: a word as two bytes, high byte first (R7). -/
def be16 (w : Word) : List Byte := [hi8 w, lo8 w]

/-- A byte sequence as big-endian words, an odd last byte left out (R152). -/
def wordsOf : List Byte → List Word
  | b0 :: b1 :: rest => word b0 b1 :: wordsOf rest
  | _ => []

/-- Words as a byte sequence, each high byte first (R66, R157). -/
def bytesOf (ws : List Word) : List Byte := ws.flatMap be16

/-- The byte of a function code (R62). -/
def fnByte : FnCode → Byte
  | .readCoils => 0x01
  | .readDiscrete => 0x02
  | .readHolding => 0x03
  | .readInput => 0x04
  | .writeSingleCoil => 0x05
  | .writeSingleHolding => 0x06
  | .writeMultiCoils => 0x0F
  | .writeMultiHolding => 0x10

/-- The function code of a byte, none for a byte that is none of the eight (R62, R77). -/
def fnOfByte (b : Byte) : Option FnCode :=
  if b = 0x01 then some .readCoils
  else if b = 0x02 then some .readDiscrete
  else if b = 0x03 then some .readHolding
  else if b = 0x04 then some .readInput
  else if b = 0x05 then some .writeSingleCoil
  else if b = 0x06 then some .writeSingleHolding
  else if b = 0x0F then some .writeMultiCoils
  else if b = 0x10 then some .writeMultiHolding
  else none

/-- The read class {0x01, 0x02, 0x03, 0x04} (R62); the other four are the write class. -/
def isRead : FnCode → Bool
  | .readCoils | .readDiscrete | .readHolding | .readInput => true
  | .writeSingleCoil | .writeSingleHolding | .writeMultiCoils | .writeMultiHolding => false

/-- A function byte of the write class {0x05, 0x06, 0x0F, 0x10} (R62, R121). -/
def isWriteByte (b : Byte) : Bool :=
  match fnOfByte b with
  | some f => !isRead f
  | none => false

end Sys2Proof.Machine
end

