-- ==== Sys2Proof/Machine/CrcUnit.lean ====
section
/-! DEFINITION. The CRC16 generator as arithmetic (40_crc16.md R90 to R93) and the frame `Build` makes of it
(41_frame_encoder.md R100). -/

namespace Sys2Proof.Machine

/-- One shift step of R92: the low bit before the shift decides the exclusive-or. -/
def crcShift (r : Word) : Word :=
  if r.getLsbD 0 then (r >>> 1) ^^^ 0xA001#16 else r >>> 1

/-- `n` shift steps. -/
def crcShifts : Nat → Word → Word
  | 0, r => r
  | n + 1, r => crcShifts n (crcShift r)

/-- The register after `CRC_BYTE(b)` (R92). -/
def crcStep (r : Word) (b : Byte) : Word := crcShifts 8 (r ^^^ b.setWidth 16)

/-- `raw(s)`: the register after `CRC_INIT` and `CRC_BYTE` of every byte (R93, R97). -/
def crcRaw (s : List Byte) : Word := s.foldl crcStep 0xFFFF#16

/-- `Crc16(s)`: the register with its bytes swapped (R93). -/
def crc16 (s : List Byte) : Word := swap16 (crcRaw s)

/-- The frame `Build(a, f, p)` returns (R100): it validates nothing (R101). -/
def buildFrame (a f : Byte) (p : List Byte) : List Byte := a :: f :: p ++ be16 (crc16 (a :: f :: p))

end Sys2Proof.Machine
end

