-- ==== Sys2Proof/WellFormed.lean ====
section
/-! DEFINITION. Well-formedness of an instruction: its operands fit the command port (R162) or the reply's length
field (R68, R69), and `Receive` expects one of the eight function codes (R111, U1). Every other operand's range is its
type's. -/

namespace Sys2Proof

/-- A body fits its length field (R68: 0 to 255 bytes; R69: 0 to 65535). -/
def bodyFits (fmt : LenFmt) (body : List Byte) : Bool :=
  match fmt with
  | .len1 => decide (body.length < 2 ^ 8)
  | .len2 => decide (body.length < 2 ^ 16)

/-- The eight function codes as bytes (R62). -/
def functionBytes : List Byte := [0x01, 0x02, 0x03, 0x04, 0x05, 0x06, 0x0F, 0x10]

/-- The operands of an instruction are ones its encoding can hold. -/
def WellFormed (i : Instr) : Bool :=
  match i with
  | .readCoils _ _ | .readDiscrete _ _ | .readHolding _ _ _ | .readInput _ _ _ => true
  | .writeSingleCoil _ _ _ | .writeSingleHolding _ _ _ => true
  | .writeMultiCoils _ _ _ data => decide (data.length ≤ Config.txDataMax)
  | .writeMultiHolding _ _ values => decide (values.length ≤ Config.valuesMax)
  | .readHoldingOne _ _ | .readInputOne _ _ => true
  | .readCoilsReply fmt _ body _ => bodyFits fmt body
  | .readDiscreteReply fmt _ body _ => bodyFits fmt body
  | .readHoldingReply fmt _ body _ => bodyFits fmt body
  | .readInputReply fmt _ body _ => bodyFits fmt body
  | .writeSingleCoilReply _ _ _ _ | .writeSingleHoldingReply _ _ _ _ => true
  | .writeMultiCoilsReply _ _ _ _ | .writeMultiHoldingReply _ _ _ _ => true
  | .readCoilsException _ _ _ | .readDiscreteException _ _ _ => true
  | .readHoldingException _ _ _ | .readInputException _ _ _ => true
  | .writeSingleCoilException _ _ _ | .writeSingleHoldingException _ _ _ => true
  | .writeMultiCoilsException _ _ _ | .writeMultiHoldingException _ _ _ => true
  | .setTimeout _ | .crcInit | .crcByte _ | .crc16 _ | .build _ _ _ => true
  | .receive _ ef _ _ => functionBytes.contains ef

end Sys2Proof
end

