-- ==== Sys2Proof/Decode.lean ====
section
/-! DEFINITION. Decoders and encoders of the four encodings the spec gives: request frames (R65 to R67, R72), reply
frames (R68 to R71), the command port (R11) and the opcode table's words (R80). All are total; each rejection has a
name. A request's trailer is checked, a reply's is an operand (notes/assumptions/20.md). -/

namespace Sys2Proof

open Machine

/-- Why a decoder rejects its input. -/
inductive DecodeError where
  /-- The bytes end before the frame does. -/
  | truncated
  /-- The function byte is none of the defined ones (R62, R63, R77). -/
  | unknownFunction (f : Byte)
  /-- A request whose trailer is not the CRC of what precedes it (R60). -/
  | badTrailer
  /-- ReadCoils or ReadDiscrete with a count other than 1 (R67). -/
  | badCount
  /-- WriteSingleCoil with a value other than 0xFF00 and 0x0000 (R76). -/
  | badCoilValue
  /-- WriteMultiHolding whose byte length is not twice its count (R157). -/
  | badByteLen
  /-- Port operands beyond the limits of R162. -/
  | operandLimits
  /-- A multiple register write on the port, within the limits of R162, whose data are not two bytes for each register of
  its count: no list of values is carried so (R157). The port takes it all the same (notes/assumptions/23.md). -/
  | noValueList
  deriving DecidableEq, Repr

/-! ### Requests -/

/-- Format `RQ8` after the function byte (R65): two words and the trailer. -/
def decodeRq8 (a f : Byte) (rest : List Byte) (mk : Word → Word → Except DecodeError Instr) :
    Except DecodeError (Instr × List Byte) :=
  match rest with
  | r1 :: r0 :: x1 :: x0 :: c1 :: c0 :: tail =>
    if word c1 c0 = crc16 [a, f, r1, r0, x1, x0] then
      match mk (word r1 r0) (word x1 x0) with
      | .ok i => .ok (i, tail)
      | .error e => .error e
    else .error .badTrailer
  | _ => .error .truncated

/-- Format `RQM` after the function byte (R66): two words, the byte length, that many data bytes, the trailer. -/
def decodeRqm (a f : Byte) (rest : List Byte) (mk : Word → Word → List Byte → Except DecodeError Instr) :
    Except DecodeError (Instr × List Byte) :=
  match rest with
  | r1 :: r0 :: n1 :: n0 :: len :: more =>
    match more.drop len.toNat with
    | c1 :: c0 :: tail =>
      if word c1 c0 = crc16 ([a, f, r1, r0, n1, n0, len] ++ more.take len.toNat) then
        match mk (word r1 r0) (word n1 n0) (more.take len.toNat) with
        | .ok i => .ok (i, tail)
        | .error e => .error e
      else .error .badTrailer
    | _ => .error .truncated
  | _ => .error .truncated

/-- The coil value of a WriteSingleCoil request: 0xFF00 on, 0x0000 off, no other value (R76). -/
def decodeCoil (x : Word) : Except DecodeError Bool :=
  if x = 0xFF00 then .ok true else if x = 0x0000 then .ok false else .error .badCoilValue

/-- Decodes one request frame from the front of a byte sequence (R65 to R67); the length follows from byte 1 (R72).
Pseudo-commands are skipped (R80): their frames are their expansions'. -/
def decodeRequest (bs : List Byte) : Except DecodeError (Instr × List Byte) :=
  match bs with
  | a :: f :: rest =>
    match fnOfByte f with
    | none => .error (.unknownFunction f)
    | some .readCoils =>
      decodeRq8 a f rest fun r x => if x = 1 then .ok (.readCoils a r) else .error .badCount
    | some .readDiscrete =>
      decodeRq8 a f rest fun r x => if x = 1 then .ok (.readDiscrete a r) else .error .badCount
    | some .readHolding => decodeRq8 a f rest fun r x => .ok (.readHolding a r x)
    | some .readInput => decodeRq8 a f rest fun r x => .ok (.readInput a r x)
    | some .writeSingleCoil =>
      decodeRq8 a f rest fun r x =>
        match decodeCoil x with
        | .ok v => .ok (.writeSingleCoil a r v)
        | .error e => .error e
    | some .writeSingleHolding => decodeRq8 a f rest fun r x => .ok (.writeSingleHolding a r x)
    | some .writeMultiCoils => decodeRqm a f rest fun r n data => .ok (.writeMultiCoils a r n data)
    | some .writeMultiHolding =>
      decodeRqm a f rest fun r n data =>
        if data.length = 2 * n.toNat then .ok (.writeMultiHolding a r (wordsOf data)) else .error .badByteLen
  | _ => .error .truncated

/-! ### Replies -/

/-- The constructor of a normal read reply. -/
def readReplyInstr (f : FnCode) (fmt : LenFmt) (a : Byte) (body : List Byte) (c : Word) : Option Instr :=
  match f with
  | .readCoils => some (.readCoilsReply fmt a body c)
  | .readDiscrete => some (.readDiscreteReply fmt a body c)
  | .readHolding => some (.readHoldingReply fmt a body c)
  | .readInput => some (.readInputReply fmt a body c)
  | .writeSingleCoil | .writeSingleHolding | .writeMultiCoils | .writeMultiHolding => none

/-- The constructor of a normal write reply. -/
def echoReplyInstr (f : FnCode) (a : Byte) (r x c : Word) : Option Instr :=
  match f with
  | .writeSingleCoil => some (.writeSingleCoilReply a r x c)
  | .writeSingleHolding => some (.writeSingleHoldingReply a r x c)
  | .writeMultiCoils => some (.writeMultiCoilsReply a r x c)
  | .writeMultiHolding => some (.writeMultiHoldingReply a r x c)
  | .readCoils | .readDiscrete | .readHolding | .readInput => none

/-- The constructor of an exception reply. -/
def exceptionInstr (f : FnCode) (a code : Byte) (c : Word) : Instr :=
  match f with
  | .readCoils => .readCoilsException a code c
  | .readDiscrete => .readDiscreteException a code c
  | .readHolding => .readHoldingException a code c
  | .readInput => .readInputException a code c
  | .writeSingleCoil => .writeSingleCoilException a code c
  | .writeSingleHolding => .writeSingleHoldingException a code c
  | .writeMultiCoils => .writeMultiCoilsException a code c
  | .writeMultiHolding => .writeMultiHoldingException a code c

/-- The body and trailer of a read reply whose length field says `len` (R68, R69). -/
def decodeBody (f : FnCode) (fmt : LenFmt) (a : Byte) (len : Nat) (more : List Byte) :
    Except DecodeError (Instr × List Byte) :=
  match more.drop len with
  | c1 :: c0 :: tail =>
    match readReplyInstr f fmt a (more.take len) (word c1 c0) with
    | some i => .ok (i, tail)
    | none => .error (.unknownFunction (fnByte f))
  | _ => .error .truncated

/-- Decodes one reply frame from the front of a byte sequence, in the order of R120 to R122: exception, echo, read.
The width of a read reply's length field is the receiver's knowledge (R72), so it is an argument. -/
def decodeReply (fmt : LenFmt) (bs : List Byte) : Except DecodeError (Instr × List Byte) :=
  match bs with
  | a :: f :: rest =>
    if f.getLsbD 7 then
      match fnOfByte (f &&& 0x7F) with
      | none => .error (.unknownFunction f)
      | some fc =>
        match rest with
        | code :: c1 :: c0 :: tail => .ok (exceptionInstr fc a code (word c1 c0), tail)
        | _ => .error .truncated
    else
      match fnOfByte f with
      | none => .error (.unknownFunction f)
      | some fc =>
        if isRead fc then
          match fmt, rest with
          | .len1, len :: more => decodeBody fc .len1 a len.toNat more
          | .len2, l1 :: l0 :: more => decodeBody fc .len2 a (word l1 l0).toNat more
          | _, _ => .error .truncated
        else
          match rest with
          | r1 :: r0 :: x1 :: x0 :: c1 :: c0 :: tail =>
            match echoReplyInstr fc a (word r1 r0) (word x1 x0) (word c1 c0) with
            | some i => .ok (i, tail)
            | none => .error (.unknownFunction f)
          | _ => .error .truncated
  | _ => .error .truncated

/-! ### The command port -/

/-- The command of a function code and the operands on the port (R150 to R157). A multiple register write's `cmd.arg` is
the length of its list of values, at most 127 (R157, R162). -/
def portInstr (f : FnCode) (c : PortCmd) : Except DecodeError Instr :=
  match f with
  | .readCoils => .ok (.readCoils c.dev c.reg)
  | .readDiscrete => .ok (.readDiscrete c.dev c.reg)
  | .readHolding => .ok (.readHolding c.dev c.reg c.arg)
  | .readInput => .ok (.readInput c.dev c.reg c.arg)
  | .writeSingleCoil => .ok (.writeSingleCoil c.dev c.reg (c.arg.getLsbD 0))
  | .writeSingleHolding => .ok (.writeSingleHolding c.dev c.reg c.arg)
  | .writeMultiCoils => .ok (.writeMultiCoils c.dev c.reg c.arg c.data)
  | .writeMultiHolding =>
    if Config.valuesMax < c.arg.toNat then .error .operandLimits
    else if c.data.length = 2 * c.arg.toNat then .ok (.writeMultiHolding c.dev c.reg (wordsOf c.data))
    else .error .noValueList

/-- Decodes what the host drives on the command port (R11, R62): `cmd.data` holds at most 255 bytes whatever the command
(R162, U2). -/
def decodePort (c : PortCmd) : Except DecodeError Instr :=
  match fnOfByte c.op with
  | none => .error (.unknownFunction c.op)
  | some f => if c.data.length ≤ Config.txDataMax then portInstr f c else .error .operandLimits

/-- The instruction a move of the outside world carries, if it carries one: a command, `SetTimeout`, or a burst of
bytes that is exactly one reply frame. -/
def decodeMove (fmt : LenFmt) (m : Move) : Option Instr :=
  match m with
  | .command c => (decodePort c).toOption
  | .setTimeout t => some (.setTimeout t)
  | .frame bs =>
    match decodeReply fmt bs with
    | .ok (i, []) => some i
    | _ => none
  | .engine | .tick _ | .byte _ | .issue _ | .reset => none

/-! ### The opcode table's words -/

/-- Byte `k` of a table word of `nbits` bits; bits at or above `nbits` are 0. -/
def tableByte (nbits w k : Nat) : Byte := BitVec.ofNat 8 ((w % 2 ^ nbits) / 2 ^ (8 * k))

/-- The command on the port whose request frame has function byte `f`, words `r` and `x` and these data bytes (R65, R66).
The coil word 0xFF00 or 0x0000 of WriteSingleCoil (R76) is the boolean of `cmd.arg` (R154); with another, the frame is no
command's, and the drive is of operation 0, which the port does not take. -/
def tableCommand (f : Byte) (r x : Word) (data : List Byte) : PortCmd :=
  if fnOfByte f = some .writeSingleCoil then
    match decodeCoil x with
    | .ok v => ⟨f, 0, r, if v then 1 else 0, data⟩
    | .error _ => ⟨0, 0, r, x, data⟩
  else ⟨f, 0, r, x, data⟩

/-- The move that presents a table word: the table numbers from frame byte 1 (R80), the device address is 0. A word
with bit 7 of that byte set is an exception reply, any other a command. -/
def tableMove (nbits w : Nat) : Move :=
  if (tableByte nbits w 0).getLsbD 7 then
    .frame [0, tableByte nbits w 0, tableByte nbits w 1, tableByte nbits w 2, tableByte nbits w 3]
  else
    .command (tableCommand (tableByte nbits w 0)
      (word (tableByte nbits w 1) (tableByte nbits w 2)) (word (tableByte nbits w 3) (tableByte nbits w 4))
      ((List.range (tableByte nbits w 5).toNat).map fun k => tableByte nbits w (6 + k)))

/-- The instruction the decoder reads from a table word (notes/assumptions/13.md). -/
def decodeTableWord (nbits w : Nat) : Option Instr := decodeMove .len1 (tableMove nbits w)

/-! ### Encoders -/

/-- A request of format `RQ8` (R65). -/
def rq8Frame (a f : Byte) (r x : Word) : List Byte :=
  let s := [a, f, hi8 r, lo8 r, hi8 x, lo8 x]
  s ++ be16 (crc16 s)

/-- A request of format `RQM` (R66). -/
def rqmFrame (a f : Byte) (r count : Word) (data : List Byte) : List Byte :=
  let s := [a, f, hi8 r, lo8 r, hi8 count, lo8 count, BitVec.ofNat 8 data.length] ++ data
  s ++ be16 (crc16 s)

/-- The length field of a read reply (R68, R69). -/
def lengthField (fmt : LenFmt) (n : Nat) : List Byte :=
  match fmt with
  | .len1 => [BitVec.ofNat 8 n]
  | .len2 => be16 (BitVec.ofNat 16 n)

/-- A normal read reply (R68, R69). -/
def readReplyFrame (fmt : LenFmt) (a f : Byte) (body : List Byte) (c : Word) : List Byte :=
  a :: f :: lengthField fmt body.length ++ body ++ be16 c

/-- A normal write reply (R70). -/
def echoFrame (a f : Byte) (r x c : Word) : List Byte := a :: f :: be16 r ++ be16 x ++ be16 c

/-- An exception reply to function `f` (R71): the function byte has bit 7 set. -/
def exceptionFrame (a f code : Byte) (c : Word) : List Byte := [a, f ||| 0x80, code] ++ be16 c

/-- The frame of an instruction that has one (R80: rows of kinds `host` and `internal` have none). -/
def encode (i : Instr) : Option (List Byte) :=
  match i with
  | .readCoils a r => some (rq8Frame a 0x01 r 0x0001)
  | .readDiscrete a r => some (rq8Frame a 0x02 r 0x0001)
  | .readHolding a r n => some (rq8Frame a 0x03 r n)
  | .readInput a r n => some (rq8Frame a 0x04 r n)
  | .writeSingleCoil a r v => some (rq8Frame a 0x05 r (if v then 0xFF00 else 0x0000))
  | .writeSingleHolding a r v => some (rq8Frame a 0x06 r v)
  | .writeMultiCoils a r count data => some (rqmFrame a 0x0F r count data)
  | .writeMultiHolding a r values => some (rqmFrame a 0x10 r (BitVec.ofNat 16 values.length) (bytesOf values))
  | .readHoldingOne a r => some (rq8Frame a 0x03 r 0x0001)
  | .readInputOne a r => some (rq8Frame a 0x04 r 0x0001)
  | .readCoilsReply fmt a body c => some (readReplyFrame fmt a 0x01 body c)
  | .readDiscreteReply fmt a body c => some (readReplyFrame fmt a 0x02 body c)
  | .readHoldingReply fmt a body c => some (readReplyFrame fmt a 0x03 body c)
  | .readInputReply fmt a body c => some (readReplyFrame fmt a 0x04 body c)
  | .writeSingleCoilReply a r x c => some (echoFrame a 0x05 r x c)
  | .writeSingleHoldingReply a r x c => some (echoFrame a 0x06 r x c)
  | .writeMultiCoilsReply a r x c => some (echoFrame a 0x0F r x c)
  | .writeMultiHoldingReply a r x c => some (echoFrame a 0x10 r x c)
  | .readCoilsException a code c => some (exceptionFrame a 0x01 code c)
  | .readDiscreteException a code c => some (exceptionFrame a 0x02 code c)
  | .readHoldingException a code c => some (exceptionFrame a 0x03 code c)
  | .readInputException a code c => some (exceptionFrame a 0x04 code c)
  | .writeSingleCoilException a code c => some (exceptionFrame a 0x05 code c)
  | .writeSingleHoldingException a code c => some (exceptionFrame a 0x06 code c)
  | .writeMultiCoilsException a code c => some (exceptionFrame a 0x0F code c)
  | .writeMultiHoldingException a code c => some (exceptionFrame a 0x10 code c)
  | .setTimeout _ | .crcInit | .crcByte _ | .crc16 _ | .build _ _ _ | .receive _ _ _ _ => none

/-- What a command drives on the port (R11, R150 to R157); operands it does not use are 0 or empty. -/
def portOf (i : Instr) : Option PortCmd :=
  match i with
  | .readCoils a r => some ⟨0x01, a, r, 0, []⟩
  | .readDiscrete a r => some ⟨0x02, a, r, 0, []⟩
  | .readHolding a r n => some ⟨0x03, a, r, n, []⟩
  | .readInput a r n => some ⟨0x04, a, r, n, []⟩
  | .writeSingleCoil a r v => some ⟨0x05, a, r, if v then 1 else 0, []⟩
  | .writeSingleHolding a r v => some ⟨0x06, a, r, v, []⟩
  | .writeMultiCoils a r count data => some ⟨0x0F, a, r, count, data⟩
  | .writeMultiHolding a r values => some ⟨0x10, a, r, BitVec.ofNat 16 values.length, bytesOf values⟩
  | .readHoldingOne a r => some ⟨0x03, a, r, 1, []⟩
  | .readInputOne a r => some ⟨0x04, a, r, 1, []⟩
  | .readCoilsReply _ _ _ _ | .readDiscreteReply _ _ _ _ => none
  | .readHoldingReply _ _ _ _ | .readInputReply _ _ _ _ => none
  | .writeSingleCoilReply _ _ _ _ | .writeSingleHoldingReply _ _ _ _ => none
  | .writeMultiCoilsReply _ _ _ _ | .writeMultiHoldingReply _ _ _ _ => none
  | .readCoilsException _ _ _ | .readDiscreteException _ _ _ => none
  | .readHoldingException _ _ _ | .readInputException _ _ _ => none
  | .writeSingleCoilException _ _ _ | .writeSingleHoldingException _ _ _ => none
  | .writeMultiCoilsException _ _ _ | .writeMultiHoldingException _ _ _ => none
  | .setTimeout _ | .crcInit | .crcByte _ | .crc16 _ | .build _ _ _ | .receive _ _ _ _ => none

/-- The core instruction a frame decodes to: a pseudo-command stands for its expansion (R79). -/
def canonical (i : Instr) : Instr :=
  match i with
  | .readHoldingOne a r => .readHolding a r 1
  | .readInputOne a r => .readInput a r 1
  | i => i

end Sys2Proof
end

