-- ==== Sys2Proof/Machine/State.lean ====
section
/-! DEFINITION. The state of the engine and its surroundings (spec 10_state.md), the reasons a step can stop, and the
state after reset (R28). Plain data throughout. -/

namespace Sys2Proof.Machine

/-- The sequencer's state (R14). -/
inductive Phase where
  | idle | validate | flush | transmit | pause | receive | done
  deriving DecidableEq, Repr

/-- The receiver's state `rx.st` (R16). -/
inductive RxState where
  | awaitHeaderByte | awaitBody | complete | timedOut | crcMismatch
  deriving DecidableEq, Repr

/-- The frame buffer (R18): pairs of index and byte, indexes strictly rising, no entry with the byte an unlisted index
reads as (notes/assumptions/2.md). -/
abbrev Memory := List Host.Cell

/-- The whole state. Names follow R11 to R25; the last four fields are the model's own. -/
structure State where
  /-- `phase` (R14). -/
  phase : Phase
  /-- `cmd.op` (R11). -/
  cmdOp : Byte
  /-- `cmd.dev` (R11). -/
  cmdDev : Byte
  /-- `cmd.reg` (R11). -/
  cmdReg : Word
  /-- `cmd.arg` (R11). -/
  cmdArg : Word
  /-- `cmd.data` (R11). -/
  cmdData : List Byte
  /-- The host's `cmd.arg` lines of the command port (R11, D1): what acceptance latches (notes/assumptions/10.md). -/
  portArg : Word
  /-- The host's `cmd.data` lines of the command port (R11, D1). -/
  portData : List Byte
  /-- `exp_addr` (R12). -/
  expAddr : Byte
  /-- `exp_fn` (R12). -/
  expFn : Byte
  /-- `exp_val` (R12). -/
  expVal : Val17
  /-- `T`, the receiver's timeout input (R110, R111). -/
  rxT : Nat
  /-- `rx.st` (R16). -/
  rxSt : RxState
  /-- `rx.idx` (R17). -/
  rxIdx : BitVec 3
  /-- `rx.total` (R17). -/
  rxTotal : Val17
  /-- `rx.rem` (R17). -/
  rxRem : Val17
  /-- `rx.last` (R19). -/
  rxLast : Nat
  /-- `buf` (R18). -/
  buf : Memory
  /-- `crc` (R20). -/
  crc : Word
  /-- `txframe` (R21). -/
  txframe : List Byte
  /-- `t_tx` (R21). -/
  tTx : Nat
  /-- `TIMEOUT` (R22). -/
  timeout : Nat
  /-- `TIMEOUT` has been written since reset (R160, R212). -/
  timeoutSet : Bool
  /-- `res.status` (R23). -/
  resStatus : Byte
  /-- `res.frame` (R23). -/
  resFrame : List Byte
  /-- `res.valid` (R23). -/
  resValid : Bool
  /-- The transport's inbound buffer, oldest byte first (R25, R199). -/
  inbound : List Byte
  /-- The outbound stream: every byte handed to `TxWrite`, in order (R40, R48). -/
  outbound : List Byte
  /-- The transport's monotonic clock in ticks (R25, R200). -/
  clock : Nat
  /-- The value the instruction `Crc16` returned last (R93; notes/assumptions/9.md). -/
  retWord : Word
  /-- The frame the instruction `Build` returned last (R100; notes/assumptions/9.md). -/
  retBytes : List Byte
  /-- The outside world's next moves, in order (R10, R202; notes/assumptions/3.md). -/
  agenda : List Move
  /-- Free moves drawn so far (notes/assumptions/3.md). -/
  draws : Nat
  deriving DecidableEq, Repr

/-- Faults: accesses and states for which the spec has no rule. No run reaches one from a state that meets
`Sys2Proof.Safety.Sound` (notes/assumptions/16.md). -/
inductive Fault where
  /-- An index of `buf` at or beyond `FRAME_MAX` (R41), or a verification of fewer than two bytes. Raised by the
  receiver's body step and verification. Safe: the model stops. -/
  | bufRange
  /-- `rx.st = AwaitHeaderByte` with `rx.idx` outside 0 to 3 (R17): no header step is defined. Raised by a poll that
  takes a byte. Safe: the model stops. -/
  | noHeaderStep
  deriving DecidableEq, Repr

/-- Refusals. -/
inductive Refusal where
  /-- The instruction has no meaning in the model yet. Raised by `exec`'s arms only. Safe. -/
  | notModelled (mnemonic : String)
  /-- A command or `SetTimeout` while a transaction is in flight: the host has no move (R159, R160, U10). Safe. -/
  | portBusy
  /-- A command before `TIMEOUT` was written since reset (R160, R212, U9). Safe. -/
  | timeoutUnset
  /-- An operation that is none of the eight function codes, on the port or as `Receive`'s expected function (R77,
  R111, U1). Safe. -/
  | unknownCommand
  /-- Operands beyond the port's limits: more than 255 data bytes, or more than 127 values (R162, U2). Safe. -/
  | operandLimits
  deriving DecidableEq, Repr

/-- The state after reset (R28, R210): `phase = IDLE`, `res.valid = 0`, `TIMEOUT` not written. The spec calls every
other register unspecified; the values here are DESIGN CHOICE (notes/assumptions/1.md, 2.md). -/
def State.reset : State where
  phase := .idle
  cmdOp := 0
  cmdDev := 0
  cmdReg := 0
  cmdArg := 0
  cmdData := []
  portArg := 0
  portData := []
  expAddr := 0
  expFn := 0
  expVal := 0
  rxT := 0
  rxSt := .awaitHeaderByte
  rxIdx := 0
  rxTotal := 0
  rxRem := 0
  rxLast := 0
  buf := []
  crc := 0
  txframe := []
  tTx := 0
  timeout := 0
  timeoutSet := false
  resStatus := 0
  resFrame := []
  resValid := false
  inbound := []
  outbound := []
  clock := 0
  retWord := 0
  retBytes := []
  agenda := []
  draws := 0

end Sys2Proof.Machine
end

