-- ==== Sys2Proof/Machine/Ops.lean ====
section
/-! DEFINITION. The shared operations: the outcome of a step, the frame buffer (R41), the transport's primitives
(R197 to R200), entry to an outcome (R187), acceptance of a command (R160), the CRC register (R91 to R93), `Build`
(R100) and the reset event (R210). -/

namespace Sys2Proof.Machine

/-- What a step or a meaning answers. -/
abbrev StepResult := Host.Outcome State Fault Refusal

/-- Goes on with the next state, keeps a fault or a refusal. -/
def andThen (o : StepResult) (k : State → StepResult) : StepResult :=
  match o with
  | .next s => k s
  | .fault r => .fault r
  | .refused r => .refused r

/-- The next state, if there is one. -/
def nextOf (o : StepResult) : Option State :=
  match o with
  | .next s => some s
  | .fault _ | .refused _ => none

/-! ### The frame buffer -/

/-- What an unlisted index reads as (notes/assumptions/2.md). -/
def bufDefault : Byte := 0

/-- One byte of the buffer. -/
def Memory.read (m : Memory) (i : Nat) : Byte :=
  match m with
  | [] => bufDefault
  | (k, v) :: rest => if k = i then v else Memory.read rest i

/-- Stores one byte and keeps the canonical form: storing the default byte removes the entry. -/
def Memory.write (m : Memory) (i : Nat) (b : Byte) : Memory :=
  match m with
  | [] => if b = bufDefault then [] else [(i, b)]
  | (k, v) :: rest =>
    if i < k then if b = bufDefault then (k, v) :: rest else (i, b) :: (k, v) :: rest
    else if i = k then if b = bufDefault then rest else (i, b) :: rest
    else (k, v) :: Memory.write rest i b

/-- The canonical form: every index at least `lo`, strictly rising, no default byte. -/
def Memory.wfFrom (lo : Nat) (m : Memory) : Bool :=
  match m with
  | [] => true
  | (k, v) :: rest => decide (lo ≤ k) && (v != bufDefault) && Memory.wfFrom (k + 1) rest

/-- The canonical form of the buffer. -/
def Memory.wf (m : Memory) : Bool := Memory.wfFrom 0 m

/-- `MemRead(i, n)`: the `n` bytes from index `i` (R41). -/
def memRead (m : Memory) (i n : Nat) : List Byte := (List.range n).map fun k => Memory.read m (i + k)

/-- `MemWrite(i, n, s)` with `n = len(s)` (R41). -/
def memWrite (m : Memory) (i : Nat) (bs : List Byte) : Memory :=
  match bs with
  | [] => m
  | b :: rest => memWrite (Memory.write m i b) (i + 1) rest

/-- `buf[i] <- b`. -/
def storeByte (i : Nat) (b : Byte) (s : State) : State := { s with buf := memWrite s.buf i [b] }

/-! ### The transport -/

/-- `RxAvail()` (R198). -/
def rxAvail (s : State) : Nat := s.inbound.length

/-- `RxRead1()`: the oldest unread byte, removed (R199); none where no byte is ready. -/
def rxRead1 (s : State) : Option (Byte × State) :=
  match s.inbound with
  | [] => none
  | b :: rest => some (b, { s with inbound := rest })

/-- `n` times `RxRead1()`, the bytes discarded (R144). -/
def rxDiscard : Nat → State → State
  | 0, s => s
  | n + 1, s =>
    match rxRead1 s with
    | some (_, s') => rxDiscard n s'
    | none => s

/-- `TxWrite(bs)`: the bytes join the outbound stream in one call, in order (R48, R197). -/
def txWrite (bs : List Byte) (s : State) : State := { s with outbound := s.outbound ++ bs }

/-- `Now()` (R200). -/
def now (s : State) : Nat := s.clock

/-- The environment appends bytes to the inbound buffer (R202). -/
def deliver (bs : List Byte) (s : State) : State := { s with inbound := s.inbound ++ bs }

/-- The environment advances the clock (R202); readings never decrease (R200). -/
def advance (n : Nat) (s : State) : State := { s with clock := s.clock + n }

/-! ### Outcomes and acceptance -/

/-- Entry to an outcome (R187): the one operation every end of a command goes through. There is no return from it but
the next command (R188). -/
def finish (status : Byte) (frame : List Byte) (s : State) : State :=
  { s with resStatus := status, resFrame := frame, resValid := true, phase := .done }

/-- The host has a move: `phase` is IDLE or DONE (R159, R160). -/
def portReady (s : State) : Bool := s.phase == .idle || s.phase == .done

/-- Acceptance (R160): latches all five operand registers (R11, D1), an operand the command does not have from the
port's lines (notes/assumptions/10.md), `res.valid <- 0`, and starts the sequence of R141 in its first phase. -/
def accept (f : FnCode) (dev : Byte) (reg : Word) (arg : Option Word) (data : Option (List Byte)) (s : State) :
    StepResult :=
  if portReady s then
    if s.timeoutSet then
      .next
        { s with
          cmdOp := fnByte f
          cmdDev := dev
          cmdReg := reg
          cmdArg := arg.getD s.portArg
          cmdData := data.getD s.portData
          resValid := false
          phase := .validate }
    else .refused .timeoutUnset
  else .refused .portBusy

/-! ### The CRC register and `Build` -/

/-- `CRC_INIT` (R91). -/
def crcInitOp (s : State) : State := { s with crc := 0xFFFF }

/-- `CRC_BYTE(b)` (R92). -/
def crcByteOp (b : Byte) (s : State) : State := { s with crc := crcStep s.crc b }

/-- The loop of R93: `CRC_BYTE` of each byte in order. -/
def crcLoop : List Byte → State → State
  | [], s => s
  | b :: bs, s => crcLoop bs (crcByteOp b s)

/-- `Crc16(bs)` (R93): the returned value and the state, whose only change is the register (R94). -/
def crc16Op (bs : List Byte) (s : State) : Word × State :=
  let s' := crcLoop bs (crcInitOp s)
  (swap16 s'.crc, s')

/-- `Build(a, f, p)` (R100): the returned frame and the state, whose only change is the register. -/
def buildOp (a f : Byte) (p : List Byte) (s : State) : List Byte × State :=
  let (c, s') := crc16Op (a :: f :: p) s
  (a :: f :: p ++ [hi8 c, lo8 c], s')

/-! ### The agenda and reset -/

/-- The next move and the state without it: the head of the agenda, or a free move where none is listed. -/
def takeMove (s : State) : Move × State :=
  match s.agenda with
  | m :: rest => (m, { s with agenda := rest })
  | [] => (Config.freeMove s.draws, { s with draws := s.draws + 1 })

/-- The reset event (R210): the engine's registers take their values after reset (notes/assumptions/15.md); the
transport, the clock, the host's lines and the moves still to come are not touched. -/
def resetEvent (s : State) : State :=
  { State.reset with
    inbound := s.inbound
    outbound := s.outbound
    clock := s.clock
    portArg := s.portArg
    portData := s.portData
    agenda := s.agenda
    draws := s.draws }

end Sys2Proof.Machine
end

