-- ==== Sys2Proof/Machine/Flags.lean ====
section
/-! DEFINITION. The bits that act as flags (R24), the class of receive errors (R184) and the address test (R142,
R143). The engine has no condition-code register. -/

namespace Sys2Proof.Machine

/-- The exception flag: bit 7 of a reply's function byte (R24, R63). -/
def exceptionFlag (f : Byte) : Bool := f.getLsbD 7

/-- The exception flag of the frame held in `buf` (R24): `buf[1][7]`. -/
def heldExceptionFlag (s : State) : Bool := exceptionFlag (Memory.read s.buf 1)

/-- The success flag (R24): `res.status = 0`. -/
def successFlag (s : State) : Bool := s.resStatus == 0

/-- `RecvError(s)` (R184): no reliable answer. -/
def recvError (status : Byte) : Bool := status == 8 || status == 9

/-- The function-byte test of the receiver, on seven bits (R75, R117). -/
def functionMatches (b expFn : Byte) : Bool := (b &&& 0x7F) == expFn

/-- The address test of a class of commands (R142, R143): reads accept 1 to 247, writes 0 to 247. -/
def addressOk (f : FnCode) (dev : Byte) : Bool :=
  if isRead f then decide (dev ≠ 0) && decide (dev.toNat ≤ 247) else decide (dev.toNat ≤ 247)

end Sys2Proof.Machine
end

