-- ==== Sys2Proof/Machine/Operands.lean ====
section
/-! DEFINITION. What each command sends and expects, computed from the operand registers: its payload (R150 to R157,
source step (b)) and its expected value (R147). One definition per command. -/

namespace Sys2Proof.Machine

/-- ReadCoils (R150): the register address and the count 1. -/
def readCoilsPayload (s : State) : List Byte := be16 s.cmdReg ++ be16 0x0001

/-- ReadDiscrete (R151). -/
def readDiscretePayload (s : State) : List Byte := be16 s.cmdReg ++ be16 0x0001

/-- ReadHolding (R152): the register address and the count; `n` is not range-checked. -/
def readHoldingPayload (s : State) : List Byte := be16 s.cmdReg ++ be16 s.cmdArg

/-- ReadInput (R153). -/
def readInputPayload (s : State) : List Byte := be16 s.cmdReg ++ be16 s.cmdArg

/-- The `cmd.arg` of WriteSingleCoil: the boolean in bit 0, the lines' bits 15 to 1 (R11, R154). -/
def coilArg (lines : Word) (v : Bool) : Word := (lines.extractLsb' 1 15).concat v

/-- The coil word (R76): bit 0 of `cmd.arg` decides, the other bits are ignored (R154). -/
def coilWord (arg : Word) : Word := if arg.getLsbD 0 then 0xFF00 else 0x0000

/-- WriteSingleCoil (R154). -/
def writeSingleCoilPayload (s : State) : List Byte := be16 s.cmdReg ++ be16 (coilWord s.cmdArg)

/-- WriteSingleHolding (R155). -/
def writeSingleHoldingPayload (s : State) : List Byte := be16 s.cmdReg ++ be16 s.cmdArg

/-- WriteMultiCoils (R156): `byte_len` is the number of data bytes, whatever `count` says (D26). -/
def writeMultiCoilsPayload (s : State) : List Byte :=
  be16 s.cmdReg ++ be16 s.cmdArg ++ [BitVec.ofNat 8 s.cmdData.length] ++ s.cmdData

/-- The `byte_len` of WriteMultiHolding: twice the count (R157), which is the number of data bytes (R66) when the port
carries a list of values. Where the data do not fit the count it is a free value: DESIGN CHOICE
(notes/assumptions/23.md). -/
def registersByteLen (s : State) : Byte :=
  if s.cmdData.length = 2 * s.cmdArg.toNat then BitVec.ofNat 8 (2 * s.cmdArg.toNat)
  else Config.freeByteLen s.outbound.length

/-- WriteMultiHolding (R157). -/
def writeMultiHoldingPayload (s : State) : List Byte :=
  be16 s.cmdReg ++ be16 s.cmdArg ++ [registersByteLen s] ++ s.cmdData

/-- The payload `p` of R141 for the command held. -/
def payloadOf (f : FnCode) (s : State) : List Byte :=
  match f with
  | .readCoils => readCoilsPayload s
  | .readDiscrete => readDiscretePayload s
  | .readHolding => readHoldingPayload s
  | .readInput => readInputPayload s
  | .writeSingleCoil => writeSingleCoilPayload s
  | .writeSingleHolding => writeSingleHoldingPayload s
  | .writeMultiCoils => writeMultiCoilsPayload s
  | .writeMultiHolding => writeMultiHoldingPayload s

/-- ReadCoils expects one data byte (R150). -/
def readCoilsExpect (_ : State) : Val17 := 1

/-- ReadDiscrete expects one data byte (R151). -/
def readDiscreteExpect (_ : State) : Val17 := 1

/-- ReadHolding expects two bytes a register (R152, D13): at most 131070, so 17 bits hold it. -/
def readHoldingExpect (s : State) : Val17 := s.cmdArg.setWidth 17 * 2

/-- ReadInput likewise (R153). -/
def readInputExpect (s : State) : Val17 := s.cmdArg.setWidth 17 * 2

/-- WriteSingleCoil expects its register address back (R154). -/
def writeSingleCoilExpect (s : State) : Val17 := s.cmdReg.setWidth 17

/-- WriteSingleHolding likewise (R155). -/
def writeSingleHoldingExpect (s : State) : Val17 := s.cmdReg.setWidth 17

/-- WriteMultiCoils likewise (R156). -/
def writeMultiCoilsExpect (s : State) : Val17 := s.cmdReg.setWidth 17

/-- WriteMultiHolding likewise (R157). -/
def writeMultiHoldingExpect (s : State) : Val17 := s.cmdReg.setWidth 17

/-- The expected value `ev` of R141 for the command held. -/
def expectOf (f : FnCode) (s : State) : Val17 :=
  match f with
  | .readCoils => readCoilsExpect s
  | .readDiscrete => readDiscreteExpect s
  | .readHolding => readHoldingExpect s
  | .readInput => readInputExpect s
  | .writeSingleCoil => writeSingleCoilExpect s
  | .writeSingleHolding => writeSingleHoldingExpect s
  | .writeMultiCoils => writeMultiCoilsExpect s
  | .writeMultiHolding => writeMultiHoldingExpect s

end Sys2Proof.Machine
end

