-- ==== Sys2Proof/Machine/Receiver.lean ====
section
/-! DEFINITION. The frame receiver (42_frame_receiver.md): start (R113), the poll (R114), the timeout test (R115), the
header steps (R116 to R119), `DecideLength` (R120 to R122), the body step (R123), verification (R124) and the
terminal states (R125 to R128); and the instruction `Receive` (R110). -/

namespace Sys2Proof.Machine

/-- Start of the receiver (R113) with its inputs (R111, R147); the transport is not read. `res.valid` is 1 only while
`phase = DONE` (R23). -/
def receiveStart (ea ef : Byte) (ev : Val17) (T : Nat) (s : State) : State :=
  { s with
    expAddr := ea
    expFn := ef
    expVal := ev
    rxT := T
    rxIdx := 0
    rxSt := .awaitHeaderByte
    rxLast := now s
    resValid := false
    phase := .receive }

/-! ### The terminal states -/

/-- `TimedOut` (R126): the bytes held are lost, the unread ones stay where they are. -/
def timedOut (s : State) : State := finish Config.receiveTimeout [] { s with rxSt := .timedOut }

/-- `CrcMismatch` (R127). -/
def crcMismatch (s : State) : State := finish Config.crcFailStatus [] { s with rxSt := .crcMismatch }

/-- `Complete` (R125): the status is the exception-code byte as it stands (R183), or 0; the frame is delivered whole
(R81). -/
def complete (s : State) : State :=
  let status := if heldExceptionFlag s then Memory.read s.buf 2 else 0
  finish status (memRead s.buf 0 s.rxTotal.toNat) { s with rxSt := .complete }

/-- The timeout test of a poll that found no byte (R115): strict. -/
def timeoutTest (s : State) : State := if now s - s.rxLast > s.rxT then timedOut s else s

/-! ### Header steps and `DecideLength` -/

/-- Leaves `DecideLength` with a length (R120 to R122). -/
def awaitBodyOf (total : Val17) (s : State) : State :=
  { s with rxTotal := total, rxRem := total - 4, rxSt := .awaitBody }

/-- `DecideLength`: the exception branch (R120), else the echo branch (R121), else the read branch (R122). -/
def decideLength (s : State) : State :=
  let b2 := Memory.read s.buf 2
  let b3 := Memory.read s.buf 3
  if heldExceptionFlag s then awaitBodyOf (BitVec.ofNat 17 Config.excFrameLen) s
  else if isWriteByte s.expFn then
    if word b2 b3 ≠ s.expVal.setWidth 16 then { s with rxIdx := 0, rxSt := .awaitHeaderByte }
    else awaitBodyOf (BitVec.ofNat 17 Config.echoFrameLen) s
  else if s.expVal.toNat < Config.len2Threshold then
    awaitBodyOf (b2.setWidth 17 + BitVec.ofNat 17 Config.read1Overhead) s
  else awaitBodyOf ((word b2 b3).setWidth 17 + BitVec.ofNat 17 Config.read2Overhead) s

/-- `AwaitHeaderByte(0)` (R116). -/
def headerStep0 (b : Byte) (s : State) : State :=
  { storeByte 0 b s with rxIdx := if b = s.expAddr then 1 else 0 }

/-- `AwaitHeaderByte(1)` (R117). -/
def headerStep1 (b : Byte) (s : State) : State :=
  { storeByte 1 b s with rxIdx := if functionMatches b s.expFn then 2 else 0 }

/-- `AwaitHeaderByte(2)` (R118): no test is made. -/
def headerStep2 (b : Byte) (s : State) : State := { storeByte 2 b s with rxIdx := 3 }

/-- `AwaitHeaderByte(3)` (R119): `DecideLength` runs in the same step (D17). -/
def headerStep3 (b : Byte) (s : State) : State := decideLength { storeByte 3 b s with rxIdx := 4 }

/-- The header step of the index held. -/
def headerStep (b : Byte) (s : State) : StepResult :=
  if s.rxIdx = 0 then .next (headerStep0 b s)
  else if s.rxIdx = 1 then .next (headerStep1 b s)
  else if s.rxIdx = 2 then .next (headerStep2 b s)
  else if s.rxIdx = 3 then .next (headerStep3 b s)
  else .fault .noHeaderStep

/-! ### Body and verification -/

/-- Verification (R124), through the CRC register (R20). -/
def verify (s : State) : StepResult :=
  let m := s.rxTotal.toNat
  if 2 ≤ m ∧ m ≤ Config.frameMax then
    let (computed, s') := crc16Op (memRead s.buf 0 (m - 2)) s
    let recv := word (Memory.read s.buf (m - 2)) (Memory.read s.buf (m - 1))
    .next (if computed = recv then complete s' else crcMismatch s')
  else .fault .bufRange

/-- The end of a body step (R123): when nothing remains the frame is verified in the same step. -/
def afterBodyByte (s : State) : StepResult := if s.rxRem = 0 then verify s else .next s

/-- The index the next body byte is stored at (R123). -/
def bodyIndex (s : State) : Nat := (s.rxTotal - s.rxRem).toNat

/-- Stores a body byte and counts it (R123). -/
def storeBody (b : Byte) (s : State) : State := { storeByte (bodyIndex s) b s with rxRem := s.rxRem - 1 }

/-- `AwaitBody(k)` (R123): the byte goes to `buf[rx.total - rx.rem]`. -/
def bodyStep (b : Byte) (s : State) : StepResult :=
  if bodyIndex s < Config.frameMax then afterBodyByte (storeBody b s) else .fault .bufRange

/-! ### The poll -/

/-- The receiver is in one of its two waiting states (R114, R128). -/
def rxWaiting (s : State) : Bool := s.rxSt == .awaitHeaderByte || s.rxSt == .awaitBody

/-- The step of a poll that consumed `b` (R114). -/
def takeByte (b : Byte) (s : State) : StepResult :=
  if s.rxSt = .awaitHeaderByte then headerStep b s else bodyStep b s

/-- One poll (R114): the clock is sampled once, a ready byte is taken before the timeout is looked at (R186); in a
terminal state no poll runs (R128). -/
def poll (s : State) : StepResult :=
  if rxWaiting s then
    let t := now s
    match rxRead1 s with
    | some (b, s') => takeByte b { s' with rxLast := t }
    | none => .next (timeoutTest s)
  else .next s

/-- Polls, at most `n`, as long as the receive phase goes on and a byte is ready. -/
def drain : Nat → State → StepResult
  | 0, s => .next s
  | n + 1, s =>
    if s.phase = .receive ∧ rxWaiting s = true ∧ rxAvail s ≥ 1 then andThen (poll s) (drain n) else .next s

/-- The receiver takes every byte that is ready, one per poll, while nothing else moves. -/
def catchUp (s : State) : StepResult := drain (rxAvail s) s

/-- The environment delivers bytes back to back and the receiver, if it is receiving, takes what it can before
anything else moves (notes/assumptions/7.md). -/
def burst (bs : List Byte) (s : State) : StepResult := catchUp (deliver bs s)

/-- `Receive(ea, ef, ev, T)` (R110): start, then the polls that find a byte ready; the polls that wait are the engine's
own moves (notes/assumptions/8.md). An expected function outside the eight codes has no meaning (R111, U1). -/
def execReceive (ea ef : Byte) (ev : Val17) (T : Nat) (s : State) : StepResult :=
  match fnOfByte ef with
  | some _ => catchUp (receiveStart ea ef ev T s)
  | none => .refused .unknownCommand

end Sys2Proof.Machine
end

