-- ==== Sys2Proof/Machine/Sequencer.lean ====
section
/-! DEFINITION. The transaction sequencer (43_commands.md R141 to R148): one definition per phase, one move of the
engine per phase, clock sample or poll. -/

namespace Sys2Proof.Machine

/-- VALIDATE (R142, R143): an invalid address ends the command with `AddressError` and no I/O. -/
def validateStep (s : State) : StepResult :=
  match fnOfByte s.cmdOp with
  | none => .refused .unknownCommand
  | some f => .next (if addressOk f s.cmdDev then { s with phase := .flush } else finish Config.addressError [] s)

/-- FLUSH (R144): the count is sampled once and that many bytes are read (D19). -/
def flushStep (s : State) : State := { rxDiscard (rxAvail s) s with phase := .transmit }

/-- TRANSMIT (R145): `Build`, one `TxWrite`, and the clock after it. -/
def transmitStep (s : State) : StepResult :=
  match fnOfByte s.cmdOp with
  | none => .refused .unknownCommand
  | some f =>
    let (frame, s1) := buildOp s.cmdDev s.cmdOp (payloadOf f s) s
    let s2 := txWrite frame { s1 with txframe := frame }
    .next { s2 with tTx := now s2, phase := .pause }

/-- PAUSE (R146): one clock sample. The sample that ends the pause is also the receiver's start (R147, R113;
notes/assumptions/5.md). -/
def pauseStep (s : State) : StepResult :=
  if now s - s.tTx ≥ s.timeout then
    match fnOfByte s.cmdOp with
    | none => .refused .unknownCommand
    | some f => .next (receiveStart s.cmdDev s.cmdOp (expectOf f s) s.timeout s)
  else .next s

/-- One move of the engine. In IDLE and DONE it waits for the host (R188, R210; notes/assumptions/22.md). -/
def engineStep (s : State) : StepResult :=
  match s.phase with
  | .idle => .next s
  | .validate => validateStep s
  | .flush => .next (flushStep s)
  | .transmit => transmitStep s
  | .pause => pauseStep s
  | .receive => poll s
  | .done => .next s

/-- `n` moves of the engine with nothing else moving. -/
def engineRun : Nat → State → StepResult
  | 0, s => .next s
  | n + 1, s => andThen (engineStep s) (engineRun n)

/-- The part of R141 in which the engine waits for nothing: VALIDATE, FLUSH and TRANSMIT, or VALIDATE and the
outcome (notes/assumptions/6.md). -/
def runToPause (s : State) : StepResult := engineRun 3 s

end Sys2Proof.Machine
end

