-- ==== Sys2Proof/Machine/Commands.lean ====
section
/-! DEFINITION. The commands (43_commands.md R150 to R159). Each has its acceptance (R160), after which the engine's
own moves run R141, and its meaning: acceptance and then the moves in which the engine waits for nothing, up to the
pause or the outcome (notes/assumptions/6.md). -/

namespace Sys2Proof.Machine

/-- ReadCoils (R150): `cmd.arg` is unused. -/
def acceptReadCoils (a : Byte) (r : Word) (s : State) : StepResult := accept .readCoils a r none none s

/-- ReadDiscrete (R151). -/
def acceptReadDiscrete (a : Byte) (r : Word) (s : State) : StepResult := accept .readDiscrete a r none none s

/-- ReadHolding (R152). -/
def acceptReadHolding (a : Byte) (r n : Word) (s : State) : StepResult := accept .readHolding a r (some n) none s

/-- ReadInput (R153). -/
def acceptReadInput (a : Byte) (r n : Word) (s : State) : StepResult := accept .readInput a r (some n) none s

/-- WriteSingleCoil (R154): `cmd.arg[0] = v`, the ignored bits 15 to 1 as the port drives them. -/
def acceptWriteSingleCoil (a : Byte) (r : Word) (v : Bool) (s : State) : StepResult :=
  accept .writeSingleCoil a r (some (coilArg s.portArg v)) none s

/-- WriteSingleHolding (R155). -/
def acceptWriteSingleHolding (a : Byte) (r v : Word) (s : State) : StepResult :=
  accept .writeSingleHolding a r (some v) none s

/-- WriteMultiCoils (R156): more than 255 data bytes cannot be expressed on the port (R162, U2). -/
def acceptWriteMultiCoils (a : Byte) (r count : Word) (data : List Byte) (s : State) : StepResult :=
  if data.length ≤ Config.txDataMax then accept .writeMultiCoils a r (some count) (some data) s
  else .refused .operandLimits

/-- WriteMultiHolding (R157): more than 127 values cannot be expressed on the port (R162, U2). -/
def acceptWriteMultiHolding (a : Byte) (r : Word) (values : List Word) (s : State) : StepResult :=
  if values.length ≤ Config.valuesMax then
    accept .writeMultiHolding a r (some (BitVec.ofNat 16 values.length)) (some (bytesOf values)) s
  else .refused .operandLimits

/-- ReadHoldingOne (R158): ReadHolding with `n = 1`. -/
def acceptReadHoldingOne (a : Byte) (r : Word) (s : State) : StepResult := acceptReadHolding a r 1 s

/-- ReadInputOne (R158): ReadInput with `n = 1`. -/
def acceptReadInputOne (a : Byte) (r : Word) (s : State) : StepResult := acceptReadInput a r 1 s

/-- `ReadCoils a r` (R150). -/
def execReadCoils (a : Byte) (r : Word) (s : State) : StepResult := andThen (acceptReadCoils a r s) runToPause

/-- `ReadDiscrete a r` (R151). -/
def execReadDiscrete (a : Byte) (r : Word) (s : State) : StepResult := andThen (acceptReadDiscrete a r s) runToPause

/-- `ReadHolding a r n` (R152). -/
def execReadHolding (a : Byte) (r n : Word) (s : State) : StepResult := andThen (acceptReadHolding a r n s) runToPause

/-- `ReadInput a r n` (R153). -/
def execReadInput (a : Byte) (r n : Word) (s : State) : StepResult := andThen (acceptReadInput a r n s) runToPause

/-- `WriteSingleCoil a r v` (R154). -/
def execWriteSingleCoil (a : Byte) (r : Word) (v : Bool) (s : State) : StepResult :=
  andThen (acceptWriteSingleCoil a r v s) runToPause

/-- `WriteSingleHolding a r v` (R155). -/
def execWriteSingleHolding (a : Byte) (r v : Word) (s : State) : StepResult :=
  andThen (acceptWriteSingleHolding a r v s) runToPause

/-- `WriteMultiCoils a r count data` (R156). -/
def execWriteMultiCoils (a : Byte) (r count : Word) (data : List Byte) (s : State) : StepResult :=
  andThen (acceptWriteMultiCoils a r count data s) runToPause

/-- `WriteMultiHolding a r values` (R157). -/
def execWriteMultiHolding (a : Byte) (r : Word) (values : List Word) (s : State) : StepResult :=
  andThen (acceptWriteMultiHolding a r values s) runToPause

/-- `ReadHoldingOne a r` (R79, R158). -/
def execReadHoldingOne (a : Byte) (r : Word) (s : State) : StepResult :=
  andThen (acceptReadHoldingOne a r s) runToPause

/-- `ReadInputOne a r` (R79, R158). -/
def execReadInputOne (a : Byte) (r : Word) (s : State) : StepResult := andThen (acceptReadInputOne a r s) runToPause

/-- `SetTimeout t` (R159): accepted in IDLE and DONE only; it touches nothing but `TIMEOUT`. -/
def execSetTimeout (t : Nat) (s : State) : StepResult :=
  if portReady s then .next { s with timeout := t, timeoutSet := true } else .refused .portBusy

/-- Acceptance of the command an instruction is; no other instruction comes through the port. -/
def acceptInstr (i : Instr) (s : State) : StepResult :=
  match i with
  | .readCoils a r => acceptReadCoils a r s
  | .readDiscrete a r => acceptReadDiscrete a r s
  | .readHolding a r n => acceptReadHolding a r n s
  | .readInput a r n => acceptReadInput a r n s
  | .writeSingleCoil a r v => acceptWriteSingleCoil a r v s
  | .writeSingleHolding a r v => acceptWriteSingleHolding a r v s
  | .writeMultiCoils a r count data => acceptWriteMultiCoils a r count data s
  | .writeMultiHolding a r values => acceptWriteMultiHolding a r values s
  | .readHoldingOne a r => acceptReadHoldingOne a r s
  | .readInputOne a r => acceptReadInputOne a r s
  | .readCoilsReply _ _ _ _ | .readDiscreteReply _ _ _ _ => .refused .unknownCommand
  | .readHoldingReply _ _ _ _ | .readInputReply _ _ _ _ => .refused .unknownCommand
  | .writeSingleCoilReply _ _ _ _ | .writeSingleHoldingReply _ _ _ _ => .refused .unknownCommand
  | .writeMultiCoilsReply _ _ _ _ | .writeMultiHoldingReply _ _ _ _ => .refused .unknownCommand
  | .readCoilsException _ _ _ | .readDiscreteException _ _ _ => .refused .unknownCommand
  | .readHoldingException _ _ _ | .readInputException _ _ _ => .refused .unknownCommand
  | .writeSingleCoilException _ _ _ | .writeSingleHoldingException _ _ _ => .refused .unknownCommand
  | .writeMultiCoilsException _ _ _ | .writeMultiHoldingException _ _ _ => .refused .unknownCommand
  | .setTimeout _ | .crcInit | .crcByte _ | .crc16 _ | .build _ _ _ => .refused .unknownCommand
  | .receive _ _ _ _ => .refused .unknownCommand

end Sys2Proof.Machine
end

