-- ==== Sys2Proof/Machine/Views.lean ====
section
/-! DEFINITION. The typed views of a result (43_commands.md R148, R150 to R158): functions of `res.status`,
`res.frame` and `exp_val`, no state of their own (R23). A view outside its conditions has no value (R148, R183, D27;
notes/assumptions/19.md). -/

namespace Sys2Proof.Machine

/-- The width of the length field the receiver expects (R122, R148). -/
def lenFmtOf (ev : Val17) : LenFmt := if ev.toNat < Config.len2Threshold then .len1 else .len2

/-- The result is a success with a normal reply (R148). -/
def resNormal (s : State) : Bool :=
  s.resValid && successFlag s && decide (2 ≤ s.resFrame.length) && !exceptionFlag (s.resFrame.getD 1 0)

/-- The body of a read reply (R148): its stated length from its offset, none where the frame is too short for it. -/
def bodyOf (ev : Val17) (frame : List Byte) : Option (List Byte) :=
  let b2 := frame.getD 2 0
  let b3 := frame.getD 3 0
  let (off, len) :=
    match lenFmtOf ev with
    | .len1 => (3, b2.toNat)
    | .len2 => (4, (word b2 b3).toNat)
  if off + len ≤ frame.length then some ((frame.drop off).take len) else none

/-- The body of the result held, where the views are defined (R148). -/
def resBody (s : State) : Option (List Byte) := if resNormal s then bodyOf s.expVal s.resFrame else none

/-- The boolean view (R150, R151): bit 0 of the first data byte; it needs one. -/
def viewBit (s : State) : Option Bool :=
  match resBody s with
  | some (b :: _) => some (b.getLsbD 0)
  | _ => none

/-- The 16-bit view of a single read (R158): it needs two data bytes. -/
def viewWord (s : State) : Option Word :=
  match resBody s with
  | some (b0 :: b1 :: _) => some (word b0 b1)
  | _ => none

/-- The raw data of a register read (R152). -/
def viewData (s : State) : Option (List Byte) := resBody s

/-- The value list of a register read (R152): an odd last byte is left out. -/
def viewValues (s : State) : Option (List Word) := (resBody s).map wordsOf

/-- The status view of a write (R154): like every view it needs status 0 and a normal reply (R148), so an exception reply
with code 0 has none (R183). The status of any other outcome is read from `res.status` itself (R23). -/
def viewStatus (s : State) : Option Byte := if resNormal s then some s.resStatus else none

/-- The result record `[status] ++ frame` (R81). -/
def resultRecord (s : State) : List Byte := s.resStatus :: s.resFrame

/-- The kinds of typed result (R148). -/
inductive TypedResult where
  | bit (b : Bool)
  | value (w : Word)
  | values (data : List Byte) (ws : List Word)
  | status (code : Byte)
  deriving DecidableEq, Repr

/-- The typed result a command is read through (R150 to R158); none for an instruction that is no command. -/
def typedResult (i : Instr) (s : State) : Option TypedResult :=
  match i with
  | .readCoils _ _ | .readDiscrete _ _ => (viewBit s).map .bit
  | .readHolding _ _ _ | .readInput _ _ _ => (viewData s).map fun d => .values d (wordsOf d)
  | .readHoldingOne _ _ | .readInputOne _ _ => (viewWord s).map .value
  | .writeSingleCoil _ _ _ | .writeSingleHolding _ _ _ => (viewStatus s).map .status
  | .writeMultiCoils _ _ _ _ | .writeMultiHolding _ _ _ => (viewStatus s).map .status
  | .readCoilsReply _ _ _ _ | .readDiscreteReply _ _ _ _ => none
  | .readHoldingReply _ _ _ _ | .readInputReply _ _ _ _ => none
  | .writeSingleCoilReply _ _ _ _ | .writeSingleHoldingReply _ _ _ _ => none
  | .writeMultiCoilsReply _ _ _ _ | .writeMultiHoldingReply _ _ _ _ => none
  | .readCoilsException _ _ _ | .readDiscreteException _ _ _ => none
  | .readHoldingException _ _ _ | .readInputException _ _ _ => none
  | .writeSingleCoilException _ _ _ | .writeSingleHoldingException _ _ _ => none
  | .writeMultiCoilsException _ _ _ | .writeMultiHoldingException _ _ _ => none
  | .setTimeout _ | .crcInit | .crcByte _ | .crc16 _ | .build _ _ _ | .receive _ _ _ _ => none

end Sys2Proof.Machine
end

