-- ==== Sys2Proof/Machine/Agents.lean ====
section
/-! DEFINITION. The moves of the agents (R10, R202, R210) that carry no instruction of their own, and how a move is
placed where the step takes it. -/

namespace Sys2Proof.Machine

/-- Why the command port does not take what the host drives: an unknown operation or operands beyond its limits (R77,
R162; U1, U2). The port decodes no frame, and takes a drive that is no list of values (`issueCommand`). -/
def portRefusal (e : DecodeError) : Refusal :=
  match e with
  | .operandLimits => .operandLimits
  | .unknownFunction _ | .truncated | .badTrailer | .badCount | .badCoilValue | .badByteLen | .noValueList =>
    .unknownCommand

/-- The host drives its lines of the command port as it issues a command (R11, D1); no other move touches them. -/
def drivePort (m : Move) (s : State) : State :=
  match m with
  | .command c | .issue c => { s with portArg := c.arg, portData := c.data }
  | .engine | .tick _ | .byte _ | .frame _ | .setTimeout _ | .reset => s

/-- The host issues a command and nothing more happens in this move but its acceptance (R160). A multiple register write
whose data do not fit its count is accepted with its operands as they stand: no check is made on them (R162;
notes/assumptions/23.md). -/
def issueCommand (c : PortCmd) (s : State) : StepResult :=
  match decodePort c with
  | .ok i => acceptInstr i s
  | .error .noValueList => accept .writeMultiHolding c.dev c.reg (some c.arg) (some c.data) s
  | .error e => .refused (portRefusal e)

/-- A move that carries no instruction. `command` stands here when its operands are no instruction's: the port refuses
it, or runs it as every command runs. `setTimeout` never stands here (`decodeMove` reads an instruction from it), `frame`
when its bytes are not one reply frame. -/
def otherMove (m : Move) (s : State) : StepResult :=
  match m with
  | .engine => engineStep s
  | .tick n => .next (advance n s)
  | .byte b => .next (deliver [b] s)
  | .frame bs => burst bs s
  | .command c => andThen (issueCommand c s) runToPause
  | .issue c => issueCommand c s
  | .setTimeout t => execSetTimeout t s
  | .reset => .next (resetEvent s)

/-- The instruction the next move carries, read with the length-field width the receiver expects (R72). -/
def fetchInstr (m : Move) (s : State) : Option Instr := decodeMove (lenFmtOf s.expVal) m

/-- Puts a move at the head of the agenda. -/
def scheduleMove (m : Move) (s : State) : State := { s with agenda := m :: s.agenda }

/-- Puts an opcode-table word where the step takes its next instruction; for a command with `TIMEOUT` written, as its
acceptance needs (R160, R212; notes/assumptions/13.md). -/
def placeTableWord (nbits w : Nat) (s : State) : State :=
  match tableMove nbits w with
  | .command c => scheduleMove (.command c) { s with timeoutSet := true }
  | m => scheduleMove m s

end Sys2Proof.Machine
end

