-- ==== Sys2Proof/Machine/CrcOps.lean ====
section
/-! DEFINITION. The internal operations of the CRC unit and the encoder as instructions (R91 to R93, R100). They test
no phase: the engine runs them inside its own rules. -/

namespace Sys2Proof.Machine

/-- `CRC_INIT` (R91). -/
def execCrcInit (s : State) : StepResult := .next (crcInitOp s)

/-- `CRC_BYTE(b)` (R92). -/
def execCrcByte (b : Byte) (s : State) : StepResult := .next (crcByteOp b s)

/-- `Crc16(bs)` (R93): the returned value goes to `retWord` (notes/assumptions/9.md). -/
def execCrc16 (bs : List Byte) (s : State) : StepResult :=
  let (c, s') := crc16Op bs s
  .next { s' with retWord := c }

/-- `Build(a, f, p)` (R100): the returned frame goes to `retBytes` (notes/assumptions/9.md). -/
def execBuild (a f : Byte) (p : List Byte) (s : State) : StepResult :=
  let (frame, s') := buildOp a f p s
  .next { s' with retBytes := frame }

end Sys2Proof.Machine
end

