-- ==== Sys2Proof/Machine/Replies.lean ====
section
/-! DEFINITION. Replies as instructions: the frame arrives on the line, byte after byte, and the receiver, if the
engine is receiving, takes it (R114 to R127); otherwise its bytes wait in the inbound buffer (R25, R220). What the
receiver makes of it (completion, a CRC error, resynchronisation) is the receiver's rules, whatever state it is in. -/

namespace Sys2Proof.Machine

/-- Normal reply to ReadCoils: `RP-READ1` or `RP-READ2` (R68, R69, R122). -/
def execReadCoilsReply (fmt : LenFmt) (a : Byte) (body : List Byte) (c : Word) (s : State) : StepResult :=
  burst (readReplyFrame fmt a 0x01 body c) s

/-- Normal reply to ReadDiscrete: `RP-READ1` or `RP-READ2` (R68, R69, R122). -/
def execReadDiscreteReply (fmt : LenFmt) (a : Byte) (body : List Byte) (c : Word) (s : State) : StepResult :=
  burst (readReplyFrame fmt a 0x02 body c) s

/-- Normal reply to ReadHolding: `RP-READ1` or `RP-READ2` (R68, R69, R122). -/
def execReadHoldingReply (fmt : LenFmt) (a : Byte) (body : List Byte) (c : Word) (s : State) : StepResult :=
  burst (readReplyFrame fmt a 0x03 body c) s

/-- Normal reply to ReadInput: `RP-READ1` or `RP-READ2` (R68, R69, R122). -/
def execReadInputReply (fmt : LenFmt) (a : Byte) (body : List Byte) (c : Word) (s : State) : StepResult :=
  burst (readReplyFrame fmt a 0x04 body c) s

/-- Normal reply to WriteSingleCoil: `RP-ECHO` (R70, R121). -/
def execWriteSingleCoilReply (a : Byte) (r x c : Word) (s : State) : StepResult := burst (echoFrame a 0x05 r x c) s

/-- Normal reply to WriteSingleHolding: `RP-ECHO` (R70, R121). -/
def execWriteSingleHoldingReply (a : Byte) (r x c : Word) (s : State) : StepResult := burst (echoFrame a 0x06 r x c) s

/-- Normal reply to WriteMultiCoils: `RP-ECHO` (R70, R121). -/
def execWriteMultiCoilsReply (a : Byte) (r x c : Word) (s : State) : StepResult := burst (echoFrame a 0x0F r x c) s

/-- Normal reply to WriteMultiHolding: `RP-ECHO` (R70, R121). -/
def execWriteMultiHoldingReply (a : Byte) (r x c : Word) (s : State) : StepResult := burst (echoFrame a 0x10 r x c) s

/-- Exception reply to ReadCoils: `RP-EXC` (R71, R120, R125). -/
def execReadCoilsException (a code : Byte) (c : Word) (s : State) : StepResult := burst (exceptionFrame a 0x01 code c) s

/-- Exception reply to ReadDiscrete: `RP-EXC` (R71, R120, R125). -/
def execReadDiscreteException (a code : Byte) (c : Word) (s : State) : StepResult := burst (exceptionFrame a 0x02 code c) s

/-- Exception reply to ReadHolding: `RP-EXC` (R71, R120, R125). -/
def execReadHoldingException (a code : Byte) (c : Word) (s : State) : StepResult := burst (exceptionFrame a 0x03 code c) s

/-- Exception reply to ReadInput: `RP-EXC` (R71, R120, R125). -/
def execReadInputException (a code : Byte) (c : Word) (s : State) : StepResult := burst (exceptionFrame a 0x04 code c) s

/-- Exception reply to WriteSingleCoil: `RP-EXC` (R71, R120, R125). -/
def execWriteSingleCoilException (a code : Byte) (c : Word) (s : State) : StepResult := burst (exceptionFrame a 0x05 code c) s

/-- Exception reply to WriteSingleHolding: `RP-EXC` (R71, R120, R125). -/
def execWriteSingleHoldingException (a code : Byte) (c : Word) (s : State) : StepResult := burst (exceptionFrame a 0x06 code c) s

/-- Exception reply to WriteMultiCoils: `RP-EXC` (R71, R120, R125). -/
def execWriteMultiCoilsException (a code : Byte) (c : Word) (s : State) : StepResult := burst (exceptionFrame a 0x0F code c) s

/-- Exception reply to WriteMultiHolding: `RP-EXC` (R71, R120, R125). -/
def execWriteMultiHoldingException (a code : Byte) (c : Word) (s : State) : StepResult := burst (exceptionFrame a 0x10 code c) s

end Sys2Proof.Machine
end

