-- ==== Sys2Proof/Machine/Dispatch.lean ====
section
/-! DEFINITION. One arm per instruction. -/

namespace Sys2Proof.Machine

def exec (i : Instr) (s : State) : Host.Outcome State Fault Refusal :=
  match i with
  | .readCoils a r => Sys2Proof.Machine.execReadCoils a r s
  | .readDiscrete a r => Sys2Proof.Machine.execReadDiscrete a r s
  | .readHolding a r n => Sys2Proof.Machine.execReadHolding a r n s
  | .readInput a r n => Sys2Proof.Machine.execReadInput a r n s
  | .writeSingleCoil a r v => Sys2Proof.Machine.execWriteSingleCoil a r v s
  | .writeSingleHolding a r v => Sys2Proof.Machine.execWriteSingleHolding a r v s
  | .writeMultiCoils a r count data => Sys2Proof.Machine.execWriteMultiCoils a r count data s
  | .writeMultiHolding a r values => Sys2Proof.Machine.execWriteMultiHolding a r values s
  | .readHoldingOne a r => Sys2Proof.Machine.execReadHoldingOne a r s
  | .readInputOne a r => Sys2Proof.Machine.execReadInputOne a r s
  | .readCoilsReply fmt a body c => Sys2Proof.Machine.execReadCoilsReply fmt a body c s
  | .readDiscreteReply fmt a body c => Sys2Proof.Machine.execReadDiscreteReply fmt a body c s
  | .readHoldingReply fmt a body c => Sys2Proof.Machine.execReadHoldingReply fmt a body c s
  | .readInputReply fmt a body c => Sys2Proof.Machine.execReadInputReply fmt a body c s
  | .writeSingleCoilReply a r x c => Sys2Proof.Machine.execWriteSingleCoilReply a r x c s
  | .writeSingleHoldingReply a r x c => Sys2Proof.Machine.execWriteSingleHoldingReply a r x c s
  | .writeMultiCoilsReply a r x c => Sys2Proof.Machine.execWriteMultiCoilsReply a r x c s
  | .writeMultiHoldingReply a r x c => Sys2Proof.Machine.execWriteMultiHoldingReply a r x c s
  | .readCoilsException a code c => Sys2Proof.Machine.execReadCoilsException a code c s
  | .readDiscreteException a code c => Sys2Proof.Machine.execReadDiscreteException a code c s
  | .readHoldingException a code c => Sys2Proof.Machine.execReadHoldingException a code c s
  | .readInputException a code c => Sys2Proof.Machine.execReadInputException a code c s
  | .writeSingleCoilException a code c => Sys2Proof.Machine.execWriteSingleCoilException a code c s
  | .writeSingleHoldingException a code c => Sys2Proof.Machine.execWriteSingleHoldingException a code c s
  | .writeMultiCoilsException a code c => Sys2Proof.Machine.execWriteMultiCoilsException a code c s
  | .writeMultiHoldingException a code c => Sys2Proof.Machine.execWriteMultiHoldingException a code c s
  | .setTimeout t => Sys2Proof.Machine.execSetTimeout t s
  | .crcInit => Sys2Proof.Machine.execCrcInit s
  | .crcByte b => Sys2Proof.Machine.execCrcByte b s
  | .crc16 bs => Sys2Proof.Machine.execCrc16 bs s
  | .build a f p => Sys2Proof.Machine.execBuild a f p s
  | .receive ea ef ev T => Sys2Proof.Machine.execReceive ea ef ev T s

end Sys2Proof.Machine
end

