-- ==== Sys2Proof/Machine/Step.lean ====
section
/-! DEFINITION. One step of the machine: one move of one agent (R10; notes/assumptions/3.md). -/

namespace Sys2Proof.Machine

/-- Performs a move, the host's lines driven: the instruction it carries, or what the move is. -/
def stepMove (m : Move) (s : State) : StepResult :=
  match fetchInstr m s with
  | some i => exec i (drivePort m s)
  | none => otherMove m (drivePort m s)

/-- One step: the next move of the agenda, or a free move. -/
def step (s : State) : Host.Outcome State Fault Refusal := stepMove (takeMove s).1 (takeMove s).2

/-- `s` with an opcode-table word placed so that the very next step runs it. -/
def State.withFetchWord (s : State) (nbits w : Nat) : State := placeTableWord nbits w s

end Sys2Proof.Machine
end

