-- ==== Sys2Proof/Safety.lean ====
section
/-! DEFINITION. What counts as a sound state and a safe step, in the terms the statements use: when the host may move
(R159, R160), when a transaction is in flight (R50), the invariant of the machine (R17, R18, R22, R23, R131), and the
states from which a reply is received. -/

namespace Sys2Proof.Safety

open Machine

/-- The host has a move: `phase` is IDLE or DONE (R159, R160). -/
def HostMayMove (s : State) : Prop := s.phase = .idle ∨ s.phase = .done

/-- A command is accepted (R160): the host may move and `TIMEOUT` has been written since reset. -/
def Accepting (s : State) : Prop := HostMayMove s ∧ s.timeoutSet = true

/-- A transaction is in flight. -/
def InFlight (s : State) : Prop := ¬ HostMayMove s

/-- The address test has been passed and the result is not delivered yet. -/
def PastAddressTest (s : State) : Prop :=
  s.phase = .flush ∨ s.phase = .transmit ∨ s.phase = .pause ∨ s.phase = .receive

/-- A valid slave address for the class of a command (R142, R143): 1 to 247 for a read, 0 to 247 for a write. -/
def ValidAddress (f : FnCode) (dev : Byte) : Prop :=
  dev.toNat ≤ 247 ∧ (isRead f = true → dev ≠ 0)

/-- The receiver waits in a state that R17 and R131 allow: a header index 0 to 3, or a body with
`1 <= rx.rem <= rx.total - 4` and `5 <= rx.total <= 65541`. -/
def RxLive (s : State) : Prop :=
  (s.rxSt = .awaitHeaderByte ∧ s.rxIdx.toNat ≤ 3) ∨
  (s.rxSt = .awaitBody ∧ 1 ≤ s.rxRem.toNat ∧ s.rxRem.toNat + 4 ≤ s.rxTotal.toNat ∧
    5 ≤ s.rxTotal.toNat ∧ s.rxTotal.toNat ≤ 65541)

/-- The invariant of the machine. -/
structure Sound (s : State) : Prop where
  /-- The frame buffer is in its canonical form. -/
  bufWf : Memory.wf s.buf = true
  /-- Every index of the buffer exists (R18, R41, R131). -/
  bufRange : ∀ c ∈ s.buf, c.1 < 65541
  /-- `res.valid` is 1 exactly while `phase = DONE` (R23). -/
  validIff : s.resValid = true ↔ s.phase = .done
  /-- No transaction runs before `TIMEOUT` was written (R160). -/
  timeoutWritten : InFlight s → s.timeoutSet = true
  /-- `cmd.data` holds what the port carries (R11). -/
  dataFits : s.cmdData.length ≤ 255
  /-- So do the host's lines of the port (R11, R162). -/
  linesFit : s.portData.length ≤ 255
  /-- The operation in flight is one of the eight (R11, R62), and a multiple register write is of at most 127 registers
  (R157, R162). -/
  command : InFlight s → ∃ f, fnOfByte s.cmdOp = some f ∧
    (f = .writeMultiHolding → s.cmdArg.toNat ≤ 127)
  /-- No invalid address gets past the address test (R142, R143). -/
  address : PastAddressTest s → ∃ f, fnOfByte s.cmdOp = some f ∧ ValidAddress f s.cmdDev
  /-- The pause's timestamp is no later than the clock (R200). -/
  pauseClock : s.phase = .pause → s.tTx ≤ s.clock
  /-- The receiver's timestamp is no later than the clock (R200). -/
  progressClock : s.phase = .receive → s.rxLast ≤ s.clock
  /-- The receiver's inputs are those of the command in flight (R147). -/
  inputs : s.phase = .receive → s.expAddr = s.cmdDev ∧ s.expFn = s.cmdOp ∧ s.rxT = s.timeout ∧
    ∃ f, fnOfByte s.cmdOp = some f ∧ s.expVal = expectOf f s
  /-- The receiver waits while the phase is RECEIVE (R17, R128). -/
  receiver : s.phase = .receive → RxLive s

/-- A step that does not fault. -/
def NoFault (s : State) : Prop := ∀ r, step s ≠ .fault r

/-- `n` steps, stopping at the first fault or refusal. -/
def steps : Nat → State → StepResult
  | 0, s => .next s
  | n + 1, s => andThen (step s) (steps n)

/-- What may happen on a silent line: a poll of the engine, or the clock advancing. -/
def quietMove (w : Option Nat) : Move :=
  match w with
  | none => .engine
  | some n => .tick n

/-- The receiver is about to take the first byte of a reply: it has just been started, or has resynchronised, and no
byte is waiting before the reply. -/
structure ReadyFor (a f : Byte) (s : State) : Prop where
  phase : s.phase = .receive
  st : s.rxSt = .awaitHeaderByte
  idx : s.rxIdx = 0
  addr : s.expAddr = a
  fn : s.expFn = f
  clear : s.inbound = []

/-- The bytes before the trailer of a reply that a receiver takes whole which awaits function `f` from address `a` with
expected value `ev`, and the status the reply gives: a normal read reply (R68, R69, R122), an echo of the register
address (R70, R121) or an exception (R71, R120, R125). -/
def AwaitedReply (a f : Byte) (ev : Val17) (covered : List Byte) (status : Byte) : Prop :=
  (f ∈ ([0x01, 0x02, 0x03, 0x04] : List Byte) ∧ status = 0 ∧ ∃ (fmt : LenFmt) (body : List Byte),
    (fmt = .len1 ↔ ev.toNat < 256) ∧ bodyFits fmt body = true ∧
      covered = a :: f :: lengthField fmt body.length ++ body) ∨
  (f ∈ ([0x05, 0x06, 0x0F, 0x10] : List Byte) ∧ status = 0 ∧
    ∃ x : Word, covered = a :: f :: be16 (ev.setWidth 16) ++ be16 x) ∨
  (f ∈ ([0x01, 0x02, 0x03, 0x04, 0x05, 0x06, 0x0F, 0x10] : List Byte) ∧ covered = [a, f ||| 0x80, status])

/-- A frame arriving byte by byte: before each byte any polls and clock advances, after it one poll (R114, R202). -/
def pacedArrival : List (List (Option Nat)) → List Byte → List Move
  | w :: ws, b :: bs => w.map quietMove ++ .byte b :: .engine :: pacedArrival ws bs
  | _, _ => []

/-- The receiver is waiting for a byte in the receive phase (R114). -/
def Polling (s : State) : Prop := s.phase = .receive ∧ (s.rxSt = .awaitHeaderByte ∨ s.rxSt = .awaitBody)

/-- The number of bytes of the current candidate frame held in `buf` (R17). -/
def bytesHeld (s : State) : Nat :=
  if s.rxSt = .awaitBody then s.rxTotal.toNat - s.rxRem.toNat else s.rxIdx.toNat

/-- Every register and transport queue but those a `Receive` in progress writes: what receiving a frame leaves alone
(R114 to R127, R187). -/
structure SameOutsideReceiver (s t : State) : Prop where
  cmdOp : t.cmdOp = s.cmdOp
  cmdDev : t.cmdDev = s.cmdDev
  cmdReg : t.cmdReg = s.cmdReg
  cmdArg : t.cmdArg = s.cmdArg
  cmdData : t.cmdData = s.cmdData
  portArg : t.portArg = s.portArg
  portData : t.portData = s.portData
  expAddr : t.expAddr = s.expAddr
  expFn : t.expFn = s.expFn
  expVal : t.expVal = s.expVal
  rxT : t.rxT = s.rxT
  txframe : t.txframe = s.txframe
  tTx : t.tTx = s.tTx
  timeout : t.timeout = s.timeout
  timeoutSet : t.timeoutSet = s.timeoutSet
  outbound : t.outbound = s.outbound
  clock : t.clock = s.clock
  retWord : t.retWord = s.retWord
  retBytes : t.retBytes = s.retBytes
  agenda : t.agenda = s.agenda
  draws : t.draws = s.draws

/-- A result has been delivered: `DONE` with this status and frame (R187). -/
structure Delivered (status : Byte) (frame : List Byte) (t : State) : Prop where
  phase : t.phase = .done
  valid : t.resValid = true
  status : t.resStatus = status
  frame : t.resFrame = frame

/-- What acceptance leaves (R160): the operands latched, no valid result, the sequence at its first phase. -/
def accepted (f : FnCode) (a : Byte) (r arg : Word) (data : List Byte) (s : State) : State :=
  { s with
    cmdOp := fnByte f, cmdDev := a, cmdReg := r, cmdArg := arg, cmdData := data
    resValid := false, phase := .validate }

/-- A command waiting out its pause: accepted, the inbound buffer flushed (R144), the request frame of payload `p`
handed to the transport and the clock sampled (R145). -/
def transmitted (f : FnCode) (a : Byte) (r arg : Word) (data p : List Byte) (s : State) : State :=
  { s with
    cmdOp := fnByte f, cmdDev := a, cmdReg := r, cmdArg := arg, cmdData := data
    resValid := false, phase := .pause
    inbound := []
    crc := crcRaw (a :: fnByte f :: p)
    txframe := buildFrame a (fnByte f) p
    outbound := s.outbound ++ buildFrame a (fnByte f) p
    tTx := s.clock }

/-- A command ended by its address test (R142, R143, R187): the operands latched, `AddressError` delivered, nothing
else touched. -/
def addressRejected (f : FnCode) (a : Byte) (r arg : Word) (data : List Byte) (s : State) : State :=
  { s with
    cmdOp := fnByte f, cmdDev := a, cmdReg := r, cmdArg := arg, cmdData := data
    phase := .done, resValid := true, resStatus := 11, resFrame := [] }

/-- A frame has been received into the buffer: its bytes stand from index 0, every byte beyond it reads as before, no
byte is left unread, the progress time is the clock's, and everything outside the receiver is unchanged. -/
structure ReceivedFrame (frame : List Byte) (s t : State) : Prop where
  same : SameOutsideReceiver s t
  held : ∀ i, i < frame.length → Memory.read t.buf i = frame.getD i 0
  beyond : ∀ i, frame.length ≤ i → Memory.read t.buf i = Memory.read s.buf i
  unread : t.inbound = []
  progress : t.rxLast = s.clock

/-- A local status (R181, R217): no frame, and one of CrcError, ReceiveTimeout, AddressError. -/
def LocalResult (status : Byte) (frame : List Byte) : Prop :=
  frame = [] ∧ (status = 8 ∨ status = 9 ∨ status = 11)

/-- A status that comes with a frame (R125, R217): the frame is at least five bytes with a right trailer, and the
status is its exception code if its exception flag is set, else 0. -/
def FrameResult (status : Byte) (frame : List Byte) : Prop :=
  5 ≤ frame.length ∧ frame.drop (frame.length - 2) = be16 (crc16 (frame.take (frame.length - 2))) ∧
    status = if (frame.getD 1 0).getLsbD 7 then frame.getD 2 0 else 0

end Sys2Proof.Safety
end

