-- ==== Sys2Proof/Certificates/Slice0/Obligations.lean ====
section
/-! DEFINITION. The statements for the provers, from the rules of spec/. Each docstring says what it formalises and
what in it is the model's choice. -/

open Sys2Proof Sys2Proof.Machine Sys2Proof.Safety

/-- `CRC_INIT` (R91), with its frame: every other register and the buffer are unchanged. -/
def Obligations.CrcInitWritesAllOnes : Prop :=
  ∀ s : State, exec .crcInit s = .next { s with crc := 0xFFFF }

/-- `CRC_BYTE` (R92), with its frame. The test reads bit 0 before the shift of the same iteration. -/
def Obligations.CrcByteShiftsEightTimes : Prop :=
  ∀ (b : Byte) (s : State),
    exec (.crcByte b) s = .next
      { s with
        crc := (fun r : Word => if r.getLsbD 0 then (r >>> 1) ^^^ 0xA001#16 else r >>> 1)^[8]
          (s.crc ^^^ b.setWidth 16) }

/-- `Crc16` (R93) as its pseudocode, over the instructions `CRC_INIT` and `CRC_BYTE`. That the returned value stands in
`retWord` is the model's choice (notes/assumptions/9.md). -/
def Obligations.Crc16IsItsLoop : Prop :=
  ∀ (bs : List Byte) (s : State), ∃ t : State,
    bs.foldl (fun o b => andThen o (exec (.crcByte b))) (exec .crcInit s) = .next t ∧
      t.crc = crcRaw bs ∧
      exec (.crc16 bs) s = .next { t with retWord := t.crc.extractLsb' 0 8 ++ t.crc.extractLsb' 8 8 }

/-- The two consequences of R97: the trailer's byte order on the wire and the residue. -/
def Obligations.CrcTrailerAndResidue : Prop :=
  ∀ bs : List Byte,
    crc16 bs = swap16 (crcRaw bs) ∧ be16 (crc16 bs) = [lo8 (crcRaw bs), hi8 (crcRaw bs)] ∧
      crcRaw (bs ++ be16 (crc16 bs)) = 0

/-- `Build` (R100, R101), with its frame. That the returned frame stands in `retBytes` is the model's choice
(notes/assumptions/9.md). -/
def Obligations.BuildReturnsFrame : Prop :=
  ∀ (a f : Byte) (p : List Byte) (s : State), ∃ c : Word,
    exec (.build a f p) s = .next
      { s with
        crc := c
        retBytes := [a, f] ++ p ++ [hi8 (crc16 ([a, f] ++ p)), lo8 (crc16 ([a, f] ++ p))] }

/-- Decoding is right on the spec's own frames, one at least of each format (R65, R66, R68 to R71); the frame of RP-READ2 is V69
of 95_test_vectors.md. That the decoder of replies is told the width of the length field is the model's choice
(notes/assumptions/20.md). -/
def Obligations.SpecFramesDecode : Prop :=
  decodeRequest [0x11, 0x03, 0x00, 0x6B, 0x00, 0x03, 0x76, 0x87] = .ok (.readHolding 0x11 0x006B 3, []) ∧
    decodeRequest [0x01, 0x05, 0x00, 0xAC, 0xFF, 0x00, 0x4C, 0x1B] = .ok (.writeSingleCoil 0x01 0x00AC true, []) ∧
    decodeRequest [0x01, 0x0F, 0x00, 0x13, 0x00, 0x0A, 0x02, 0xCD, 0x01, 0x72, 0xCB] =
      .ok (.writeMultiCoils 0x01 0x0013 10 [0xCD, 0x01], []) ∧
    decodeReply .len1 [0x01, 0x03, 0x02, 0x12, 0x34, 0xB5, 0x33] =
      .ok (.readHoldingReply .len1 0x01 [0x12, 0x34] 0xB533, []) ∧
    decodeReply .len2 ([0x01, 0x03, 0x01, 0x00] ++ (List.range 256).map (BitVec.ofNat 8) ++ [0x28, 0xE8]) =
      .ok (.readHoldingReply .len2 0x01 ((List.range 256).map (BitVec.ofNat 8)) 0x28E8, []) ∧
    decodeReply .len1 [0x01, 0x10, 0x00, 0x01, 0x00, 0x02, 0x10, 0x08] =
      .ok (.writeMultiHoldingReply 0x01 0x0001 2 0x1008, []) ∧
    decodeReply .len1 [0x01, 0x83, 0x02, 0xC0, 0xF1] = .ok (.readHoldingException 0x01 0x02 0xC0F1, [])

/-- Decode and encode agree on requests: no operand bit is dropped. -/
def Obligations.RequestDecodeEncode : Prop :=
  ∀ (i : Instr) (frame rest : List Byte), WellFormed i = true → (portOf i).isSome = true → encode i = some frame →
    decodeRequest (frame ++ rest) = .ok (canonical i, rest)

/-- Decode and encode agree on replies: no operand bit is dropped. That the trailer is an operand, any value of which decodes,
and that the decoder is told the width of the length field are the model's choices (notes/assumptions/20.md); the
formats are those of R68 to R71. -/
def Obligations.ReplyDecodeEncode : Prop :=
  ∀ (fmt fmt' : LenFmt) (a code : Byte) (body rest : List Byte) (r x c : Word), bodyFits fmt body = true →
    (∀ i ∈ [Instr.readCoilsReply fmt a body c, .readDiscreteReply fmt a body c, .readHoldingReply fmt a body c,
        .readInputReply fmt a body c],
      ∃ frame, encode i = some frame ∧ decodeReply fmt (frame ++ rest) = .ok (i, rest)) ∧
    (∀ i ∈ [Instr.writeSingleCoilReply a r x c, .writeSingleHoldingReply a r x c, .writeMultiCoilsReply a r x c,
        .writeMultiHoldingReply a r x c, .readCoilsException a code c, .readDiscreteException a code c,
        .readHoldingException a code c, .readInputException a code c, .writeSingleCoilException a code c,
        .writeSingleHoldingException a code c, .writeMultiCoilsException a code c,
        .writeMultiHoldingException a code c],
      ∃ frame, encode i = some frame ∧ decodeReply fmt' (frame ++ rest) = .ok (i, rest))

/-- The other direction. That a wrong trailer, a count other than 1 for a coil read, a third coil value and a byte length
that is not twice the count of registers are never decoded is the model's choice (notes/assumptions/20.md). -/
def Obligations.RequestDecodeIsExact : Prop :=
  ∀ (bs rest : List Byte) (i : Instr), decodeRequest bs = .ok (i, rest) →
    WellFormed i = true ∧ (portOf i).isSome = true ∧ ∃ frame, encode i = some frame ∧ bs = frame ++ rest

/-- The other direction for replies. -/
def Obligations.ReplyDecodeIsExact : Prop :=
  ∀ (fmt : LenFmt) (bs rest : List Byte) (i : Instr), decodeReply fmt bs = .ok (i, rest) →
    WellFormed i = true ∧ portOf i = none ∧ ∃ frame, encode i = some frame ∧ bs = frame ++ rest

/-- The command port's encoding (R11) loses no operand. -/
def Obligations.PortDecodeEncode : Prop :=
  ∀ (i : Instr) (c : PortCmd), WellFormed i = true → portOf i = some c → decodePort c = .ok (canonical i)

/-- A command outside the function codes: the port does not accept it and a model refuses it (R77, U1). -/
def Obligations.ReservedOperationRefused : Prop :=
  ∀ (s : State) (c : PortCmd) (rest : List Move),
    c.op ∉ ([0x01, 0x02, 0x03, 0x04, 0x05, 0x06, 0x0F, 0x10] : List Byte) →
    s.agenda = .command c :: rest ∨ s.agenda = .issue c :: rest → step s = .refused .unknownCommand

/-- The read commands, with their frame. That the three phases VALIDATE, FLUSH and TRANSMIT run in one step is the
model's choice (notes/assumptions/6.md), as are the lines a register of an operand the command
does not have is latched from (notes/assumptions/10.md) and what
the CRC register is left at (notes/assumptions/17.md). -/
def Obligations.ReadCommandsTransmit : Prop :=
  ∀ (a : Byte) (r n : Word) (s : State), Accepting s → 1 ≤ a.toNat → a.toNat ≤ 247 →
    exec (.readCoils a r) s =
        .next (transmitted .readCoils a r s.portArg s.portData (be16 r ++ [0x00, 0x01]) s) ∧
    exec (.readDiscrete a r) s =
        .next (transmitted .readDiscrete a r s.portArg s.portData (be16 r ++ [0x00, 0x01]) s) ∧
    exec (.readHolding a r n) s = .next (transmitted .readHolding a r n s.portData (be16 r ++ be16 n) s) ∧
    exec (.readInput a r n) s = .next (transmitted .readInput a r n s.portData (be16 r ++ be16 n) s) ∧
    exec (.readHoldingOne a r) s = .next (transmitted .readHolding a r 1 s.portData (be16 r ++ [0x00, 0x01]) s) ∧
    exec (.readInputOne a r) s = .next (transmitted .readInput a r 1 s.portData (be16 r ++ [0x00, 0x01]) s)

/-- The write commands, with their frame. That the three phases VALIDATE, FLUSH and TRANSMIT run in one step is the
model's choice (notes/assumptions/6.md), as are the lines a register of an operand the command
does not have is latched from (notes/assumptions/10.md) and what
the CRC register is left at (notes/assumptions/17.md). -/
def Obligations.WriteCommandsTransmit : Prop :=
  ∀ (a : Byte) (r v count : Word) (on : Bool) (data : List Byte) (values : List Word) (s : State),
    Accepting s → a.toNat ≤ 247 → data.length ≤ 255 → values.length ≤ 127 →
    exec (.writeSingleCoil a r on) s =
        .next (transmitted .writeSingleCoil a r (coilArg s.portArg on) s.portData
          (be16 r ++ if on then [0xFF, 0x00] else [0x00, 0x00]) s) ∧
    exec (.writeSingleHolding a r v) s =
        .next (transmitted .writeSingleHolding a r v s.portData (be16 r ++ be16 v) s) ∧
    exec (.writeMultiCoils a r count data) s =
        .next (transmitted .writeMultiCoils a r count data
          (be16 r ++ be16 count ++ [BitVec.ofNat 8 data.length] ++ data) s) ∧
    exec (.writeMultiHolding a r values) s =
        .next (transmitted .writeMultiHolding a r (BitVec.ofNat 16 values.length) (values.flatMap be16)
          (be16 r ++ be16 (BitVec.ofNat 16 values.length) ++ [BitVec.ofNat 8 (2 * values.length)] ++
            values.flatMap be16) s)

/-- The address tests at the level of the commands. That acceptance and the test run in one step is the model's choice
(notes/assumptions/6.md), as are the lines a register of an operand the command
does not have is latched from (notes/assumptions/10.md). -/
def Obligations.InvalidAddressEndsCommand : Prop :=
  ∀ (a : Byte) (r v count : Word) (on : Bool) (data : List Byte) (values : List Word) (s : State),
    Accepting s → data.length ≤ 255 → values.length ≤ 127 →
    (a = 0 ∨ 247 < a.toNat →
      exec (.readCoils a r) s = .next (addressRejected .readCoils a r s.portArg s.portData s) ∧
      exec (.readDiscrete a r) s = .next (addressRejected .readDiscrete a r s.portArg s.portData s) ∧
      exec (.readHolding a r v) s = .next (addressRejected .readHolding a r v s.portData s) ∧
      exec (.readInput a r v) s = .next (addressRejected .readInput a r v s.portData s) ∧
      exec (.readHoldingOne a r) s = .next (addressRejected .readHolding a r 1 s.portData s) ∧
      exec (.readInputOne a r) s = .next (addressRejected .readInput a r 1 s.portData s)) ∧
    (247 < a.toNat →
      exec (.writeSingleCoil a r on) s =
        .next (addressRejected .writeSingleCoil a r (coilArg s.portArg on) s.portData s) ∧
      exec (.writeSingleHolding a r v) s = .next (addressRejected .writeSingleHolding a r v s.portData s) ∧
      exec (.writeMultiCoils a r count data) s = .next (addressRejected .writeMultiCoils a r count data s) ∧
      exec (.writeMultiHolding a r values) s =
        .next (addressRejected .writeMultiHolding a r (BitVec.ofNat 16 values.length) (values.flatMap be16) s))

/-- The address tests of R142 and R143, with their frame: no flush, no transmission, the inbound buffer keeps what it held. -/
def Obligations.AddressTestDecides : Prop :=
  ∀ s : State, s.phase = .validate →
    (s.cmdOp ∈ ([0x01, 0x02, 0x03, 0x04] : List Byte) →
      (1 ≤ s.cmdDev.toNat ∧ s.cmdDev.toNat ≤ 247 → engineStep s = .next { s with phase := .flush }) ∧
      (s.cmdDev = 0 ∨ 247 < s.cmdDev.toNat →
        engineStep s = .next { s with phase := .done, resStatus := 11, resFrame := [], resValid := true })) ∧
    (s.cmdOp ∈ ([0x05, 0x06, 0x0F, 0x10] : List Byte) →
      (s.cmdDev.toNat ≤ 247 → engineStep s = .next { s with phase := .flush }) ∧
      (247 < s.cmdDev.toNat →
        engineStep s = .next { s with phase := .done, resStatus := 11, resFrame := [], resValid := true }))

/-- The host has no move while a transaction is in flight (R159, R160). That the model answers a refusal is its choice
(notes/assumptions/11.md). -/
def Obligations.CommandsRefusedInFlight : Prop :=
  ∀ (a : Byte) (r v count : Word) (on : Bool) (data : List Byte) (values : List Word) (t : Nat) (s : State),
    InFlight s → data.length ≤ 255 → values.length ≤ 127 →
    ∀ i ∈ [Instr.readCoils a r, .readDiscrete a r, .readHolding a r v, .readInput a r v, .readHoldingOne a r,
        .readInputOne a r, .writeSingleCoil a r on, .writeSingleHolding a r v, .writeMultiCoils a r count data,
        .writeMultiHolding a r values, .setTimeout t],
      exec i s = .refused .portBusy

/-- A command before `TIMEOUT` was written is not accepted and a model refuses it (R160, R212). The bit that remembers
the write is the model's (notes/assumptions/12.md). -/
def Obligations.CommandsNeedTimeout : Prop :=
  ∀ (a : Byte) (r v count : Word) (on : Bool) (data : List Byte) (values : List Word) (t : Nat) (s : State),
    HostMayMove s → data.length ≤ 255 → values.length ≤ 127 →
    (∃ u, exec (.setTimeout t) s = .next u ∧ Accepting u) ∧
    (s.timeoutSet = false →
      ∀ i ∈ [Instr.readCoils a r, .readDiscrete a r, .readHolding a r v, .readInput a r v, .readHoldingOne a r,
          .readInputOne a r, .writeSingleCoil a r on, .writeSingleHolding a r v, .writeMultiCoils a r count data,
          .writeMultiHolding a r values],
        exec i s = .refused .timeoutUnset)

/-- A command outside the limits of R162 cannot be expressed on the port and a model refuses it (U2). The count of a
multiple register write is the number of its values (R157). -/
def Obligations.OperandLimitsRefused : Prop :=
  ∀ (a : Byte) (r count : Word) (data : List Byte) (values : List Word) (c : PortCmd) (rest : List Move) (s : State),
    (255 < data.length → exec (.writeMultiCoils a r count data) s = .refused .operandLimits) ∧
    (127 < values.length → exec (.writeMultiHolding a r values) s = .refused .operandLimits) ∧
    (s.agenda = .command c :: rest ∨ s.agenda = .issue c :: rest →
      c.op ∈ ([0x01, 0x02, 0x03, 0x04, 0x05, 0x06, 0x0F, 0x10] : List Byte) →
      255 < c.data.length ∨ (c.op = 0x10 ∧ 127 < c.arg.toNat) →
      step s = .refused .operandLimits)

/-- Acceptance (R160, R11). The refusal of a command in flight is the model's choice (notes/assumptions/11.md), the bit in
`Accepting` that remembers the write of `TIMEOUT` its inference (notes/assumptions/12.md), the host's lines and the move
`issue` its own state (notes/assumptions/10.md, 6.md). -/
def Obligations.AcceptanceRule : Prop :=
  ∀ (s : State) (c : PortCmd) (rest : List Move),
    s.agenda = .issue c :: rest →
    c.op ∈ ([0x01, 0x02, 0x03, 0x04, 0x05, 0x06, 0x0F, 0x10] : List Byte) →
    c.data.length ≤ 255 →
    (c.op = 0x10 → c.arg.toNat ≤ 127) →
    (Accepting s →
      step s = .next
        { s with
          agenda := rest, portArg := c.arg, portData := c.data
          cmdOp := c.op, cmdDev := c.dev, cmdReg := c.reg, cmdArg := c.arg, cmdData := c.data
          resValid := false, phase := .validate }) ∧
    (¬ Accepting s → ∃ r, step s = .refused r)

/-- `SetTimeout` (R159), with its frame. The answer while a transaction is in flight is the model's choice
(notes/assumptions/11.md), the bit that remembers the write its inference (notes/assumptions/12.md). -/
def Obligations.SetTimeoutWrites : Prop :=
  ∀ (t : Nat) (s : State),
    (HostMayMove s → exec (.setTimeout t) s = .next { s with timeout := t, timeoutSet := true }) ∧
    (InFlight s → exec (.setTimeout t) s = .refused .portBusy)

/-- The flush (R144), with its frame. -/
def Obligations.FlushEmptiesInbound : Prop :=
  ∀ s : State, s.phase = .flush → engineStep s = .next { s with inbound := [], phase := .transmit }

/-- The transmission (R145), with its frame; the payloads are said by ReadCommandsTransmit,
WriteCommandsTransmit and UnevenMultiWriteTransmits. That `TxWrite` and the sample of `t_tx` are one step at one reading of the clock is the model's inference
(notes/assumptions/5.md, 18.md), what the CRC register is left at its own (notes/assumptions/17.md). -/
def Obligations.TransmitHandsOverFrame : Prop :=
  ∀ (f : FnCode) (s : State), s.phase = .transmit → fnOfByte s.cmdOp = some f →
    ∃ c : Word, engineStep s = .next
      { s with
        crc := c
        txframe := buildFrame s.cmdDev s.cmdOp (payloadOf f s)
        outbound := s.outbound ++ buildFrame s.cmdDev s.cmdOp (payloadOf f s)
        tTx := s.clock
        phase := .pause }

/-- The pause (R146), the receiver's inputs (R147, R150 to R157) and its start (R113). That the sample ending the pause is
also the receiver's start sample is the model's inference (notes/assumptions/5.md). -/
def Obligations.PauseEndsAtTimeout : Prop :=
  ∀ s : State, s.phase = .pause →
    s.cmdOp ∈ ([0x01, 0x02, 0x03, 0x04, 0x05, 0x06, 0x0F, 0x10] : List Byte) →
    (s.clock - s.tTx < s.timeout → engineStep s = .next s) ∧
    (s.timeout ≤ s.clock - s.tTx → ∃ ev : Val17,
      engineStep s = .next
        { s with
          expAddr := s.cmdDev, expFn := s.cmdOp, expVal := ev, rxT := s.timeout
          rxIdx := 0, rxSt := .awaitHeaderByte, rxLast := s.clock
          resValid := false, phase := .receive } ∧
      (s.cmdOp ∈ ([0x01, 0x02] : List Byte) → ev = 1) ∧
      (s.cmdOp ∈ ([0x03, 0x04] : List Byte) → ev.toNat = 2 * s.cmdArg.toNat) ∧
      (s.cmdOp ∈ ([0x05, 0x06, 0x0F, 0x10] : List Byte) → ev.toNat = s.cmdReg.toNat))

/-- `Receive` (R110, R111, R113) with nothing to read. That the instruction runs the polls that find a byte ready is the
model's choice (notes/assumptions/8.md). -/
def Obligations.ReceiveStarts : Prop :=
  ∀ (ea ef : Byte) (ev : Val17) (T : Nat) (s : State),
    (ef ∈ ([0x01, 0x02, 0x03, 0x04, 0x05, 0x06, 0x0F, 0x10] : List Byte) → s.inbound = [] →
      exec (.receive ea ef ev T) s = .next
        { s with
          expAddr := ea, expFn := ef, expVal := ev, rxT := T
          rxIdx := 0, rxSt := .awaitHeaderByte, rxLast := s.clock
          resValid := false, phase := .receive }) ∧
    (ef ∉ ([0x01, 0x02, 0x03, 0x04, 0x05, 0x06, 0x0F, 0x10] : List Byte) →
      exec (.receive ea ef ev T) s = .refused .unknownCommand)

/-- `Receive` on a line that already holds bytes (R114, R131). That the instruction runs those polls in one step is the
model's choice (notes/assumptions/8.md). -/
def Obligations.ReceiveAlwaysAnswers : Prop :=
  ∀ (ea ef : Byte) (ev : Val17) (T : Nat) (s : State),
    ef ∈ ([0x01, 0x02, 0x03, 0x04, 0x05, 0x06, 0x0F, 0x10] : List Byte) →
    ∃ (t : State) (taken : List Byte),
      exec (.receive ea ef ev T) s = .next t ∧
      SameOutsideReceiver { s with expAddr := ea, expFn := ef, expVal := ev, rxT := T } t ∧
      s.inbound = taken ++ t.inbound ∧
      ((t.phase = .receive ∧ RxLive t ∧ t.inbound = [] ∧ t.resValid = false) ∨
        (t.phase = .done ∧ t.resValid = true)) ∧
      ∀ j, taken.length ≤ j → Memory.read t.buf j = Memory.read s.buf j

/-- `MemRead` and `MemWrite` (R41). The canonical form, in the premise and in the last clause, is the model's choice
(notes/assumptions/2.md). -/
def Obligations.BufferReadsBackWrites : Prop :=
  ∀ (m : Memory) (i : Nat) (bs : List Byte), Memory.wf m = true → i + bs.length ≤ 65541 →
    memRead (memWrite m i bs) i bs.length = bs ∧
    (∀ j, j < i ∨ i + bs.length ≤ j → Memory.read (memWrite m i bs) j = Memory.read m j) ∧
    (∀ n, (memRead m i n).length = n ∧ ∀ k, k < n → (memRead m i n)[k]? = some (Memory.read m (i + k))) ∧
    Memory.wf (memWrite m i bs) = true

/-- The timeout test (R115) and `TimedOut` (R126), with their frame. -/
def Obligations.IdlePollTestsTimeout : Prop :=
  ∀ s : State, Polling s → s.inbound = [] →
    (s.clock - s.rxLast ≤ s.rxT → engineStep s = .next s) ∧
    (s.rxT < s.clock - s.rxLast →
      engineStep s = .next
        { s with rxSt := .timedOut, resStatus := 9, resFrame := [], resValid := true, phase := .done })

/-- Header steps 0 to 2 (R116 to R118) inside the poll of R114, with their frame. -/
def Obligations.HeaderBytesAreSought : Prop :=
  ∀ (b : Byte) (rest : List Byte) (s : State),
    s.phase = .receive → s.rxSt = .awaitHeaderByte → s.inbound = b :: rest →
    (s.rxIdx = 0 →
      engineStep s = .next
        { s with
          inbound := rest, rxLast := s.clock, buf := Memory.write s.buf 0 b
          rxIdx := if b = s.expAddr then 1 else 0 }) ∧
    (s.rxIdx = 1 →
      engineStep s = .next
        { s with
          inbound := rest, rxLast := s.clock, buf := Memory.write s.buf 1 b
          rxIdx := if b &&& 0x7F = s.expFn then 2 else 0 }) ∧
    (s.rxIdx = 2 →
      engineStep s = .next
        { s with inbound := rest, rxLast := s.clock, buf := Memory.write s.buf 2 b, rxIdx := 3 })

/-- `DecideLength` (R119 to R122) in the step of the fourth byte, with its frame. -/
def Obligations.FourthByteDecidesLength : Prop :=
  ∀ (b : Byte) (rest : List Byte) (s : State),
    s.phase = .receive → s.rxSt = .awaitHeaderByte → s.rxIdx = 3 → s.inbound = b :: rest → Memory.wf s.buf = true →
    ∀ h : State, h = { s with inbound := rest, rxLast := s.clock, buf := Memory.write s.buf 3 b, rxIdx := 4 } →
    ((Memory.read s.buf 1).getLsbD 7 = true →
      engineStep s = .next { h with rxTotal := 5, rxRem := 1, rxSt := .awaitBody }) ∧
    ((Memory.read s.buf 1).getLsbD 7 = false → s.expFn ∈ ([0x05, 0x06, 0x0F, 0x10] : List Byte) →
      (word (Memory.read s.buf 2) b ≠ s.expVal.setWidth 16 → engineStep s = .next { h with rxIdx := 0 }) ∧
      (word (Memory.read s.buf 2) b = s.expVal.setWidth 16 →
        engineStep s = .next { h with rxTotal := 8, rxRem := 4, rxSt := .awaitBody })) ∧
    ((Memory.read s.buf 1).getLsbD 7 = false → s.expFn ∉ ([0x05, 0x06, 0x0F, 0x10] : List Byte) →
      ∃ total rem : Val17,
        engineStep s = .next { h with rxTotal := total, rxRem := rem, rxSt := .awaitBody } ∧
        rem.toNat + 4 = total.toNat ∧
        (s.expVal.toNat < 256 → total.toNat = (Memory.read s.buf 2).toNat + 5) ∧
        (256 ≤ s.expVal.toNat → total.toNat = (word (Memory.read s.buf 2) b).toNat + 6))

/-- The body step (R123) before the last byte, with its frame; the bounds are those of R17 and R131. -/
def Obligations.BodyByteStored : Prop :=
  ∀ (b : Byte) (rest : List Byte) (s : State),
    s.phase = .receive → s.rxSt = .awaitBody → s.inbound = b :: rest →
    2 ≤ s.rxRem.toNat → s.rxRem.toNat + 4 ≤ s.rxTotal.toNat → s.rxTotal.toNat ≤ 65541 →
    engineStep s = .next
      { s with
        inbound := rest, rxLast := s.clock
        buf := Memory.write s.buf (s.rxTotal.toNat - s.rxRem.toNat) b
        rxRem := s.rxRem - 1 }

/-- The last body byte, verification (R124) and the two outcomes (R125, R127), with their frame. -/
def Obligations.LastBodyByteVerifies : Prop :=
  ∀ (b : Byte) (rest frame : List Byte) (s : State),
    s.phase = .receive → s.rxSt = .awaitBody → s.inbound = b :: rest → s.rxRem = 1 →
    5 ≤ s.rxTotal.toNat → s.rxTotal.toNat ≤ 65541 → Memory.wf s.buf = true →
    frame = memRead s.buf 0 (s.rxTotal.toNat - 1) ++ [b] →
    ∃ c : Word, ∀ h : State,
      h = { s with
            inbound := rest, rxLast := s.clock, buf := Memory.write s.buf (s.rxTotal.toNat - 1) b, rxRem := 0
            crc := c, resValid := true, phase := .done } →
      (crc16 (frame.take (frame.length - 2)) =
          word (frame.getD (frame.length - 2) 0) (frame.getD (frame.length - 1) 0) →
        engineStep s = .next
          { h with
            rxSt := .complete, resFrame := frame
            resStatus := if (frame.getD 1 0).getLsbD 7 then frame.getD 2 0 else 0 }) ∧
      (crc16 (frame.take (frame.length - 2)) ≠
          word (frame.getD (frame.length - 2) 0) (frame.getD (frame.length - 1) 0) →
        engineStep s = .next { h with rxSt := .crcMismatch, resFrame := [], resStatus := 8 })

/-- Terminal states are final (R128) and the engine waits for the host in IDLE and DONE (R188, R210). That
a move of the engine there is a step that changes nothing is the model's inference (notes/assumptions/22.md). -/
def Obligations.TerminalReceiverIsFinal : Prop :=
  ∀ s : State,
    (s.phase = .receive ∨ s.phase = .done →
      s.rxSt = .complete ∨ s.rxSt = .timedOut ∨ s.rxSt = .crcMismatch → engineStep s = .next s) ∧
    (s.phase = .idle ∨ s.phase = .done → engineStep s = .next s)

/-- The rolling timeout over whole steps (R132): a ready byte is taken before the timeout is looked at. -/
def Obligations.NoTimeoutWithoutSilence : Prop :=
  ∀ s t : State, s.phase = .receive → step s = .next t → t.phase = .done → t.resStatus = 9 → t.resFrame = [] →
    s.inbound = [] ∧ s.rxT < s.clock - s.rxLast ∧
      t = { s with
            agenda := t.agenda, draws := t.draws
            rxSt := .timedOut, resStatus := 9, resFrame := [], resValid := true, phase := .done }

/-- R132 over any interleaving of polls and clock readings. The moves are the model's (notes/assumptions/3.md). -/
def Obligations.SilentReceiveTimesOut : Prop :=
  ∀ (ws : List (Option Nat)) (s : State), Polling s → s.inbound = [] → s.rxLast ≤ s.clock →
    s.agenda = ws.map quietMove ++ [.engine] →
    ∃ t : State, steps (ws.length + 1) s = .next t ∧
      (s.clock + (ws.map (·.getD 0)).sum - s.rxLast ≤ s.rxT →
        t = { s with clock := s.clock + (ws.map (·.getD 0)).sum, agenda := [] }) ∧
      (s.rxT < s.clock + (ws.map (·.getD 0)).sum - s.rxLast →
        Delivered 9 [] t ∧ t.rxSt = .timedOut ∧ t.clock = s.clock + (ws.map (·.getD 0)).sum ∧
          t.outbound = s.outbound)

/-- The normal read replies (R68, R69), every body length and both length fields, with their frame. That a reply's bytes
arrive with nothing moving between them is the model's choice (notes/assumptions/7.md). -/
def Obligations.ReadReplyCompletes : Prop :=
  ∀ (fmt : LenFmt) (a : Byte) (body : List Byte) (c : Word) (s : State),
    bodyFits fmt body = true → Memory.wf s.buf = true → (fmt = .len1 ↔ s.expVal.toNat < 256) →
    ∀ p ∈ [((0x01 : Byte), Instr.readCoilsReply fmt a body c), (0x02, .readDiscreteReply fmt a body c),
        (0x03, .readHoldingReply fmt a body c), (0x04, .readInputReply fmt a body c)],
    ∀ frame : List Byte, ReadyFor a p.1 s → encode p.2 = some frame →
      ∃ t : State, exec p.2 s = .next t ∧ ReceivedFrame frame s t ∧
        (c = crc16 (frame.take (frame.length - 2)) → Delivered 0 frame t) ∧
        (c ≠ crc16 (frame.take (frame.length - 2)) → Delivered 8 [] t)

/-- The normal write replies (R70, R121), with their frame. That a reply's bytes arrive with nothing moving between them is
the model's choice (notes/assumptions/7.md). -/
def Obligations.EchoReplyCompletes : Prop :=
  ∀ (a : Byte) (r x c : Word) (s : State), Memory.wf s.buf = true → r = s.expVal.setWidth 16 →
    ∀ p ∈ [((0x05 : Byte), Instr.writeSingleCoilReply a r x c), (0x06, .writeSingleHoldingReply a r x c),
        (0x0F, .writeMultiCoilsReply a r x c), (0x10, .writeMultiHoldingReply a r x c)],
    ∀ frame : List Byte, ReadyFor a p.1 s → encode p.2 = some frame →
      ∃ t : State, exec p.2 s = .next t ∧ ReceivedFrame frame s t ∧
        (c = crc16 (frame.take (frame.length - 2)) → Delivered 0 frame t) ∧
        (c ≠ crc16 (frame.take (frame.length - 2)) → Delivered 8 [] t)

/-- A wrong echo resynchronises (R121, R215): the remaining four bytes are scanned as candidates and cannot complete a
frame. That a reply's bytes arrive with nothing moving between them is the model's choice (notes/assumptions/7.md). -/
def Obligations.WrongEchoKeepsListening : Prop :=
  ∀ (a : Byte) (r x c : Word) (s : State), Memory.wf s.buf = true → r ≠ s.expVal.setWidth 16 →
    ∀ p ∈ [((0x05 : Byte), Instr.writeSingleCoilReply a r x c), (0x06, .writeSingleHoldingReply a r x c),
        (0x0F, .writeMultiCoilsReply a r x c), (0x10, .writeMultiHoldingReply a r x c)],
    ReadyFor a p.1 s →
      ∃ t : State, exec p.2 s = .next t ∧ SameOutsideReceiver s t ∧ t.phase = .receive ∧ RxLive t ∧
        t.inbound = [] ∧ t.rxLast = s.clock ∧ t.resValid = s.resValid ∧ t.resStatus = s.resStatus ∧
        t.resFrame = s.resFrame ∧ ∀ j, 4 ≤ j → Memory.read t.buf j = Memory.read s.buf j

/-- The exception replies (R71, R120, R183), with their frame. That a reply's bytes arrive with nothing moving between them
is the model's choice (notes/assumptions/7.md). -/
def Obligations.ExceptionReplyCompletes : Prop :=
  ∀ (a code : Byte) (c : Word) (s : State), Memory.wf s.buf = true →
    ∀ p ∈ [((0x01 : Byte), Instr.readCoilsException a code c), (0x02, .readDiscreteException a code c),
        (0x03, .readHoldingException a code c), (0x04, .readInputException a code c),
        (0x05, .writeSingleCoilException a code c), (0x06, .writeSingleHoldingException a code c),
        (0x0F, .writeMultiCoilsException a code c), (0x10, .writeMultiHoldingException a code c)],
    ∀ frame : List Byte, ReadyFor a p.1 s → encode p.2 = some frame →
      ∃ t : State, exec p.2 s = .next t ∧ ReceivedFrame frame s t ∧
        (c = crc16 (frame.take (frame.length - 2)) → Delivered code frame t) ∧
        (c ≠ crc16 (frame.take (frame.length - 2)) → Delivered 8 [] t)

/-- Replies outside the receive phase, with their frame: the engine reads nothing, the bytes pile up.
That a reply arrives whole in one step is the model's choice (notes/assumptions/7.md). -/
def Obligations.RepliesWaitOutsideReceive : Prop :=
  ∀ (i : Instr) (frame : List Byte) (s : State), s.phase ≠ .receive → portOf i = none → encode i = some frame →
    exec i s = .next { s with inbound := s.inbound ++ frame }

/-- Replies to a receiver in the middle of anything: a header, a body, or with bytes already waiting. That the bytes are
taken with nothing moving between them is the model's choice (notes/assumptions/7.md). -/
def Obligations.RepliesAlwaysAnswer : Prop :=
  ∀ (i : Instr) (frame : List Byte) (s : State),
    s.phase = .receive → RxLive s → portOf i = none → encode i = some frame →
    ∃ (t : State) (taken : List Byte),
      exec i s = .next t ∧ SameOutsideReceiver s t ∧ s.inbound ++ frame = taken ++ t.inbound ∧
      ((t.phase = .receive ∧ RxLive t ∧ t.inbound = [] ∧ t.resValid = s.resValid) ∨
        (t.phase = .done ∧ t.resValid = true)) ∧
      ∀ j, bytesHeld s + taken.length ≤ j → Memory.read t.buf j = Memory.read s.buf j

/-- The loopback law (R103), its bytes arriving before the rolling timeout expires. The moves are the model's
(notes/assumptions/3.md), as is a burst (notes/assumptions/7.md); BurstIsPolls says what bytes that wait unread amount to. -/
def Obligations.LoopbackOfSingleWrite : Prop :=
  ∀ (a f : Byte) (r x : Word) (frame : List Byte) (rest : List Move) (s : State), f ∈ ([0x05, 0x06] : List Byte) →
    Memory.wf s.buf = true → ReadyFor a f s → s.expVal = r.setWidth 17 → frame = buildFrame a f (be16 r ++ be16 x) →
    (s.agenda = .frame frame :: rest →
      ∃ t : State, step s = .next t ∧ t.rxSt = .complete ∧ Delivered 0 frame t ∧ t.agenda = rest) ∧
    (∀ waits : List (List (Option Nat)), waits.length = frame.length → s.rxLast = s.clock →
      (∀ w ∈ waits, (w.map (·.getD 0)).sum ≤ s.rxT) → s.agenda = pacedArrival waits frame ++ rest →
      ∃ t : State, steps (pacedArrival waits frame).length s = .next t ∧ t.rxSt = .complete ∧
        Delivered 0 frame t ∧ t.agenda = rest)

/-- The receiver's promise (R130, first consequence), for every kind of reply. That the bytes arrive with nothing moving
between them is the model's choice (notes/assumptions/7.md). -/
def Obligations.StrayByteSurvived : Prop :=
  ∀ (a f stray status : Byte) (covered : List Byte) (rest : List Move) (s : State), stray ≠ a →
    Memory.wf s.buf = true → ReadyFor a f s → AwaitedReply a f s.expVal covered status →
    s.agenda = .frame (stray :: covered ++ be16 (crc16 covered)) :: rest →
    ∃ t : State, step s = .next t ∧ Delivered status (covered ++ be16 (crc16 covered)) t

/-- How a step runs an instruction. The agenda is the model's (notes/assumptions/3.md), as are the host's lines
(notes/assumptions/10.md). -/
def Obligations.StepRunsDecodedInstruction : Prop :=
  ∀ (s : State) (m : Move) (rest : List Move) (i : Instr),
    (s.agenda = m :: rest → decodeMove (lenFmtOf s.expVal) m = some i →
      step s = exec i (drivePort m { s with agenda := rest })) ∧
    (s.agenda = [] → decodeMove (lenFmtOf s.expVal) (Config.freeMove s.draws) = some i →
      step s = exec i (drivePort (Config.freeMove s.draws) { s with draws := s.draws + 1 })) ∧
    (∀ c, m = .command c → drivePort m s = { s with portArg := c.arg, portData := c.data }) ∧
    (decodeMove (lenFmtOf s.expVal) m = some i → (∀ c, m ≠ .command c) → drivePort m s = s)

/-- The moves of the engine, the clock and the line are those of R10 and R202; that they stand on an agenda is the model's
choice (notes/assumptions/3.md). The last two clauses are the model's choice whole: that bytes may come as one burst, the
polls that take them in the same step, whether or not they are one reply frame (notes/assumptions/7.md), and the values a
reset gives the registers that R28 and R210 leave unspecified, with the lines, the agenda and the draws that go on
(notes/assumptions/15.md, which is unsafe). What the spec itself gives of a reset is said by ResetEventAbandons. -/
def Obligations.OtherMovesOfTheAgents : Prop :=
  ∀ (s : State) (rest : List Move) (n : Nat) (b : Byte) (bs : List Byte),
    (s.agenda = .engine :: rest → step s = engineStep { s with agenda := rest }) ∧
    (s.agenda = .tick n :: rest → step s = .next { s with agenda := rest, clock := s.clock + n }) ∧
    (s.agenda = .byte b :: rest → step s = .next { s with agenda := rest, inbound := s.inbound ++ [b] }) ∧
    (s.agenda = .frame bs :: rest → step s = burst bs { s with agenda := rest }) ∧
    (s.agenda = .reset :: rest → step s = .next (resetEvent { s with agenda := rest }))

/-- The coarse command move is the model's choice (notes/assumptions/6.md), and it refines nothing away: it is one
interleaving of the fine ones. -/
def Obligations.CommandIsIssueAndThreeMoves : Prop :=
  ∀ (s : State) (c : PortCmd) (rest : List Move),
    steps 1 { s with agenda := .command c :: rest } =
      steps 4 { s with agenda := .issue c :: .engine :: .engine :: .engine :: rest }

/-- The burst is the model's choice (notes/assumptions/7.md), and it refines nothing away: it is one interleaving of byte
moves and polls. -/
def Obligations.BurstIsPolls : Prop :=
  ∀ (s : State) (bs : List Byte) (rest : List Move), s.phase = .receive → RxLive s →
    steps 1 { s with agenda := .frame bs :: rest } =
      steps (bs.length + (s.inbound.length + bs.length))
        { s with
          agenda := bs.map .byte ++ List.replicate (s.inbound.length + bs.length) .engine ++ rest }

/-- A whole transaction with no answer; with address 0 it is R161: a broadcast is sent and always times out on a silent
line. The moves are the model's (notes/assumptions/3.md, 6.md). -/
def Obligations.SilentLineTimesOut : Prop :=
  ∀ (i : Instr) (c : PortCmd) (frame : List Byte) (wait silence : Nat) (rest : List Move) (s : State),
    WellFormed i = true → portOf i = some c → encode i = some frame → Accepting s →
    c.dev.toNat ≤ 247 → (c.op ∈ ([0x01, 0x02, 0x03, 0x04] : List Byte) → c.dev ≠ 0) →
    s.timeout ≤ wait → s.timeout < silence →
    s.agenda = .command c :: .tick wait :: .engine :: .tick silence :: .engine :: rest →
    ∃ t : State, steps 5 s = .next t ∧ Delivered 9 [] t ∧
      t.outbound = s.outbound ++ frame ∧ t.clock = s.clock + wait + silence ∧ t.agenda = rest

/-- A whole read transaction, pseudo-commands included. The moves are the model's (notes/assumptions/3.md, 6.md, 7.md). -/
def Obligations.ReadTransactionCompletes : Prop :=
  ∀ (i : Instr) (c : PortCmd) (request body reply : List Byte) (fmt : LenFmt) (wait : Nat) (rest : List Move)
    (s : State),
    portOf i = some c → encode i = some request → c.op ∈ ([0x01, 0x02, 0x03, 0x04] : List Byte) → Accepting s →
    Memory.wf s.buf = true → 1 ≤ c.dev.toNat → c.dev.toNat ≤ 247 →
    (fmt = .len1 ↔ c.op ∈ ([0x01, 0x02] : List Byte) ∨ 2 * c.arg.toNat < 256) → bodyFits fmt body = true →
    (∃ covered, reply = covered ++ be16 (crc16 covered) ∧
      reply = readReplyFrame fmt c.dev c.op body (crc16 covered)) →
    s.timeout ≤ wait → s.agenda = .command c :: .tick wait :: .engine :: .frame reply :: rest →
    ∃ t : State, steps 4 s = .next t ∧ Delivered 0 reply t ∧ viewData t = some body ∧
      t.outbound = s.outbound ++ request ∧ t.inbound = [] ∧ t.agenda = rest

/-- A whole write transaction. The moves are the model's (notes/assumptions/3.md, 6.md, 7.md). -/
def Obligations.WriteTransactionCompletes : Prop :=
  ∀ (i : Instr) (c : PortCmd) (request reply : List Byte) (x : Word) (wait : Nat) (rest : List Move) (s : State),
    WellFormed i = true → portOf i = some c → encode i = some request →
    c.op ∈ ([0x05, 0x06, 0x0F, 0x10] : List Byte) → Accepting s → Memory.wf s.buf = true → c.dev.toNat ≤ 247 →
    reply = buildFrame c.dev c.op (be16 c.reg ++ be16 x) →
    s.timeout ≤ wait → s.agenda = .command c :: .tick wait :: .engine :: .frame reply :: rest →
    ∃ t : State, steps 4 s = .next t ∧ Delivered 0 reply t ∧ viewStatus t = some 0 ∧
      t.outbound = s.outbound ++ request ∧ t.inbound = [] ∧ t.agenda = rest

/-- Which command is read through which view (R148, R150 to R158), where the views are defined; where they are not, nothing is
said (D27). -/
def Obligations.ViewsOfNormalReply : Prop :=
  ∀ (fmt : LenFmt) (a f : Byte) (body : List Byte) (c : Word) (s : State), s.resValid = true → s.resStatus = 0 →
    f.getLsbD 7 = false →
    (s.resFrame = readReplyFrame fmt a f body c → (fmt = .len1 ↔ s.expVal.toNat < 256) → bodyFits fmt body = true →
      ∃ ws : List Word, viewData s = some body ∧ viewValues s = some ws ∧ ws.length = body.length / 2 ∧
        (∀ k, k < body.length / 2 → ws[k]? = some (word (body.getD (2 * k) 0) (body.getD (2 * k + 1) 0))) ∧
        ∀ (d : Byte) (r n : Word),
          typedResult (.readHolding d r n) s = some (.values body ws) ∧
          typedResult (.readInput d r n) s = some (.values body ws) ∧
          (1 ≤ body.length →
            typedResult (.readCoils d r) s = some (.bit ((body.getD 0 0).getLsbD 0)) ∧
            typedResult (.readDiscrete d r) s = some (.bit ((body.getD 0 0).getLsbD 0))) ∧
          (2 ≤ body.length →
            typedResult (.readHoldingOne d r) s = some (.value (word (body.getD 0 0) (body.getD 1 0))) ∧
            typedResult (.readInputOne d r) s = some (.value (word (body.getD 0 0) (body.getD 1 0))))) ∧
    ∀ (r x d : Word) (b : Byte) (on : Bool) (data : List Byte) (values : List Word), s.resFrame = echoFrame a f r x c →
      ∀ i ∈ [Instr.writeSingleCoil b d on, .writeSingleHolding b d x, .writeMultiCoils b d x data,
          .writeMultiHolding b d values],
        typedResult i s = some (.status 0)

/-- The values R28 gives, and the bit that remembers the write of `TIMEOUT` since reset (R160), which is the model's inference
(notes/assumptions/12.md). R28 calls every other register unspecified, and nothing is said of those here. -/
def Obligations.ResetState : Prop :=
  State.reset.phase = .idle ∧ State.reset.resValid = false ∧ State.reset.timeoutSet = false

/-- The reset event (R210); the registers it leaves unspecified are not said. The bit that remembers the
write of `TIMEOUT` is the model's inference (notes/assumptions/12.md), that the agenda goes on its choice
(notes/assumptions/3.md, 15.md). -/
def Obligations.ResetEventAbandons : Prop :=
  ∀ (s : State) (rest : List Move), s.agenda = .reset :: rest →
    ∃ t : State, step s = .next t ∧ t.phase = .idle ∧ t.resValid = false ∧ t.timeoutSet = false ∧
      t.inbound = s.inbound ∧ t.outbound = s.outbound ∧ t.clock = s.clock ∧ t.agenda = rest

/-- The invariant at reset. The values of the registers that R28 leaves unspecified are the model's choice
(notes/assumptions/1.md, 2.md), the bit that remembers the write of `TIMEOUT` its inference (notes/assumptions/12.md). -/
def Obligations.ResetMeetsInvariant : Prop :=
  Sound State.reset

/-- The invariant of the machine over every move of every agent. -/
def Obligations.StepKeepsInvariant : Prop :=
  ∀ s t : State, Sound s → step s = .next t → Sound t

/-- The bounds of R131 and the engine's own step (R133). The premise is the invariant StepKeepsInvariant keeps. -/
def Obligations.SoundStatesNeverFault : Prop :=
  ∀ s : State, Sound s → NoFault s ∧ ∃ t, engineStep s = .next t

/-- The operand registers are constant until the result is delivered (R11) and `TIMEOUT` through the transaction (R22, R54). -/
def Obligations.OperandsConstantInFlight : Prop :=
  ∀ s t : State, InFlight s → step s = .next t →
    (t.cmdOp = s.cmdOp ∧ t.cmdDev = s.cmdDev ∧ t.cmdReg = s.cmdReg ∧ t.cmdArg = s.cmdArg ∧ t.cmdData = s.cmdData ∧
      t.timeout = s.timeout ∧ t.timeoutSet = s.timeoutSet) ∨
    (t.phase = .idle ∧ t.resValid = false ∧ t.timeoutSet = false)

/-- What a host can rely on to tell the codes apart (R217, R185): no step comes to `DONE` from another phase without
writing a result of one of the two kinds, and none changes it there to another. -/
def Obligations.ResultsAreLocalOrFramed : Prop :=
  ∀ s t : State, Sound s → step s = .next t → t.phase = .done →
    (s.phase = .done ∧ t.resStatus = s.resStatus ∧ t.resFrame = s.resFrame) ∨
      LocalResult t.resStatus t.resFrame ∨ FrameResult t.resStatus t.resFrame

/-- The address tests and the encoder over the whole machine (R186 (1), R102, R48). That a multiple register write whose data
do not fit its count runs, its byte length a free value, is the model's choice (notes/assumptions/23.md). -/
def Obligations.OnlyValidRequestsTransmit : Prop :=
  ∀ s t : State, Sound s → step s = .next t →
    t.outbound = s.outbound ∨
    (∃ (i : Instr) (c : PortCmd) (frame : List Byte), WellFormed i = true ∧ portOf i = some c ∧
      encode i = some frame ∧ t.outbound = s.outbound ++ frame ∧ c.dev.toNat ≤ 247 ∧
      (c.op ∈ ([0x01, 0x02, 0x03, 0x04] : List Byte) → c.dev ≠ 0)) ∨
    (∃ (dev len : Byte) (r n : Word) (data : List Byte),
      dev.toNat ≤ 247 ∧ n.toNat ≤ 127 ∧ data.length ≤ 255 ∧ data.length ≠ 2 * n.toNat ∧
      t.outbound = s.outbound ++ buildFrame dev 0x10 (be16 r ++ be16 n ++ [len] ++ data))

/-- No check is made on the data (R162), and every effect but the byte length is R157's. That the byte length, where R66 and
R157 give different values, is a free value is the model's choice (notes/assumptions/23.md), as are the one step up to the
pause (notes/assumptions/6.md), the host's lines (notes/assumptions/10.md), what the CRC register is left at
(notes/assumptions/17.md) and the refusal where no command is accepted (notes/assumptions/11.md, 12.md). -/
def Obligations.UnevenMultiWriteTransmits : Prop :=
  ∀ (s : State) (c : PortCmd) (rest : List Move),
    s.agenda = .command c :: rest → c.op = 0x10 → c.arg.toNat ≤ 127 → c.data.length ≤ 255 →
    c.data.length ≠ 2 * c.arg.toNat →
    (Accepting s → c.dev.toNat ≤ 247 → ∃ len : Byte,
      step s = .next (transmitted .writeMultiHolding c.dev c.reg c.arg c.data
        (be16 c.reg ++ be16 c.arg ++ [len] ++ c.data)
        { s with agenda := rest, portArg := c.arg, portData := c.data })) ∧
    (Accepting s → 247 < c.dev.toNat →
      step s = .next (addressRejected .writeMultiHolding c.dev c.reg c.arg c.data
        { s with agenda := rest, portArg := c.arg, portData := c.data })) ∧
    (¬ Accepting s → ∃ e, step s = .refused e)
end

