-- ==== Sys2Proof/Laws/Bits.lean ====
section
/-! SUPPORT. Laws of byte order and of the function codes. -/

namespace Sys2Proof.Machine

@[simp] theorem word_hi8_lo8 (w : Word) : word (hi8 w) (lo8 w) = w := by
  apply BitVec.eq_of_getLsbD_eq
  intro i hi
  simp only [word, hi8, lo8, BitVec.getLsbD_append, BitVec.getLsbD_extractLsb']
  by_cases h : i < 8
  · simp [h]
  · have : 8 + (i - 8) = i := by omega
    simp [h, this]; omega

@[simp] theorem hi8_word (b0 b1 : Byte) : hi8 (word b0 b1) = b0 := by
  apply BitVec.eq_of_getLsbD_eq
  intro i hi
  simp only [word, hi8, BitVec.getLsbD_append, BitVec.getLsbD_extractLsb']
  simp [hi]

@[simp] theorem lo8_word (b0 b1 : Byte) : lo8 (word b0 b1) = b1 := by
  apply BitVec.eq_of_getLsbD_eq
  intro i hi
  simp only [word, lo8, BitVec.getLsbD_append, BitVec.getLsbD_extractLsb']
  simp [hi]

@[simp] theorem swap16_swap16 (w : Word) : swap16 (swap16 w) = w := by simp [swap16]

@[simp] theorem be16_length (w : Word) : (be16 w).length = 2 := rfl

@[simp] theorem bytesOf_length (ws : List Word) : (bytesOf ws).length = 2 * ws.length := by
  induction ws with
  | nil => rfl
  | cons w ws ih => simp only [bytesOf, List.flatMap_cons, List.length_append, be16_length, List.length_cons] at *; omega

@[simp] theorem wordsOf_bytesOf (ws : List Word) : wordsOf (bytesOf ws) = ws := by
  induction ws with
  | nil => rfl
  | cons w ws ih =>
    simp only [bytesOf, List.flatMap_cons] at ih ⊢
    simp [be16, wordsOf, ih]

theorem bytesOf_wordsOf : (bs : List Byte) → bs.length % 2 = 0 → bytesOf (wordsOf bs) = bs
  | [], _ => rfl
  | [_], h => by simp at h
  | b0 :: b1 :: bs, h => by
    have ih := bytesOf_wordsOf bs (by simp at h; omega)
    simp only [bytesOf] at ih
    simp [wordsOf, bytesOf, ih, be16]

theorem wordsOf_length : (bs : List Byte) → (wordsOf bs).length = bs.length / 2
  | [] => rfl
  | [_] => by simp [wordsOf]
  | _ :: _ :: bs => by simp only [wordsOf, List.length_cons, wordsOf_length bs]; omega

@[simp] theorem fnOfByte_fnByte (f : FnCode) : fnOfByte (fnByte f) = some f := by cases f <;> rfl

/-- `fnOfByte` gives a code for its own byte only. -/
theorem fnByte_of_fnOfByte {b : Byte} {f : FnCode} (h : fnOfByte b = some f) : b = fnByte f := by
  unfold fnOfByte at h
  repeat' split at h
  all_goals first
    | (cases h; assumption)
    | exact absurd h (by simp)

/-- The eight bytes are exactly those that have a code (R62). -/
theorem fnOfByte_isSome (b : Byte) : (fnOfByte b).isSome = functionBytes.contains b := by
  revert b; decide

@[simp] theorem isWriteByte_fnByte (f : FnCode) : isWriteByte (fnByte f) = !isRead f := by cases f <;> rfl

end Sys2Proof.Machine
end

