-- ==== Sys2Proof/Laws/Crc.lean ====
section
/-! SUPPORT. The CRC unit and `Build` as operations on the state: what each returns and that only the register
changes (R94). -/

namespace Sys2Proof.Machine

/-- The loop of R93 runs `crcStep` over the bytes. -/
theorem crcLoop_eq (bs : List Byte) (s : State) : crcLoop bs s = { s with crc := bs.foldl crcStep s.crc } := by
  induction bs generalizing s with
  | nil => rfl
  | cons b bs ih => simp [crcLoop, ih, crcByteOp]

theorem crc16Op_eq (bs : List Byte) (s : State) : crc16Op bs s = (crc16 bs, { s with crc := crcRaw bs }) := by
  simp [crc16Op, crcLoop_eq, crcInitOp, crc16, crcRaw]

theorem buildOp_eq (a f : Byte) (p : List Byte) (s : State) :
    buildOp a f p s = (buildFrame a f p, { s with crc := crcRaw (a :: f :: p) }) := by
  simp [buildOp, crc16Op_eq, buildFrame, be16]

@[simp] theorem buildFrame_length (a f : Byte) (p : List Byte) : (buildFrame a f p).length = p.length + 4 := by
  simp [buildFrame, be16]

end Sys2Proof.Machine
end

