-- ==== Sys2Proof/Laws/Memory.lean ====
section
/-! SUPPORT. Laws of the frame buffer: a read after a write, the canonical form, and that equal contents are equal
data. -/

namespace Sys2Proof.Machine

@[simp] theorem Memory.read_nil (i : Nat) : Memory.read [] i = 0 := rfl

theorem Memory.read_cons (k : Nat) (v : Byte) (m : Memory) (i : Nat) :
    Memory.read ((k, v) :: m) i = if k = i then v else Memory.read m i := rfl

theorem Memory.wfFrom_cons (lo k : Nat) (v : Byte) (m : Memory) :
    Memory.wfFrom lo ((k, v) :: m) = true ↔ lo ≤ k ∧ v ≠ 0 ∧ Memory.wfFrom (k + 1) m = true := by
  simp [Memory.wfFrom, bufDefault, and_assoc]

theorem Memory.wfFrom_mono {lo lo' : Nat} (h : lo' ≤ lo) : {m : Memory} →
    Memory.wfFrom lo m = true → Memory.wfFrom lo' m = true
  | [], _ => rfl
  | (k, v) :: m, hw => by
    rw [Memory.wfFrom_cons] at hw ⊢
    exact ⟨h.trans hw.1, hw.2⟩

/-- Below its first index a canonical memory lists nothing. -/
theorem Memory.read_below {lo i : Nat} (h : i < lo) : {m : Memory} →
    Memory.wfFrom lo m = true → Memory.read m i = 0
  | [], _ => rfl
  | (k, v) :: m, hw => by
    rw [Memory.wfFrom_cons] at hw
    rw [Memory.read_cons, if_neg (by omega)]
    exact Memory.read_below (lo := k + 1) (by omega) hw.2.2

theorem Memory.read_write_other {i j : Nat} (h : j ≠ i) (b : Byte) : (m : Memory) →
    Memory.read (Memory.write m i b) j = Memory.read m j
  | [] => by
    unfold Memory.write
    split <;> simp [Memory.read_cons, Ne.symm h]
  | (k, v) :: m => by
    have ih := Memory.read_write_other h b m
    unfold Memory.write
    split
    · split <;> simp [Memory.read_cons, Ne.symm h]
    · split
      · next hk => subst hk; split <;> simp [Memory.read_cons, Ne.symm h]
      · simp [Memory.read_cons, ih]

/-- A read gives the byte last written (R41), in a memory in canonical form. -/
theorem Memory.read_write_same {i : Nat} (b : Byte) : {m : Memory} → {lo : Nat} → Memory.wfFrom lo m = true →
    Memory.read (Memory.write m i b) i = b
  | [], _, _ => by
    unfold Memory.write
    split
    · next h => simpa [bufDefault] using h.symm
    · simp [Memory.read_cons]
  | (k, v) :: m, lo, hw => by
    have hw' := (Memory.wfFrom_cons lo k v m).1 hw
    have ih := Memory.read_write_same (i := i) b hw'.2.2
    unfold Memory.write
    split
    · next hik =>
      split
      · next hb =>
        have hw2 : Memory.wfFrom k ((k, v) :: m) = true := (Memory.wfFrom_cons k k v m).2 ⟨le_refl k, hw'.2⟩
        rw [Memory.read_below hik hw2]; simpa [bufDefault] using hb.symm
      · simp [Memory.read_cons]
    · split
      · next hik =>
        split
        · next hb =>
          subst hik
          rw [Memory.read_below (Nat.lt_succ_self i) hw'.2.2]; simpa [bufDefault] using hb.symm
        · simp [Memory.read_cons]
      · next h1 h2 => rw [Memory.read_cons, if_neg (Ne.symm h2)]; exact ih

/-- A write keeps the canonical form. -/
theorem Memory.wfFrom_write {i : Nat} (b : Byte) : {m : Memory} → {lo : Nat} → lo ≤ i →
    Memory.wfFrom lo m = true → Memory.wfFrom lo (Memory.write m i b) = true
  | [], lo, hi, _ => by
    unfold Memory.write
    split
    · rfl
    · next h => exact (Memory.wfFrom_cons lo i b []).2 ⟨hi, h, rfl⟩
  | (k, v) :: m, lo, hi, hw => by
    have hw' := (Memory.wfFrom_cons lo k v m).1 hw
    unfold Memory.write
    split
    · next hik =>
      split
      · exact hw
      · next h =>
        exact (Memory.wfFrom_cons _ _ _ _).2
          ⟨hi, h, (Memory.wfFrom_cons _ _ _ _).2 ⟨hik, hw'.2⟩⟩
    · split
      · next hik =>
        subst hik
        split
        · exact Memory.wfFrom_mono (by omega) hw'.2.2
        · next h => exact (Memory.wfFrom_cons _ _ _ _).2 ⟨hi, h, hw'.2.2⟩
      · next h1 h2 =>
        exact (Memory.wfFrom_cons _ _ _ _).2
          ⟨hw'.1, hw'.2.1, Memory.wfFrom_write b (by omega) hw'.2.2⟩

theorem Memory.wf_write {m : Memory} (i : Nat) (b : Byte) (h : Memory.wf m = true) :
    Memory.wf (Memory.write m i b) = true := Memory.wfFrom_write b (Nat.zero_le i) h

theorem memWrite_wf (bs : List Byte) : {m : Memory} → (i : Nat) → Memory.wf m = true →
    Memory.wf (memWrite m i bs) = true := by
  induction bs with
  | nil => intro m i h; exact h
  | cons b bs ih => intro m i h; exact ih (i + 1) (Memory.wf_write i b h)

/-- Two memories in canonical form with the same contents are the same data. -/
theorem Memory.ext_of_wf : {m n : Memory} → {lo : Nat} → Memory.wfFrom lo m = true → Memory.wfFrom lo n = true →
    (∀ i, Memory.read m i = Memory.read n i) → m = n
  | [], [], _, _, _, _ => rfl
  | [], (k, v) :: n, lo, _, hn, h => by
    have h1 := h k
    rw [Memory.read_cons, if_pos rfl, Memory.read_nil] at h1
    exact absurd h1.symm ((Memory.wfFrom_cons _ _ _ _).1 hn).2.1
  | (k, v) :: m, [], lo, hm, _, h => by
    have h1 := h k
    rw [Memory.read_cons, if_pos rfl, Memory.read_nil] at h1
    exact absurd h1 ((Memory.wfFrom_cons _ _ _ _).1 hm).2.1
  | (k, v) :: m, (l, w) :: n, lo, hm, hn, h => by
    have hm' := (Memory.wfFrom_cons _ _ _ _).1 hm
    have hn' := (Memory.wfFrom_cons _ _ _ _).1 hn
    have hkl : k = l := by
      by_contra hne
      rcases Nat.lt_or_gt_of_ne hne with hlt | hgt
      · have h1 := h k
        rw [Memory.read_cons, if_pos rfl, Memory.read_cons, if_neg (by omega),
          Memory.read_below (lo := l + 1) (by omega) hn'.2.2] at h1
        exact hm'.2.1 h1
      · have h1 := h l
        rw [Memory.read_cons, if_neg hne, Memory.read_cons, if_pos rfl,
          Memory.read_below (lo := k + 1) (by omega) hm'.2.2] at h1
        exact hn'.2.1 h1.symm
    subst hkl
    have hv : v = w := by simpa [Memory.read_cons] using h k
    subst hv
    have hrest : m = n := by
      refine Memory.ext_of_wf hm'.2.2 hn'.2.2 fun i => ?_
      by_cases hi : k = i
      · subst hi
        rw [Memory.read_below (Nat.lt_succ_self k) hm'.2.2, Memory.read_below (Nat.lt_succ_self k) hn'.2.2]
      · have h1 := h i
        rwa [Memory.read_cons, if_neg hi, Memory.read_cons, if_neg hi] at h1
    rw [hrest]

/-- The indexes a memory lists after a write: those it listed, and the one written. -/
theorem Memory.mem_write {i : Nat} {b : Byte} {c : Host.Cell} : {m : Memory} →
    c ∈ Memory.write m i b → c.1 = i ∨ c ∈ m
  | [], h => by
    unfold Memory.write at h
    split at h
    · exact absurd h (by simp)
    · exact .inl (by simpa using congrArg Prod.fst (List.mem_singleton.1 h))
  | (k, v) :: m, h => by
    unfold Memory.write at h
    split at h
    · split at h
      · exact .inr h
      · rcases List.mem_cons.1 h with rfl | h
        · exact .inl rfl
        · exact .inr h
    · split at h
      · next hik =>
        split at h
        · exact .inr (List.mem_cons_of_mem _ h)
        · rcases List.mem_cons.1 h with rfl | h
          · exact .inl rfl
          · exact .inr (List.mem_cons_of_mem _ h)
      · rcases List.mem_cons.1 h with rfl | h
        · exact .inr (List.mem_cons_self)
        · rcases Memory.mem_write h with h | h
          · exact .inl h
          · exact .inr (List.mem_cons_of_mem _ h)

@[simp] theorem memRead_length (m : Memory) (i n : Nat) : (memRead m i n).length = n := by simp [memRead]

theorem memRead_getElem (m : Memory) (i n k : Nat) (h : k < (memRead m i n).length) :
    (memRead m i n)[k] = Memory.read m (i + k) := by simp [memRead]

theorem memRead_getD (m : Memory) (i n k : Nat) (d : Byte) (h : k < n) :
    (memRead m i n).getD k d = Memory.read m (i + k) := by
  rw [List.getD_eq_getElem _ _ (by simpa using h), memRead_getElem]

theorem memRead_succ (m : Memory) (i n : Nat) :
    memRead m i (n + 1) = memRead m i n ++ [Memory.read m (i + n)] := by
  simp [memRead, List.range_succ]

/-- A range is read unchanged after a write beside it. -/
theorem memRead_write_outside {m : Memory} {i n j : Nat} (h : j < i ∨ i + n ≤ j) (b : Byte) :
    memRead (Memory.write m j b) i n = memRead m i n := by
  simp only [memRead, List.map_inj_left, List.mem_range]
  intro k hk
  exact Memory.read_write_other (by omega) b m

theorem memRead_take (m : Memory) (i n k : Nat) : (memRead m i n).take k = memRead m i (min k n) := by
  simp [memRead, ← List.map_take, List.take_range]

theorem memWrite_append (as bs : List Byte) (m : Memory) (i : Nat) :
    memWrite m i (as ++ bs) = memWrite (memWrite m i as) (i + as.length) bs := by
  induction as generalizing m i with
  | nil => rfl
  | cons a as ih =>
    simp only [List.cons_append, memWrite, List.length_cons]
    rw [ih, show i + 1 + as.length = i + (as.length + 1) by omega]

/-- A range written reads as before outside it. -/
theorem read_memWrite_outside (bs : List Byte) (m : Memory) {i j : Nat} (h : j < i ∨ i + bs.length ≤ j) :
    Memory.read (memWrite m i bs) j = Memory.read m j := by
  induction bs generalizing m i with
  | nil => rfl
  | cons b bs ih =>
    simp only [List.length_cons] at h
    rw [memWrite, ih _ (by omega), Memory.read_write_other (by omega)]

/-- A range reads as it was written (R41). -/
theorem memRead_memWrite {m : Memory} (hwf : Memory.wf m = true) (i : Nat) (bs : List Byte) :
    memRead (memWrite m i bs) i bs.length = bs := by
  induction bs generalizing m i with
  | nil => rfl
  | cons b bs ih =>
    have h1 := ih (Memory.wf_write i b hwf) (i + 1)
    have h0 : Memory.read (memWrite (Memory.write m i b) (i + 1) bs) i = b := by
      rw [read_memWrite_outside _ _ (by omega), Memory.read_write_same b hwf]
    have hrange : memRead (memWrite (Memory.write m i b) (i + 1) bs) i (bs.length + 1) =
        Memory.read (memWrite (Memory.write m i b) (i + 1) bs) i ::
          memRead (memWrite (Memory.write m i b) (i + 1) bs) (i + 1) bs.length := by
      simp only [memRead, List.range_succ_eq_map, List.map_cons, List.map_map, Nat.add_zero]
      congr 1
      apply List.map_congr_left
      intro k _
      simp only [Function.comp_apply]
      rw [show i + k.succ = i + 1 + k by omega]
    simp only [memWrite, List.length_cons]
    rw [hrange, h0, h1]

end Sys2Proof.Machine
end

