-- ==== Sys2Proof/Laws/State.lean ====
section
/-! SUPPORT. One lemma per field per update of the state, true by rfl: no later proof unfolds a record update. -/

namespace Sys2Proof.Machine

/-! ### `storeByte` -/

@[simp] theorem storeByte_phase (i : Nat) (b : Byte) (s : State) : (storeByte i b s).phase = s.phase := rfl
@[simp] theorem storeByte_cmdOp (i : Nat) (b : Byte) (s : State) : (storeByte i b s).cmdOp = s.cmdOp := rfl
@[simp] theorem storeByte_cmdDev (i : Nat) (b : Byte) (s : State) : (storeByte i b s).cmdDev = s.cmdDev := rfl
@[simp] theorem storeByte_cmdReg (i : Nat) (b : Byte) (s : State) : (storeByte i b s).cmdReg = s.cmdReg := rfl
@[simp] theorem storeByte_cmdArg (i : Nat) (b : Byte) (s : State) : (storeByte i b s).cmdArg = s.cmdArg := rfl
@[simp] theorem storeByte_cmdData (i : Nat) (b : Byte) (s : State) : (storeByte i b s).cmdData = s.cmdData := rfl
@[simp] theorem storeByte_portArg (i : Nat) (b : Byte) (s : State) : (storeByte i b s).portArg = s.portArg := rfl
@[simp] theorem storeByte_portData (i : Nat) (b : Byte) (s : State) : (storeByte i b s).portData = s.portData := rfl
@[simp] theorem storeByte_expAddr (i : Nat) (b : Byte) (s : State) : (storeByte i b s).expAddr = s.expAddr := rfl
@[simp] theorem storeByte_expFn (i : Nat) (b : Byte) (s : State) : (storeByte i b s).expFn = s.expFn := rfl
@[simp] theorem storeByte_expVal (i : Nat) (b : Byte) (s : State) : (storeByte i b s).expVal = s.expVal := rfl
@[simp] theorem storeByte_rxT (i : Nat) (b : Byte) (s : State) : (storeByte i b s).rxT = s.rxT := rfl
@[simp] theorem storeByte_rxSt (i : Nat) (b : Byte) (s : State) : (storeByte i b s).rxSt = s.rxSt := rfl
@[simp] theorem storeByte_rxIdx (i : Nat) (b : Byte) (s : State) : (storeByte i b s).rxIdx = s.rxIdx := rfl
@[simp] theorem storeByte_rxTotal (i : Nat) (b : Byte) (s : State) : (storeByte i b s).rxTotal = s.rxTotal := rfl
@[simp] theorem storeByte_rxRem (i : Nat) (b : Byte) (s : State) : (storeByte i b s).rxRem = s.rxRem := rfl
@[simp] theorem storeByte_rxLast (i : Nat) (b : Byte) (s : State) : (storeByte i b s).rxLast = s.rxLast := rfl
@[simp] theorem storeByte_buf (i : Nat) (b : Byte) (s : State) : (storeByte i b s).buf = Memory.write s.buf i b := rfl
@[simp] theorem storeByte_crc (i : Nat) (b : Byte) (s : State) : (storeByte i b s).crc = s.crc := rfl
@[simp] theorem storeByte_txframe (i : Nat) (b : Byte) (s : State) : (storeByte i b s).txframe = s.txframe := rfl
@[simp] theorem storeByte_tTx (i : Nat) (b : Byte) (s : State) : (storeByte i b s).tTx = s.tTx := rfl
@[simp] theorem storeByte_timeout (i : Nat) (b : Byte) (s : State) : (storeByte i b s).timeout = s.timeout := rfl
@[simp] theorem storeByte_timeoutSet (i : Nat) (b : Byte) (s : State) : (storeByte i b s).timeoutSet = s.timeoutSet := rfl
@[simp] theorem storeByte_resStatus (i : Nat) (b : Byte) (s : State) : (storeByte i b s).resStatus = s.resStatus := rfl
@[simp] theorem storeByte_resFrame (i : Nat) (b : Byte) (s : State) : (storeByte i b s).resFrame = s.resFrame := rfl
@[simp] theorem storeByte_resValid (i : Nat) (b : Byte) (s : State) : (storeByte i b s).resValid = s.resValid := rfl
@[simp] theorem storeByte_inbound (i : Nat) (b : Byte) (s : State) : (storeByte i b s).inbound = s.inbound := rfl
@[simp] theorem storeByte_outbound (i : Nat) (b : Byte) (s : State) : (storeByte i b s).outbound = s.outbound := rfl
@[simp] theorem storeByte_clock (i : Nat) (b : Byte) (s : State) : (storeByte i b s).clock = s.clock := rfl
@[simp] theorem storeByte_retWord (i : Nat) (b : Byte) (s : State) : (storeByte i b s).retWord = s.retWord := rfl
@[simp] theorem storeByte_retBytes (i : Nat) (b : Byte) (s : State) : (storeByte i b s).retBytes = s.retBytes := rfl
@[simp] theorem storeByte_agenda (i : Nat) (b : Byte) (s : State) : (storeByte i b s).agenda = s.agenda := rfl
@[simp] theorem storeByte_draws (i : Nat) (b : Byte) (s : State) : (storeByte i b s).draws = s.draws := rfl

/-! ### `txWrite` -/

@[simp] theorem txWrite_phase (bs : List Byte) (s : State) : (txWrite bs s).phase = s.phase := rfl
@[simp] theorem txWrite_cmdOp (bs : List Byte) (s : State) : (txWrite bs s).cmdOp = s.cmdOp := rfl
@[simp] theorem txWrite_cmdDev (bs : List Byte) (s : State) : (txWrite bs s).cmdDev = s.cmdDev := rfl
@[simp] theorem txWrite_cmdReg (bs : List Byte) (s : State) : (txWrite bs s).cmdReg = s.cmdReg := rfl
@[simp] theorem txWrite_cmdArg (bs : List Byte) (s : State) : (txWrite bs s).cmdArg = s.cmdArg := rfl
@[simp] theorem txWrite_cmdData (bs : List Byte) (s : State) : (txWrite bs s).cmdData = s.cmdData := rfl
@[simp] theorem txWrite_portArg (bs : List Byte) (s : State) : (txWrite bs s).portArg = s.portArg := rfl
@[simp] theorem txWrite_portData (bs : List Byte) (s : State) : (txWrite bs s).portData = s.portData := rfl
@[simp] theorem txWrite_expAddr (bs : List Byte) (s : State) : (txWrite bs s).expAddr = s.expAddr := rfl
@[simp] theorem txWrite_expFn (bs : List Byte) (s : State) : (txWrite bs s).expFn = s.expFn := rfl
@[simp] theorem txWrite_expVal (bs : List Byte) (s : State) : (txWrite bs s).expVal = s.expVal := rfl
@[simp] theorem txWrite_rxT (bs : List Byte) (s : State) : (txWrite bs s).rxT = s.rxT := rfl
@[simp] theorem txWrite_rxSt (bs : List Byte) (s : State) : (txWrite bs s).rxSt = s.rxSt := rfl
@[simp] theorem txWrite_rxIdx (bs : List Byte) (s : State) : (txWrite bs s).rxIdx = s.rxIdx := rfl
@[simp] theorem txWrite_rxTotal (bs : List Byte) (s : State) : (txWrite bs s).rxTotal = s.rxTotal := rfl
@[simp] theorem txWrite_rxRem (bs : List Byte) (s : State) : (txWrite bs s).rxRem = s.rxRem := rfl
@[simp] theorem txWrite_rxLast (bs : List Byte) (s : State) : (txWrite bs s).rxLast = s.rxLast := rfl
@[simp] theorem txWrite_buf (bs : List Byte) (s : State) : (txWrite bs s).buf = s.buf := rfl
@[simp] theorem txWrite_crc (bs : List Byte) (s : State) : (txWrite bs s).crc = s.crc := rfl
@[simp] theorem txWrite_txframe (bs : List Byte) (s : State) : (txWrite bs s).txframe = s.txframe := rfl
@[simp] theorem txWrite_tTx (bs : List Byte) (s : State) : (txWrite bs s).tTx = s.tTx := rfl
@[simp] theorem txWrite_timeout (bs : List Byte) (s : State) : (txWrite bs s).timeout = s.timeout := rfl
@[simp] theorem txWrite_timeoutSet (bs : List Byte) (s : State) : (txWrite bs s).timeoutSet = s.timeoutSet := rfl
@[simp] theorem txWrite_resStatus (bs : List Byte) (s : State) : (txWrite bs s).resStatus = s.resStatus := rfl
@[simp] theorem txWrite_resFrame (bs : List Byte) (s : State) : (txWrite bs s).resFrame = s.resFrame := rfl
@[simp] theorem txWrite_resValid (bs : List Byte) (s : State) : (txWrite bs s).resValid = s.resValid := rfl
@[simp] theorem txWrite_inbound (bs : List Byte) (s : State) : (txWrite bs s).inbound = s.inbound := rfl
@[simp] theorem txWrite_outbound (bs : List Byte) (s : State) : (txWrite bs s).outbound = s.outbound ++ bs := rfl
@[simp] theorem txWrite_clock (bs : List Byte) (s : State) : (txWrite bs s).clock = s.clock := rfl
@[simp] theorem txWrite_retWord (bs : List Byte) (s : State) : (txWrite bs s).retWord = s.retWord := rfl
@[simp] theorem txWrite_retBytes (bs : List Byte) (s : State) : (txWrite bs s).retBytes = s.retBytes := rfl
@[simp] theorem txWrite_agenda (bs : List Byte) (s : State) : (txWrite bs s).agenda = s.agenda := rfl
@[simp] theorem txWrite_draws (bs : List Byte) (s : State) : (txWrite bs s).draws = s.draws := rfl

/-! ### `deliver` -/

@[simp] theorem deliver_phase (bs : List Byte) (s : State) : (deliver bs s).phase = s.phase := rfl
@[simp] theorem deliver_cmdOp (bs : List Byte) (s : State) : (deliver bs s).cmdOp = s.cmdOp := rfl
@[simp] theorem deliver_cmdDev (bs : List Byte) (s : State) : (deliver bs s).cmdDev = s.cmdDev := rfl
@[simp] theorem deliver_cmdReg (bs : List Byte) (s : State) : (deliver bs s).cmdReg = s.cmdReg := rfl
@[simp] theorem deliver_cmdArg (bs : List Byte) (s : State) : (deliver bs s).cmdArg = s.cmdArg := rfl
@[simp] theorem deliver_cmdData (bs : List Byte) (s : State) : (deliver bs s).cmdData = s.cmdData := rfl
@[simp] theorem deliver_portArg (bs : List Byte) (s : State) : (deliver bs s).portArg = s.portArg := rfl
@[simp] theorem deliver_portData (bs : List Byte) (s : State) : (deliver bs s).portData = s.portData := rfl
@[simp] theorem deliver_expAddr (bs : List Byte) (s : State) : (deliver bs s).expAddr = s.expAddr := rfl
@[simp] theorem deliver_expFn (bs : List Byte) (s : State) : (deliver bs s).expFn = s.expFn := rfl
@[simp] theorem deliver_expVal (bs : List Byte) (s : State) : (deliver bs s).expVal = s.expVal := rfl
@[simp] theorem deliver_rxT (bs : List Byte) (s : State) : (deliver bs s).rxT = s.rxT := rfl
@[simp] theorem deliver_rxSt (bs : List Byte) (s : State) : (deliver bs s).rxSt = s.rxSt := rfl
@[simp] theorem deliver_rxIdx (bs : List Byte) (s : State) : (deliver bs s).rxIdx = s.rxIdx := rfl
@[simp] theorem deliver_rxTotal (bs : List Byte) (s : State) : (deliver bs s).rxTotal = s.rxTotal := rfl
@[simp] theorem deliver_rxRem (bs : List Byte) (s : State) : (deliver bs s).rxRem = s.rxRem := rfl
@[simp] theorem deliver_rxLast (bs : List Byte) (s : State) : (deliver bs s).rxLast = s.rxLast := rfl
@[simp] theorem deliver_buf (bs : List Byte) (s : State) : (deliver bs s).buf = s.buf := rfl
@[simp] theorem deliver_crc (bs : List Byte) (s : State) : (deliver bs s).crc = s.crc := rfl
@[simp] theorem deliver_txframe (bs : List Byte) (s : State) : (deliver bs s).txframe = s.txframe := rfl
@[simp] theorem deliver_tTx (bs : List Byte) (s : State) : (deliver bs s).tTx = s.tTx := rfl
@[simp] theorem deliver_timeout (bs : List Byte) (s : State) : (deliver bs s).timeout = s.timeout := rfl
@[simp] theorem deliver_timeoutSet (bs : List Byte) (s : State) : (deliver bs s).timeoutSet = s.timeoutSet := rfl
@[simp] theorem deliver_resStatus (bs : List Byte) (s : State) : (deliver bs s).resStatus = s.resStatus := rfl
@[simp] theorem deliver_resFrame (bs : List Byte) (s : State) : (deliver bs s).resFrame = s.resFrame := rfl
@[simp] theorem deliver_resValid (bs : List Byte) (s : State) : (deliver bs s).resValid = s.resValid := rfl
@[simp] theorem deliver_inbound (bs : List Byte) (s : State) : (deliver bs s).inbound = s.inbound ++ bs := rfl
@[simp] theorem deliver_outbound (bs : List Byte) (s : State) : (deliver bs s).outbound = s.outbound := rfl
@[simp] theorem deliver_clock (bs : List Byte) (s : State) : (deliver bs s).clock = s.clock := rfl
@[simp] theorem deliver_retWord (bs : List Byte) (s : State) : (deliver bs s).retWord = s.retWord := rfl
@[simp] theorem deliver_retBytes (bs : List Byte) (s : State) : (deliver bs s).retBytes = s.retBytes := rfl
@[simp] theorem deliver_agenda (bs : List Byte) (s : State) : (deliver bs s).agenda = s.agenda := rfl
@[simp] theorem deliver_draws (bs : List Byte) (s : State) : (deliver bs s).draws = s.draws := rfl

/-! ### `advance` -/

@[simp] theorem advance_phase (n : Nat) (s : State) : (advance n s).phase = s.phase := rfl
@[simp] theorem advance_cmdOp (n : Nat) (s : State) : (advance n s).cmdOp = s.cmdOp := rfl
@[simp] theorem advance_cmdDev (n : Nat) (s : State) : (advance n s).cmdDev = s.cmdDev := rfl
@[simp] theorem advance_cmdReg (n : Nat) (s : State) : (advance n s).cmdReg = s.cmdReg := rfl
@[simp] theorem advance_cmdArg (n : Nat) (s : State) : (advance n s).cmdArg = s.cmdArg := rfl
@[simp] theorem advance_cmdData (n : Nat) (s : State) : (advance n s).cmdData = s.cmdData := rfl
@[simp] theorem advance_portArg (n : Nat) (s : State) : (advance n s).portArg = s.portArg := rfl
@[simp] theorem advance_portData (n : Nat) (s : State) : (advance n s).portData = s.portData := rfl
@[simp] theorem advance_expAddr (n : Nat) (s : State) : (advance n s).expAddr = s.expAddr := rfl
@[simp] theorem advance_expFn (n : Nat) (s : State) : (advance n s).expFn = s.expFn := rfl
@[simp] theorem advance_expVal (n : Nat) (s : State) : (advance n s).expVal = s.expVal := rfl
@[simp] theorem advance_rxT (n : Nat) (s : State) : (advance n s).rxT = s.rxT := rfl
@[simp] theorem advance_rxSt (n : Nat) (s : State) : (advance n s).rxSt = s.rxSt := rfl
@[simp] theorem advance_rxIdx (n : Nat) (s : State) : (advance n s).rxIdx = s.rxIdx := rfl
@[simp] theorem advance_rxTotal (n : Nat) (s : State) : (advance n s).rxTotal = s.rxTotal := rfl
@[simp] theorem advance_rxRem (n : Nat) (s : State) : (advance n s).rxRem = s.rxRem := rfl
@[simp] theorem advance_rxLast (n : Nat) (s : State) : (advance n s).rxLast = s.rxLast := rfl
@[simp] theorem advance_buf (n : Nat) (s : State) : (advance n s).buf = s.buf := rfl
@[simp] theorem advance_crc (n : Nat) (s : State) : (advance n s).crc = s.crc := rfl
@[simp] theorem advance_txframe (n : Nat) (s : State) : (advance n s).txframe = s.txframe := rfl
@[simp] theorem advance_tTx (n : Nat) (s : State) : (advance n s).tTx = s.tTx := rfl
@[simp] theorem advance_timeout (n : Nat) (s : State) : (advance n s).timeout = s.timeout := rfl
@[simp] theorem advance_timeoutSet (n : Nat) (s : State) : (advance n s).timeoutSet = s.timeoutSet := rfl
@[simp] theorem advance_resStatus (n : Nat) (s : State) : (advance n s).resStatus = s.resStatus := rfl
@[simp] theorem advance_resFrame (n : Nat) (s : State) : (advance n s).resFrame = s.resFrame := rfl
@[simp] theorem advance_resValid (n : Nat) (s : State) : (advance n s).resValid = s.resValid := rfl
@[simp] theorem advance_inbound (n : Nat) (s : State) : (advance n s).inbound = s.inbound := rfl
@[simp] theorem advance_outbound (n : Nat) (s : State) : (advance n s).outbound = s.outbound := rfl
@[simp] theorem advance_clock (n : Nat) (s : State) : (advance n s).clock = s.clock + n := rfl
@[simp] theorem advance_retWord (n : Nat) (s : State) : (advance n s).retWord = s.retWord := rfl
@[simp] theorem advance_retBytes (n : Nat) (s : State) : (advance n s).retBytes = s.retBytes := rfl
@[simp] theorem advance_agenda (n : Nat) (s : State) : (advance n s).agenda = s.agenda := rfl
@[simp] theorem advance_draws (n : Nat) (s : State) : (advance n s).draws = s.draws := rfl

/-! ### `finish` -/

@[simp] theorem finish_phase (status : Byte) (frame : List Byte) (s : State) : (finish status frame s).phase = .done := rfl
@[simp] theorem finish_cmdOp (status : Byte) (frame : List Byte) (s : State) : (finish status frame s).cmdOp = s.cmdOp := rfl
@[simp] theorem finish_cmdDev (status : Byte) (frame : List Byte) (s : State) : (finish status frame s).cmdDev = s.cmdDev := rfl
@[simp] theorem finish_cmdReg (status : Byte) (frame : List Byte) (s : State) : (finish status frame s).cmdReg = s.cmdReg := rfl
@[simp] theorem finish_cmdArg (status : Byte) (frame : List Byte) (s : State) : (finish status frame s).cmdArg = s.cmdArg := rfl
@[simp] theorem finish_cmdData (status : Byte) (frame : List Byte) (s : State) : (finish status frame s).cmdData = s.cmdData := rfl
@[simp] theorem finish_portArg (status : Byte) (frame : List Byte) (s : State) : (finish status frame s).portArg = s.portArg := rfl
@[simp] theorem finish_portData (status : Byte) (frame : List Byte) (s : State) : (finish status frame s).portData = s.portData := rfl
@[simp] theorem finish_expAddr (status : Byte) (frame : List Byte) (s : State) : (finish status frame s).expAddr = s.expAddr := rfl
@[simp] theorem finish_expFn (status : Byte) (frame : List Byte) (s : State) : (finish status frame s).expFn = s.expFn := rfl
@[simp] theorem finish_expVal (status : Byte) (frame : List Byte) (s : State) : (finish status frame s).expVal = s.expVal := rfl
@[simp] theorem finish_rxT (status : Byte) (frame : List Byte) (s : State) : (finish status frame s).rxT = s.rxT := rfl
@[simp] theorem finish_rxSt (status : Byte) (frame : List Byte) (s : State) : (finish status frame s).rxSt = s.rxSt := rfl
@[simp] theorem finish_rxIdx (status : Byte) (frame : List Byte) (s : State) : (finish status frame s).rxIdx = s.rxIdx := rfl
@[simp] theorem finish_rxTotal (status : Byte) (frame : List Byte) (s : State) : (finish status frame s).rxTotal = s.rxTotal := rfl
@[simp] theorem finish_rxRem (status : Byte) (frame : List Byte) (s : State) : (finish status frame s).rxRem = s.rxRem := rfl
@[simp] theorem finish_rxLast (status : Byte) (frame : List Byte) (s : State) : (finish status frame s).rxLast = s.rxLast := rfl
@[simp] theorem finish_buf (status : Byte) (frame : List Byte) (s : State) : (finish status frame s).buf = s.buf := rfl
@[simp] theorem finish_crc (status : Byte) (frame : List Byte) (s : State) : (finish status frame s).crc = s.crc := rfl
@[simp] theorem finish_txframe (status : Byte) (frame : List Byte) (s : State) : (finish status frame s).txframe = s.txframe := rfl
@[simp] theorem finish_tTx (status : Byte) (frame : List Byte) (s : State) : (finish status frame s).tTx = s.tTx := rfl
@[simp] theorem finish_timeout (status : Byte) (frame : List Byte) (s : State) : (finish status frame s).timeout = s.timeout := rfl
@[simp] theorem finish_timeoutSet (status : Byte) (frame : List Byte) (s : State) : (finish status frame s).timeoutSet = s.timeoutSet := rfl
@[simp] theorem finish_resStatus (status : Byte) (frame : List Byte) (s : State) : (finish status frame s).resStatus = status := rfl
@[simp] theorem finish_resFrame (status : Byte) (frame : List Byte) (s : State) : (finish status frame s).resFrame = frame := rfl
@[simp] theorem finish_resValid (status : Byte) (frame : List Byte) (s : State) : (finish status frame s).resValid = true := rfl
@[simp] theorem finish_inbound (status : Byte) (frame : List Byte) (s : State) : (finish status frame s).inbound = s.inbound := rfl
@[simp] theorem finish_outbound (status : Byte) (frame : List Byte) (s : State) : (finish status frame s).outbound = s.outbound := rfl
@[simp] theorem finish_clock (status : Byte) (frame : List Byte) (s : State) : (finish status frame s).clock = s.clock := rfl
@[simp] theorem finish_retWord (status : Byte) (frame : List Byte) (s : State) : (finish status frame s).retWord = s.retWord := rfl
@[simp] theorem finish_retBytes (status : Byte) (frame : List Byte) (s : State) : (finish status frame s).retBytes = s.retBytes := rfl
@[simp] theorem finish_agenda (status : Byte) (frame : List Byte) (s : State) : (finish status frame s).agenda = s.agenda := rfl
@[simp] theorem finish_draws (status : Byte) (frame : List Byte) (s : State) : (finish status frame s).draws = s.draws := rfl

/-! ### `crcInitOp` -/

@[simp] theorem crcInitOp_phase (s : State) : (crcInitOp s).phase = s.phase := rfl
@[simp] theorem crcInitOp_cmdOp (s : State) : (crcInitOp s).cmdOp = s.cmdOp := rfl
@[simp] theorem crcInitOp_cmdDev (s : State) : (crcInitOp s).cmdDev = s.cmdDev := rfl
@[simp] theorem crcInitOp_cmdReg (s : State) : (crcInitOp s).cmdReg = s.cmdReg := rfl
@[simp] theorem crcInitOp_cmdArg (s : State) : (crcInitOp s).cmdArg = s.cmdArg := rfl
@[simp] theorem crcInitOp_cmdData (s : State) : (crcInitOp s).cmdData = s.cmdData := rfl
@[simp] theorem crcInitOp_portArg (s : State) : (crcInitOp s).portArg = s.portArg := rfl
@[simp] theorem crcInitOp_portData (s : State) : (crcInitOp s).portData = s.portData := rfl
@[simp] theorem crcInitOp_expAddr (s : State) : (crcInitOp s).expAddr = s.expAddr := rfl
@[simp] theorem crcInitOp_expFn (s : State) : (crcInitOp s).expFn = s.expFn := rfl
@[simp] theorem crcInitOp_expVal (s : State) : (crcInitOp s).expVal = s.expVal := rfl
@[simp] theorem crcInitOp_rxT (s : State) : (crcInitOp s).rxT = s.rxT := rfl
@[simp] theorem crcInitOp_rxSt (s : State) : (crcInitOp s).rxSt = s.rxSt := rfl
@[simp] theorem crcInitOp_rxIdx (s : State) : (crcInitOp s).rxIdx = s.rxIdx := rfl
@[simp] theorem crcInitOp_rxTotal (s : State) : (crcInitOp s).rxTotal = s.rxTotal := rfl
@[simp] theorem crcInitOp_rxRem (s : State) : (crcInitOp s).rxRem = s.rxRem := rfl
@[simp] theorem crcInitOp_rxLast (s : State) : (crcInitOp s).rxLast = s.rxLast := rfl
@[simp] theorem crcInitOp_buf (s : State) : (crcInitOp s).buf = s.buf := rfl
@[simp] theorem crcInitOp_crc (s : State) : (crcInitOp s).crc = 0xFFFF := rfl
@[simp] theorem crcInitOp_txframe (s : State) : (crcInitOp s).txframe = s.txframe := rfl
@[simp] theorem crcInitOp_tTx (s : State) : (crcInitOp s).tTx = s.tTx := rfl
@[simp] theorem crcInitOp_timeout (s : State) : (crcInitOp s).timeout = s.timeout := rfl
@[simp] theorem crcInitOp_timeoutSet (s : State) : (crcInitOp s).timeoutSet = s.timeoutSet := rfl
@[simp] theorem crcInitOp_resStatus (s : State) : (crcInitOp s).resStatus = s.resStatus := rfl
@[simp] theorem crcInitOp_resFrame (s : State) : (crcInitOp s).resFrame = s.resFrame := rfl
@[simp] theorem crcInitOp_resValid (s : State) : (crcInitOp s).resValid = s.resValid := rfl
@[simp] theorem crcInitOp_inbound (s : State) : (crcInitOp s).inbound = s.inbound := rfl
@[simp] theorem crcInitOp_outbound (s : State) : (crcInitOp s).outbound = s.outbound := rfl
@[simp] theorem crcInitOp_clock (s : State) : (crcInitOp s).clock = s.clock := rfl
@[simp] theorem crcInitOp_retWord (s : State) : (crcInitOp s).retWord = s.retWord := rfl
@[simp] theorem crcInitOp_retBytes (s : State) : (crcInitOp s).retBytes = s.retBytes := rfl
@[simp] theorem crcInitOp_agenda (s : State) : (crcInitOp s).agenda = s.agenda := rfl
@[simp] theorem crcInitOp_draws (s : State) : (crcInitOp s).draws = s.draws := rfl

/-! ### `crcByteOp` -/

@[simp] theorem crcByteOp_phase (b : Byte) (s : State) : (crcByteOp b s).phase = s.phase := rfl
@[simp] theorem crcByteOp_cmdOp (b : Byte) (s : State) : (crcByteOp b s).cmdOp = s.cmdOp := rfl
@[simp] theorem crcByteOp_cmdDev (b : Byte) (s : State) : (crcByteOp b s).cmdDev = s.cmdDev := rfl
@[simp] theorem crcByteOp_cmdReg (b : Byte) (s : State) : (crcByteOp b s).cmdReg = s.cmdReg := rfl
@[simp] theorem crcByteOp_cmdArg (b : Byte) (s : State) : (crcByteOp b s).cmdArg = s.cmdArg := rfl
@[simp] theorem crcByteOp_cmdData (b : Byte) (s : State) : (crcByteOp b s).cmdData = s.cmdData := rfl
@[simp] theorem crcByteOp_portArg (b : Byte) (s : State) : (crcByteOp b s).portArg = s.portArg := rfl
@[simp] theorem crcByteOp_portData (b : Byte) (s : State) : (crcByteOp b s).portData = s.portData := rfl
@[simp] theorem crcByteOp_expAddr (b : Byte) (s : State) : (crcByteOp b s).expAddr = s.expAddr := rfl
@[simp] theorem crcByteOp_expFn (b : Byte) (s : State) : (crcByteOp b s).expFn = s.expFn := rfl
@[simp] theorem crcByteOp_expVal (b : Byte) (s : State) : (crcByteOp b s).expVal = s.expVal := rfl
@[simp] theorem crcByteOp_rxT (b : Byte) (s : State) : (crcByteOp b s).rxT = s.rxT := rfl
@[simp] theorem crcByteOp_rxSt (b : Byte) (s : State) : (crcByteOp b s).rxSt = s.rxSt := rfl
@[simp] theorem crcByteOp_rxIdx (b : Byte) (s : State) : (crcByteOp b s).rxIdx = s.rxIdx := rfl
@[simp] theorem crcByteOp_rxTotal (b : Byte) (s : State) : (crcByteOp b s).rxTotal = s.rxTotal := rfl
@[simp] theorem crcByteOp_rxRem (b : Byte) (s : State) : (crcByteOp b s).rxRem = s.rxRem := rfl
@[simp] theorem crcByteOp_rxLast (b : Byte) (s : State) : (crcByteOp b s).rxLast = s.rxLast := rfl
@[simp] theorem crcByteOp_buf (b : Byte) (s : State) : (crcByteOp b s).buf = s.buf := rfl
@[simp] theorem crcByteOp_crc (b : Byte) (s : State) : (crcByteOp b s).crc = crcStep s.crc b := rfl
@[simp] theorem crcByteOp_txframe (b : Byte) (s : State) : (crcByteOp b s).txframe = s.txframe := rfl
@[simp] theorem crcByteOp_tTx (b : Byte) (s : State) : (crcByteOp b s).tTx = s.tTx := rfl
@[simp] theorem crcByteOp_timeout (b : Byte) (s : State) : (crcByteOp b s).timeout = s.timeout := rfl
@[simp] theorem crcByteOp_timeoutSet (b : Byte) (s : State) : (crcByteOp b s).timeoutSet = s.timeoutSet := rfl
@[simp] theorem crcByteOp_resStatus (b : Byte) (s : State) : (crcByteOp b s).resStatus = s.resStatus := rfl
@[simp] theorem crcByteOp_resFrame (b : Byte) (s : State) : (crcByteOp b s).resFrame = s.resFrame := rfl
@[simp] theorem crcByteOp_resValid (b : Byte) (s : State) : (crcByteOp b s).resValid = s.resValid := rfl
@[simp] theorem crcByteOp_inbound (b : Byte) (s : State) : (crcByteOp b s).inbound = s.inbound := rfl
@[simp] theorem crcByteOp_outbound (b : Byte) (s : State) : (crcByteOp b s).outbound = s.outbound := rfl
@[simp] theorem crcByteOp_clock (b : Byte) (s : State) : (crcByteOp b s).clock = s.clock := rfl
@[simp] theorem crcByteOp_retWord (b : Byte) (s : State) : (crcByteOp b s).retWord = s.retWord := rfl
@[simp] theorem crcByteOp_retBytes (b : Byte) (s : State) : (crcByteOp b s).retBytes = s.retBytes := rfl
@[simp] theorem crcByteOp_agenda (b : Byte) (s : State) : (crcByteOp b s).agenda = s.agenda := rfl
@[simp] theorem crcByteOp_draws (b : Byte) (s : State) : (crcByteOp b s).draws = s.draws := rfl

/-! ### `receiveStart` -/

@[simp] theorem receiveStart_phase (ea ef : Byte) (ev : Val17) (T : Nat) (s : State) : (receiveStart ea ef ev T s).phase = .receive := rfl
@[simp] theorem receiveStart_cmdOp (ea ef : Byte) (ev : Val17) (T : Nat) (s : State) : (receiveStart ea ef ev T s).cmdOp = s.cmdOp := rfl
@[simp] theorem receiveStart_cmdDev (ea ef : Byte) (ev : Val17) (T : Nat) (s : State) : (receiveStart ea ef ev T s).cmdDev = s.cmdDev := rfl
@[simp] theorem receiveStart_cmdReg (ea ef : Byte) (ev : Val17) (T : Nat) (s : State) : (receiveStart ea ef ev T s).cmdReg = s.cmdReg := rfl
@[simp] theorem receiveStart_cmdArg (ea ef : Byte) (ev : Val17) (T : Nat) (s : State) : (receiveStart ea ef ev T s).cmdArg = s.cmdArg := rfl
@[simp] theorem receiveStart_cmdData (ea ef : Byte) (ev : Val17) (T : Nat) (s : State) : (receiveStart ea ef ev T s).cmdData = s.cmdData := rfl
@[simp] theorem receiveStart_portArg (ea ef : Byte) (ev : Val17) (T : Nat) (s : State) : (receiveStart ea ef ev T s).portArg = s.portArg := rfl
@[simp] theorem receiveStart_portData (ea ef : Byte) (ev : Val17) (T : Nat) (s : State) : (receiveStart ea ef ev T s).portData = s.portData := rfl
@[simp] theorem receiveStart_expAddr (ea ef : Byte) (ev : Val17) (T : Nat) (s : State) : (receiveStart ea ef ev T s).expAddr = ea := rfl
@[simp] theorem receiveStart_expFn (ea ef : Byte) (ev : Val17) (T : Nat) (s : State) : (receiveStart ea ef ev T s).expFn = ef := rfl
@[simp] theorem receiveStart_expVal (ea ef : Byte) (ev : Val17) (T : Nat) (s : State) : (receiveStart ea ef ev T s).expVal = ev := rfl
@[simp] theorem receiveStart_rxT (ea ef : Byte) (ev : Val17) (T : Nat) (s : State) : (receiveStart ea ef ev T s).rxT = T := rfl
@[simp] theorem receiveStart_rxSt (ea ef : Byte) (ev : Val17) (T : Nat) (s : State) : (receiveStart ea ef ev T s).rxSt = .awaitHeaderByte := rfl
@[simp] theorem receiveStart_rxIdx (ea ef : Byte) (ev : Val17) (T : Nat) (s : State) : (receiveStart ea ef ev T s).rxIdx = 0 := rfl
@[simp] theorem receiveStart_rxTotal (ea ef : Byte) (ev : Val17) (T : Nat) (s : State) : (receiveStart ea ef ev T s).rxTotal = s.rxTotal := rfl
@[simp] theorem receiveStart_rxRem (ea ef : Byte) (ev : Val17) (T : Nat) (s : State) : (receiveStart ea ef ev T s).rxRem = s.rxRem := rfl
@[simp] theorem receiveStart_rxLast (ea ef : Byte) (ev : Val17) (T : Nat) (s : State) : (receiveStart ea ef ev T s).rxLast = s.clock := rfl
@[simp] theorem receiveStart_buf (ea ef : Byte) (ev : Val17) (T : Nat) (s : State) : (receiveStart ea ef ev T s).buf = s.buf := rfl
@[simp] theorem receiveStart_crc (ea ef : Byte) (ev : Val17) (T : Nat) (s : State) : (receiveStart ea ef ev T s).crc = s.crc := rfl
@[simp] theorem receiveStart_txframe (ea ef : Byte) (ev : Val17) (T : Nat) (s : State) : (receiveStart ea ef ev T s).txframe = s.txframe := rfl
@[simp] theorem receiveStart_tTx (ea ef : Byte) (ev : Val17) (T : Nat) (s : State) : (receiveStart ea ef ev T s).tTx = s.tTx := rfl
@[simp] theorem receiveStart_timeout (ea ef : Byte) (ev : Val17) (T : Nat) (s : State) : (receiveStart ea ef ev T s).timeout = s.timeout := rfl
@[simp] theorem receiveStart_timeoutSet (ea ef : Byte) (ev : Val17) (T : Nat) (s : State) : (receiveStart ea ef ev T s).timeoutSet = s.timeoutSet := rfl
@[simp] theorem receiveStart_resStatus (ea ef : Byte) (ev : Val17) (T : Nat) (s : State) : (receiveStart ea ef ev T s).resStatus = s.resStatus := rfl
@[simp] theorem receiveStart_resFrame (ea ef : Byte) (ev : Val17) (T : Nat) (s : State) : (receiveStart ea ef ev T s).resFrame = s.resFrame := rfl
@[simp] theorem receiveStart_resValid (ea ef : Byte) (ev : Val17) (T : Nat) (s : State) : (receiveStart ea ef ev T s).resValid = false := rfl
@[simp] theorem receiveStart_inbound (ea ef : Byte) (ev : Val17) (T : Nat) (s : State) : (receiveStart ea ef ev T s).inbound = s.inbound := rfl
@[simp] theorem receiveStart_outbound (ea ef : Byte) (ev : Val17) (T : Nat) (s : State) : (receiveStart ea ef ev T s).outbound = s.outbound := rfl
@[simp] theorem receiveStart_clock (ea ef : Byte) (ev : Val17) (T : Nat) (s : State) : (receiveStart ea ef ev T s).clock = s.clock := rfl
@[simp] theorem receiveStart_retWord (ea ef : Byte) (ev : Val17) (T : Nat) (s : State) : (receiveStart ea ef ev T s).retWord = s.retWord := rfl
@[simp] theorem receiveStart_retBytes (ea ef : Byte) (ev : Val17) (T : Nat) (s : State) : (receiveStart ea ef ev T s).retBytes = s.retBytes := rfl
@[simp] theorem receiveStart_agenda (ea ef : Byte) (ev : Val17) (T : Nat) (s : State) : (receiveStart ea ef ev T s).agenda = s.agenda := rfl
@[simp] theorem receiveStart_draws (ea ef : Byte) (ev : Val17) (T : Nat) (s : State) : (receiveStart ea ef ev T s).draws = s.draws := rfl

/-! ### `awaitBodyOf` -/

@[simp] theorem awaitBodyOf_phase (total : Val17) (s : State) : (awaitBodyOf total s).phase = s.phase := rfl
@[simp] theorem awaitBodyOf_cmdOp (total : Val17) (s : State) : (awaitBodyOf total s).cmdOp = s.cmdOp := rfl
@[simp] theorem awaitBodyOf_cmdDev (total : Val17) (s : State) : (awaitBodyOf total s).cmdDev = s.cmdDev := rfl
@[simp] theorem awaitBodyOf_cmdReg (total : Val17) (s : State) : (awaitBodyOf total s).cmdReg = s.cmdReg := rfl
@[simp] theorem awaitBodyOf_cmdArg (total : Val17) (s : State) : (awaitBodyOf total s).cmdArg = s.cmdArg := rfl
@[simp] theorem awaitBodyOf_cmdData (total : Val17) (s : State) : (awaitBodyOf total s).cmdData = s.cmdData := rfl
@[simp] theorem awaitBodyOf_portArg (total : Val17) (s : State) : (awaitBodyOf total s).portArg = s.portArg := rfl
@[simp] theorem awaitBodyOf_portData (total : Val17) (s : State) : (awaitBodyOf total s).portData = s.portData := rfl
@[simp] theorem awaitBodyOf_expAddr (total : Val17) (s : State) : (awaitBodyOf total s).expAddr = s.expAddr := rfl
@[simp] theorem awaitBodyOf_expFn (total : Val17) (s : State) : (awaitBodyOf total s).expFn = s.expFn := rfl
@[simp] theorem awaitBodyOf_expVal (total : Val17) (s : State) : (awaitBodyOf total s).expVal = s.expVal := rfl
@[simp] theorem awaitBodyOf_rxT (total : Val17) (s : State) : (awaitBodyOf total s).rxT = s.rxT := rfl
@[simp] theorem awaitBodyOf_rxSt (total : Val17) (s : State) : (awaitBodyOf total s).rxSt = .awaitBody := rfl
@[simp] theorem awaitBodyOf_rxIdx (total : Val17) (s : State) : (awaitBodyOf total s).rxIdx = s.rxIdx := rfl
@[simp] theorem awaitBodyOf_rxTotal (total : Val17) (s : State) : (awaitBodyOf total s).rxTotal = total := rfl
@[simp] theorem awaitBodyOf_rxRem (total : Val17) (s : State) : (awaitBodyOf total s).rxRem = total - 4 := rfl
@[simp] theorem awaitBodyOf_rxLast (total : Val17) (s : State) : (awaitBodyOf total s).rxLast = s.rxLast := rfl
@[simp] theorem awaitBodyOf_buf (total : Val17) (s : State) : (awaitBodyOf total s).buf = s.buf := rfl
@[simp] theorem awaitBodyOf_crc (total : Val17) (s : State) : (awaitBodyOf total s).crc = s.crc := rfl
@[simp] theorem awaitBodyOf_txframe (total : Val17) (s : State) : (awaitBodyOf total s).txframe = s.txframe := rfl
@[simp] theorem awaitBodyOf_tTx (total : Val17) (s : State) : (awaitBodyOf total s).tTx = s.tTx := rfl
@[simp] theorem awaitBodyOf_timeout (total : Val17) (s : State) : (awaitBodyOf total s).timeout = s.timeout := rfl
@[simp] theorem awaitBodyOf_timeoutSet (total : Val17) (s : State) : (awaitBodyOf total s).timeoutSet = s.timeoutSet := rfl
@[simp] theorem awaitBodyOf_resStatus (total : Val17) (s : State) : (awaitBodyOf total s).resStatus = s.resStatus := rfl
@[simp] theorem awaitBodyOf_resFrame (total : Val17) (s : State) : (awaitBodyOf total s).resFrame = s.resFrame := rfl
@[simp] theorem awaitBodyOf_resValid (total : Val17) (s : State) : (awaitBodyOf total s).resValid = s.resValid := rfl
@[simp] theorem awaitBodyOf_inbound (total : Val17) (s : State) : (awaitBodyOf total s).inbound = s.inbound := rfl
@[simp] theorem awaitBodyOf_outbound (total : Val17) (s : State) : (awaitBodyOf total s).outbound = s.outbound := rfl
@[simp] theorem awaitBodyOf_clock (total : Val17) (s : State) : (awaitBodyOf total s).clock = s.clock := rfl
@[simp] theorem awaitBodyOf_retWord (total : Val17) (s : State) : (awaitBodyOf total s).retWord = s.retWord := rfl
@[simp] theorem awaitBodyOf_retBytes (total : Val17) (s : State) : (awaitBodyOf total s).retBytes = s.retBytes := rfl
@[simp] theorem awaitBodyOf_agenda (total : Val17) (s : State) : (awaitBodyOf total s).agenda = s.agenda := rfl
@[simp] theorem awaitBodyOf_draws (total : Val17) (s : State) : (awaitBodyOf total s).draws = s.draws := rfl

/-! ### `headerStep0` -/

@[simp] theorem headerStep0_phase (b : Byte) (s : State) : (headerStep0 b s).phase = s.phase := rfl
@[simp] theorem headerStep0_cmdOp (b : Byte) (s : State) : (headerStep0 b s).cmdOp = s.cmdOp := rfl
@[simp] theorem headerStep0_cmdDev (b : Byte) (s : State) : (headerStep0 b s).cmdDev = s.cmdDev := rfl
@[simp] theorem headerStep0_cmdReg (b : Byte) (s : State) : (headerStep0 b s).cmdReg = s.cmdReg := rfl
@[simp] theorem headerStep0_cmdArg (b : Byte) (s : State) : (headerStep0 b s).cmdArg = s.cmdArg := rfl
@[simp] theorem headerStep0_cmdData (b : Byte) (s : State) : (headerStep0 b s).cmdData = s.cmdData := rfl
@[simp] theorem headerStep0_portArg (b : Byte) (s : State) : (headerStep0 b s).portArg = s.portArg := rfl
@[simp] theorem headerStep0_portData (b : Byte) (s : State) : (headerStep0 b s).portData = s.portData := rfl
@[simp] theorem headerStep0_expAddr (b : Byte) (s : State) : (headerStep0 b s).expAddr = s.expAddr := rfl
@[simp] theorem headerStep0_expFn (b : Byte) (s : State) : (headerStep0 b s).expFn = s.expFn := rfl
@[simp] theorem headerStep0_expVal (b : Byte) (s : State) : (headerStep0 b s).expVal = s.expVal := rfl
@[simp] theorem headerStep0_rxT (b : Byte) (s : State) : (headerStep0 b s).rxT = s.rxT := rfl
@[simp] theorem headerStep0_rxSt (b : Byte) (s : State) : (headerStep0 b s).rxSt = s.rxSt := rfl
@[simp] theorem headerStep0_rxIdx (b : Byte) (s : State) : (headerStep0 b s).rxIdx = if b = s.expAddr then 1 else 0 := rfl
@[simp] theorem headerStep0_rxTotal (b : Byte) (s : State) : (headerStep0 b s).rxTotal = s.rxTotal := rfl
@[simp] theorem headerStep0_rxRem (b : Byte) (s : State) : (headerStep0 b s).rxRem = s.rxRem := rfl
@[simp] theorem headerStep0_rxLast (b : Byte) (s : State) : (headerStep0 b s).rxLast = s.rxLast := rfl
@[simp] theorem headerStep0_buf (b : Byte) (s : State) : (headerStep0 b s).buf = Memory.write s.buf 0 b := rfl
@[simp] theorem headerStep0_crc (b : Byte) (s : State) : (headerStep0 b s).crc = s.crc := rfl
@[simp] theorem headerStep0_txframe (b : Byte) (s : State) : (headerStep0 b s).txframe = s.txframe := rfl
@[simp] theorem headerStep0_tTx (b : Byte) (s : State) : (headerStep0 b s).tTx = s.tTx := rfl
@[simp] theorem headerStep0_timeout (b : Byte) (s : State) : (headerStep0 b s).timeout = s.timeout := rfl
@[simp] theorem headerStep0_timeoutSet (b : Byte) (s : State) : (headerStep0 b s).timeoutSet = s.timeoutSet := rfl
@[simp] theorem headerStep0_resStatus (b : Byte) (s : State) : (headerStep0 b s).resStatus = s.resStatus := rfl
@[simp] theorem headerStep0_resFrame (b : Byte) (s : State) : (headerStep0 b s).resFrame = s.resFrame := rfl
@[simp] theorem headerStep0_resValid (b : Byte) (s : State) : (headerStep0 b s).resValid = s.resValid := rfl
@[simp] theorem headerStep0_inbound (b : Byte) (s : State) : (headerStep0 b s).inbound = s.inbound := rfl
@[simp] theorem headerStep0_outbound (b : Byte) (s : State) : (headerStep0 b s).outbound = s.outbound := rfl
@[simp] theorem headerStep0_clock (b : Byte) (s : State) : (headerStep0 b s).clock = s.clock := rfl
@[simp] theorem headerStep0_retWord (b : Byte) (s : State) : (headerStep0 b s).retWord = s.retWord := rfl
@[simp] theorem headerStep0_retBytes (b : Byte) (s : State) : (headerStep0 b s).retBytes = s.retBytes := rfl
@[simp] theorem headerStep0_agenda (b : Byte) (s : State) : (headerStep0 b s).agenda = s.agenda := rfl
@[simp] theorem headerStep0_draws (b : Byte) (s : State) : (headerStep0 b s).draws = s.draws := rfl

/-! ### `headerStep1` -/

@[simp] theorem headerStep1_phase (b : Byte) (s : State) : (headerStep1 b s).phase = s.phase := rfl
@[simp] theorem headerStep1_cmdOp (b : Byte) (s : State) : (headerStep1 b s).cmdOp = s.cmdOp := rfl
@[simp] theorem headerStep1_cmdDev (b : Byte) (s : State) : (headerStep1 b s).cmdDev = s.cmdDev := rfl
@[simp] theorem headerStep1_cmdReg (b : Byte) (s : State) : (headerStep1 b s).cmdReg = s.cmdReg := rfl
@[simp] theorem headerStep1_cmdArg (b : Byte) (s : State) : (headerStep1 b s).cmdArg = s.cmdArg := rfl
@[simp] theorem headerStep1_cmdData (b : Byte) (s : State) : (headerStep1 b s).cmdData = s.cmdData := rfl
@[simp] theorem headerStep1_portArg (b : Byte) (s : State) : (headerStep1 b s).portArg = s.portArg := rfl
@[simp] theorem headerStep1_portData (b : Byte) (s : State) : (headerStep1 b s).portData = s.portData := rfl
@[simp] theorem headerStep1_expAddr (b : Byte) (s : State) : (headerStep1 b s).expAddr = s.expAddr := rfl
@[simp] theorem headerStep1_expFn (b : Byte) (s : State) : (headerStep1 b s).expFn = s.expFn := rfl
@[simp] theorem headerStep1_expVal (b : Byte) (s : State) : (headerStep1 b s).expVal = s.expVal := rfl
@[simp] theorem headerStep1_rxT (b : Byte) (s : State) : (headerStep1 b s).rxT = s.rxT := rfl
@[simp] theorem headerStep1_rxSt (b : Byte) (s : State) : (headerStep1 b s).rxSt = s.rxSt := rfl
@[simp] theorem headerStep1_rxIdx (b : Byte) (s : State) : (headerStep1 b s).rxIdx = if functionMatches b s.expFn then 2 else 0 := rfl
@[simp] theorem headerStep1_rxTotal (b : Byte) (s : State) : (headerStep1 b s).rxTotal = s.rxTotal := rfl
@[simp] theorem headerStep1_rxRem (b : Byte) (s : State) : (headerStep1 b s).rxRem = s.rxRem := rfl
@[simp] theorem headerStep1_rxLast (b : Byte) (s : State) : (headerStep1 b s).rxLast = s.rxLast := rfl
@[simp] theorem headerStep1_buf (b : Byte) (s : State) : (headerStep1 b s).buf = Memory.write s.buf 1 b := rfl
@[simp] theorem headerStep1_crc (b : Byte) (s : State) : (headerStep1 b s).crc = s.crc := rfl
@[simp] theorem headerStep1_txframe (b : Byte) (s : State) : (headerStep1 b s).txframe = s.txframe := rfl
@[simp] theorem headerStep1_tTx (b : Byte) (s : State) : (headerStep1 b s).tTx = s.tTx := rfl
@[simp] theorem headerStep1_timeout (b : Byte) (s : State) : (headerStep1 b s).timeout = s.timeout := rfl
@[simp] theorem headerStep1_timeoutSet (b : Byte) (s : State) : (headerStep1 b s).timeoutSet = s.timeoutSet := rfl
@[simp] theorem headerStep1_resStatus (b : Byte) (s : State) : (headerStep1 b s).resStatus = s.resStatus := rfl
@[simp] theorem headerStep1_resFrame (b : Byte) (s : State) : (headerStep1 b s).resFrame = s.resFrame := rfl
@[simp] theorem headerStep1_resValid (b : Byte) (s : State) : (headerStep1 b s).resValid = s.resValid := rfl
@[simp] theorem headerStep1_inbound (b : Byte) (s : State) : (headerStep1 b s).inbound = s.inbound := rfl
@[simp] theorem headerStep1_outbound (b : Byte) (s : State) : (headerStep1 b s).outbound = s.outbound := rfl
@[simp] theorem headerStep1_clock (b : Byte) (s : State) : (headerStep1 b s).clock = s.clock := rfl
@[simp] theorem headerStep1_retWord (b : Byte) (s : State) : (headerStep1 b s).retWord = s.retWord := rfl
@[simp] theorem headerStep1_retBytes (b : Byte) (s : State) : (headerStep1 b s).retBytes = s.retBytes := rfl
@[simp] theorem headerStep1_agenda (b : Byte) (s : State) : (headerStep1 b s).agenda = s.agenda := rfl
@[simp] theorem headerStep1_draws (b : Byte) (s : State) : (headerStep1 b s).draws = s.draws := rfl

/-! ### `headerStep2` -/

@[simp] theorem headerStep2_phase (b : Byte) (s : State) : (headerStep2 b s).phase = s.phase := rfl
@[simp] theorem headerStep2_cmdOp (b : Byte) (s : State) : (headerStep2 b s).cmdOp = s.cmdOp := rfl
@[simp] theorem headerStep2_cmdDev (b : Byte) (s : State) : (headerStep2 b s).cmdDev = s.cmdDev := rfl
@[simp] theorem headerStep2_cmdReg (b : Byte) (s : State) : (headerStep2 b s).cmdReg = s.cmdReg := rfl
@[simp] theorem headerStep2_cmdArg (b : Byte) (s : State) : (headerStep2 b s).cmdArg = s.cmdArg := rfl
@[simp] theorem headerStep2_cmdData (b : Byte) (s : State) : (headerStep2 b s).cmdData = s.cmdData := rfl
@[simp] theorem headerStep2_portArg (b : Byte) (s : State) : (headerStep2 b s).portArg = s.portArg := rfl
@[simp] theorem headerStep2_portData (b : Byte) (s : State) : (headerStep2 b s).portData = s.portData := rfl
@[simp] theorem headerStep2_expAddr (b : Byte) (s : State) : (headerStep2 b s).expAddr = s.expAddr := rfl
@[simp] theorem headerStep2_expFn (b : Byte) (s : State) : (headerStep2 b s).expFn = s.expFn := rfl
@[simp] theorem headerStep2_expVal (b : Byte) (s : State) : (headerStep2 b s).expVal = s.expVal := rfl
@[simp] theorem headerStep2_rxT (b : Byte) (s : State) : (headerStep2 b s).rxT = s.rxT := rfl
@[simp] theorem headerStep2_rxSt (b : Byte) (s : State) : (headerStep2 b s).rxSt = s.rxSt := rfl
@[simp] theorem headerStep2_rxIdx (b : Byte) (s : State) : (headerStep2 b s).rxIdx = 3 := rfl
@[simp] theorem headerStep2_rxTotal (b : Byte) (s : State) : (headerStep2 b s).rxTotal = s.rxTotal := rfl
@[simp] theorem headerStep2_rxRem (b : Byte) (s : State) : (headerStep2 b s).rxRem = s.rxRem := rfl
@[simp] theorem headerStep2_rxLast (b : Byte) (s : State) : (headerStep2 b s).rxLast = s.rxLast := rfl
@[simp] theorem headerStep2_buf (b : Byte) (s : State) : (headerStep2 b s).buf = Memory.write s.buf 2 b := rfl
@[simp] theorem headerStep2_crc (b : Byte) (s : State) : (headerStep2 b s).crc = s.crc := rfl
@[simp] theorem headerStep2_txframe (b : Byte) (s : State) : (headerStep2 b s).txframe = s.txframe := rfl
@[simp] theorem headerStep2_tTx (b : Byte) (s : State) : (headerStep2 b s).tTx = s.tTx := rfl
@[simp] theorem headerStep2_timeout (b : Byte) (s : State) : (headerStep2 b s).timeout = s.timeout := rfl
@[simp] theorem headerStep2_timeoutSet (b : Byte) (s : State) : (headerStep2 b s).timeoutSet = s.timeoutSet := rfl
@[simp] theorem headerStep2_resStatus (b : Byte) (s : State) : (headerStep2 b s).resStatus = s.resStatus := rfl
@[simp] theorem headerStep2_resFrame (b : Byte) (s : State) : (headerStep2 b s).resFrame = s.resFrame := rfl
@[simp] theorem headerStep2_resValid (b : Byte) (s : State) : (headerStep2 b s).resValid = s.resValid := rfl
@[simp] theorem headerStep2_inbound (b : Byte) (s : State) : (headerStep2 b s).inbound = s.inbound := rfl
@[simp] theorem headerStep2_outbound (b : Byte) (s : State) : (headerStep2 b s).outbound = s.outbound := rfl
@[simp] theorem headerStep2_clock (b : Byte) (s : State) : (headerStep2 b s).clock = s.clock := rfl
@[simp] theorem headerStep2_retWord (b : Byte) (s : State) : (headerStep2 b s).retWord = s.retWord := rfl
@[simp] theorem headerStep2_retBytes (b : Byte) (s : State) : (headerStep2 b s).retBytes = s.retBytes := rfl
@[simp] theorem headerStep2_agenda (b : Byte) (s : State) : (headerStep2 b s).agenda = s.agenda := rfl
@[simp] theorem headerStep2_draws (b : Byte) (s : State) : (headerStep2 b s).draws = s.draws := rfl

/-! ### `storeBody` -/

@[simp] theorem storeBody_phase (b : Byte) (s : State) : (storeBody b s).phase = s.phase := rfl
@[simp] theorem storeBody_cmdOp (b : Byte) (s : State) : (storeBody b s).cmdOp = s.cmdOp := rfl
@[simp] theorem storeBody_cmdDev (b : Byte) (s : State) : (storeBody b s).cmdDev = s.cmdDev := rfl
@[simp] theorem storeBody_cmdReg (b : Byte) (s : State) : (storeBody b s).cmdReg = s.cmdReg := rfl
@[simp] theorem storeBody_cmdArg (b : Byte) (s : State) : (storeBody b s).cmdArg = s.cmdArg := rfl
@[simp] theorem storeBody_cmdData (b : Byte) (s : State) : (storeBody b s).cmdData = s.cmdData := rfl
@[simp] theorem storeBody_portArg (b : Byte) (s : State) : (storeBody b s).portArg = s.portArg := rfl
@[simp] theorem storeBody_portData (b : Byte) (s : State) : (storeBody b s).portData = s.portData := rfl
@[simp] theorem storeBody_expAddr (b : Byte) (s : State) : (storeBody b s).expAddr = s.expAddr := rfl
@[simp] theorem storeBody_expFn (b : Byte) (s : State) : (storeBody b s).expFn = s.expFn := rfl
@[simp] theorem storeBody_expVal (b : Byte) (s : State) : (storeBody b s).expVal = s.expVal := rfl
@[simp] theorem storeBody_rxT (b : Byte) (s : State) : (storeBody b s).rxT = s.rxT := rfl
@[simp] theorem storeBody_rxSt (b : Byte) (s : State) : (storeBody b s).rxSt = s.rxSt := rfl
@[simp] theorem storeBody_rxIdx (b : Byte) (s : State) : (storeBody b s).rxIdx = s.rxIdx := rfl
@[simp] theorem storeBody_rxTotal (b : Byte) (s : State) : (storeBody b s).rxTotal = s.rxTotal := rfl
@[simp] theorem storeBody_rxRem (b : Byte) (s : State) : (storeBody b s).rxRem = s.rxRem - 1 := rfl
@[simp] theorem storeBody_rxLast (b : Byte) (s : State) : (storeBody b s).rxLast = s.rxLast := rfl
@[simp] theorem storeBody_buf (b : Byte) (s : State) : (storeBody b s).buf = Memory.write s.buf (bodyIndex s) b := rfl
@[simp] theorem storeBody_crc (b : Byte) (s : State) : (storeBody b s).crc = s.crc := rfl
@[simp] theorem storeBody_txframe (b : Byte) (s : State) : (storeBody b s).txframe = s.txframe := rfl
@[simp] theorem storeBody_tTx (b : Byte) (s : State) : (storeBody b s).tTx = s.tTx := rfl
@[simp] theorem storeBody_timeout (b : Byte) (s : State) : (storeBody b s).timeout = s.timeout := rfl
@[simp] theorem storeBody_timeoutSet (b : Byte) (s : State) : (storeBody b s).timeoutSet = s.timeoutSet := rfl
@[simp] theorem storeBody_resStatus (b : Byte) (s : State) : (storeBody b s).resStatus = s.resStatus := rfl
@[simp] theorem storeBody_resFrame (b : Byte) (s : State) : (storeBody b s).resFrame = s.resFrame := rfl
@[simp] theorem storeBody_resValid (b : Byte) (s : State) : (storeBody b s).resValid = s.resValid := rfl
@[simp] theorem storeBody_inbound (b : Byte) (s : State) : (storeBody b s).inbound = s.inbound := rfl
@[simp] theorem storeBody_outbound (b : Byte) (s : State) : (storeBody b s).outbound = s.outbound := rfl
@[simp] theorem storeBody_clock (b : Byte) (s : State) : (storeBody b s).clock = s.clock := rfl
@[simp] theorem storeBody_retWord (b : Byte) (s : State) : (storeBody b s).retWord = s.retWord := rfl
@[simp] theorem storeBody_retBytes (b : Byte) (s : State) : (storeBody b s).retBytes = s.retBytes := rfl
@[simp] theorem storeBody_agenda (b : Byte) (s : State) : (storeBody b s).agenda = s.agenda := rfl
@[simp] theorem storeBody_draws (b : Byte) (s : State) : (storeBody b s).draws = s.draws := rfl

/-! ### `scheduleMove` -/

@[simp] theorem scheduleMove_phase (m : Move) (s : State) : (scheduleMove m s).phase = s.phase := rfl
@[simp] theorem scheduleMove_cmdOp (m : Move) (s : State) : (scheduleMove m s).cmdOp = s.cmdOp := rfl
@[simp] theorem scheduleMove_cmdDev (m : Move) (s : State) : (scheduleMove m s).cmdDev = s.cmdDev := rfl
@[simp] theorem scheduleMove_cmdReg (m : Move) (s : State) : (scheduleMove m s).cmdReg = s.cmdReg := rfl
@[simp] theorem scheduleMove_cmdArg (m : Move) (s : State) : (scheduleMove m s).cmdArg = s.cmdArg := rfl
@[simp] theorem scheduleMove_cmdData (m : Move) (s : State) : (scheduleMove m s).cmdData = s.cmdData := rfl
@[simp] theorem scheduleMove_portArg (m : Move) (s : State) : (scheduleMove m s).portArg = s.portArg := rfl
@[simp] theorem scheduleMove_portData (m : Move) (s : State) : (scheduleMove m s).portData = s.portData := rfl
@[simp] theorem scheduleMove_expAddr (m : Move) (s : State) : (scheduleMove m s).expAddr = s.expAddr := rfl
@[simp] theorem scheduleMove_expFn (m : Move) (s : State) : (scheduleMove m s).expFn = s.expFn := rfl
@[simp] theorem scheduleMove_expVal (m : Move) (s : State) : (scheduleMove m s).expVal = s.expVal := rfl
@[simp] theorem scheduleMove_rxT (m : Move) (s : State) : (scheduleMove m s).rxT = s.rxT := rfl
@[simp] theorem scheduleMove_rxSt (m : Move) (s : State) : (scheduleMove m s).rxSt = s.rxSt := rfl
@[simp] theorem scheduleMove_rxIdx (m : Move) (s : State) : (scheduleMove m s).rxIdx = s.rxIdx := rfl
@[simp] theorem scheduleMove_rxTotal (m : Move) (s : State) : (scheduleMove m s).rxTotal = s.rxTotal := rfl
@[simp] theorem scheduleMove_rxRem (m : Move) (s : State) : (scheduleMove m s).rxRem = s.rxRem := rfl
@[simp] theorem scheduleMove_rxLast (m : Move) (s : State) : (scheduleMove m s).rxLast = s.rxLast := rfl
@[simp] theorem scheduleMove_buf (m : Move) (s : State) : (scheduleMove m s).buf = s.buf := rfl
@[simp] theorem scheduleMove_crc (m : Move) (s : State) : (scheduleMove m s).crc = s.crc := rfl
@[simp] theorem scheduleMove_txframe (m : Move) (s : State) : (scheduleMove m s).txframe = s.txframe := rfl
@[simp] theorem scheduleMove_tTx (m : Move) (s : State) : (scheduleMove m s).tTx = s.tTx := rfl
@[simp] theorem scheduleMove_timeout (m : Move) (s : State) : (scheduleMove m s).timeout = s.timeout := rfl
@[simp] theorem scheduleMove_timeoutSet (m : Move) (s : State) : (scheduleMove m s).timeoutSet = s.timeoutSet := rfl
@[simp] theorem scheduleMove_resStatus (m : Move) (s : State) : (scheduleMove m s).resStatus = s.resStatus := rfl
@[simp] theorem scheduleMove_resFrame (m : Move) (s : State) : (scheduleMove m s).resFrame = s.resFrame := rfl
@[simp] theorem scheduleMove_resValid (m : Move) (s : State) : (scheduleMove m s).resValid = s.resValid := rfl
@[simp] theorem scheduleMove_inbound (m : Move) (s : State) : (scheduleMove m s).inbound = s.inbound := rfl
@[simp] theorem scheduleMove_outbound (m : Move) (s : State) : (scheduleMove m s).outbound = s.outbound := rfl
@[simp] theorem scheduleMove_clock (m : Move) (s : State) : (scheduleMove m s).clock = s.clock := rfl
@[simp] theorem scheduleMove_retWord (m : Move) (s : State) : (scheduleMove m s).retWord = s.retWord := rfl
@[simp] theorem scheduleMove_retBytes (m : Move) (s : State) : (scheduleMove m s).retBytes = s.retBytes := rfl
@[simp] theorem scheduleMove_agenda (m : Move) (s : State) : (scheduleMove m s).agenda = m :: s.agenda := rfl
@[simp] theorem scheduleMove_draws (m : Move) (s : State) : (scheduleMove m s).draws = s.draws := rfl

/-! ### `drivePort` -/

@[simp] theorem drivePort_command (c : PortCmd) (s : State) :
    drivePort (.command c) s = { s with portArg := c.arg, portData := c.data } := rfl
@[simp] theorem drivePort_issue (c : PortCmd) (s : State) :
    drivePort (.issue c) s = { s with portArg := c.arg, portData := c.data } := rfl
@[simp] theorem drivePort_phase (m : Move) (s : State) : (drivePort m s).phase = s.phase := by cases m <;> rfl
@[simp] theorem drivePort_cmdOp (m : Move) (s : State) : (drivePort m s).cmdOp = s.cmdOp := by cases m <;> rfl
@[simp] theorem drivePort_cmdDev (m : Move) (s : State) : (drivePort m s).cmdDev = s.cmdDev := by cases m <;> rfl
@[simp] theorem drivePort_cmdReg (m : Move) (s : State) : (drivePort m s).cmdReg = s.cmdReg := by cases m <;> rfl
@[simp] theorem drivePort_cmdArg (m : Move) (s : State) : (drivePort m s).cmdArg = s.cmdArg := by cases m <;> rfl
@[simp] theorem drivePort_cmdData (m : Move) (s : State) : (drivePort m s).cmdData = s.cmdData := by cases m <;> rfl
@[simp] theorem drivePort_expAddr (m : Move) (s : State) : (drivePort m s).expAddr = s.expAddr := by cases m <;> rfl
@[simp] theorem drivePort_expFn (m : Move) (s : State) : (drivePort m s).expFn = s.expFn := by cases m <;> rfl
@[simp] theorem drivePort_expVal (m : Move) (s : State) : (drivePort m s).expVal = s.expVal := by cases m <;> rfl
@[simp] theorem drivePort_rxT (m : Move) (s : State) : (drivePort m s).rxT = s.rxT := by cases m <;> rfl
@[simp] theorem drivePort_rxSt (m : Move) (s : State) : (drivePort m s).rxSt = s.rxSt := by cases m <;> rfl
@[simp] theorem drivePort_rxIdx (m : Move) (s : State) : (drivePort m s).rxIdx = s.rxIdx := by cases m <;> rfl
@[simp] theorem drivePort_rxTotal (m : Move) (s : State) : (drivePort m s).rxTotal = s.rxTotal := by cases m <;> rfl
@[simp] theorem drivePort_rxRem (m : Move) (s : State) : (drivePort m s).rxRem = s.rxRem := by cases m <;> rfl
@[simp] theorem drivePort_rxLast (m : Move) (s : State) : (drivePort m s).rxLast = s.rxLast := by cases m <;> rfl
@[simp] theorem drivePort_buf (m : Move) (s : State) : (drivePort m s).buf = s.buf := by cases m <;> rfl
@[simp] theorem drivePort_crc (m : Move) (s : State) : (drivePort m s).crc = s.crc := by cases m <;> rfl
@[simp] theorem drivePort_txframe (m : Move) (s : State) : (drivePort m s).txframe = s.txframe := by cases m <;> rfl
@[simp] theorem drivePort_tTx (m : Move) (s : State) : (drivePort m s).tTx = s.tTx := by cases m <;> rfl
@[simp] theorem drivePort_timeout (m : Move) (s : State) : (drivePort m s).timeout = s.timeout := by cases m <;> rfl
@[simp] theorem drivePort_timeoutSet (m : Move) (s : State) : (drivePort m s).timeoutSet = s.timeoutSet := by cases m <;> rfl
@[simp] theorem drivePort_resStatus (m : Move) (s : State) : (drivePort m s).resStatus = s.resStatus := by cases m <;> rfl
@[simp] theorem drivePort_resFrame (m : Move) (s : State) : (drivePort m s).resFrame = s.resFrame := by cases m <;> rfl
@[simp] theorem drivePort_resValid (m : Move) (s : State) : (drivePort m s).resValid = s.resValid := by cases m <;> rfl
@[simp] theorem drivePort_inbound (m : Move) (s : State) : (drivePort m s).inbound = s.inbound := by cases m <;> rfl
@[simp] theorem drivePort_outbound (m : Move) (s : State) : (drivePort m s).outbound = s.outbound := by cases m <;> rfl
@[simp] theorem drivePort_clock (m : Move) (s : State) : (drivePort m s).clock = s.clock := by cases m <;> rfl
@[simp] theorem drivePort_retWord (m : Move) (s : State) : (drivePort m s).retWord = s.retWord := by cases m <;> rfl
@[simp] theorem drivePort_retBytes (m : Move) (s : State) : (drivePort m s).retBytes = s.retBytes := by cases m <;> rfl
@[simp] theorem drivePort_agenda (m : Move) (s : State) : (drivePort m s).agenda = s.agenda := by cases m <;> rfl
@[simp] theorem drivePort_draws (m : Move) (s : State) : (drivePort m s).draws = s.draws := by cases m <;> rfl

end Sys2Proof.Machine
end

