-- ==== Sys2Proof/Laws/Receiver.lean ====
section
/-! SUPPORT. The receiver said once: what a poll does, what `DecideLength` decides, what the bytes of a whole frame
lead to, that a sound receiver never faults, and what receiving leaves alone. -/

namespace Sys2Proof.Machine

open Safety

@[simp] theorem andThen_next (s : State) (k : State → StepResult) : andThen (.next s) k = k s := rfl
@[simp] theorem andThen_fault (r : Fault) (k : State → StepResult) : andThen (.fault r) k = .fault r := rfl
@[simp] theorem andThen_refused (r : Refusal) (k : State → StepResult) : andThen (.refused r) k = .refused r := rfl

theorem andThen_eq_next {o : StepResult} {k : State → StepResult} {t : State} (h : andThen o k = .next t) :
    ∃ s, o = .next s ∧ k s = .next t := by
  cases o with
  | next s => exact ⟨s, rfl, h⟩
  | fault r => cases h
  | refused r => cases h

theorem andThen_assoc (o : StepResult) (k l : State → StepResult) :
    andThen (andThen o k) l = andThen o fun s => andThen (k s) l := by cases o <;> rfl

/-! ### One poll -/

/-- What a poll consumed: the state its step starts from (R114). -/
def consumed (rest : List Byte) (s : State) : State := { s with inbound := rest, rxLast := s.clock }

theorem rxWaiting_iff (s : State) :
    rxWaiting s = true ↔ s.rxSt = .awaitHeaderByte ∨ s.rxSt = .awaitBody := by
  simp [rxWaiting]

theorem poll_byte {s : State} {b : Byte} {rest : List Byte} (hw : rxWaiting s = true)
    (hin : s.inbound = b :: rest) : poll s = takeByte b (consumed rest s) := by
  simp [poll, hw, rxRead1, hin, consumed, now]

theorem poll_idle {s : State} (hw : rxWaiting s = true) (hin : s.inbound = []) :
    poll s = .next (timeoutTest s) := by
  simp [poll, hw, rxRead1, hin]

theorem poll_terminal {s : State} (hw : rxWaiting s = false) : poll s = .next s := by
  simp [poll, hw]

/-! ### `DecideLength` -/

/-- The total length `DecideLength` decides from the function byte, the two bytes after it and the receiver's inputs
(R120 to R122); none is a resynchronisation. -/
def lengthOf (ef : Byte) (ev : Val17) (b1 b2 b3 : Byte) : Option Val17 :=
  if exceptionFlag b1 then some 5
  else if isWriteByte ef then if word b2 b3 ≠ ev.setWidth 16 then none else some 8
  else if ev.toNat < 256 then some (b2.setWidth 17 + 5)
  else some ((word b2 b3).setWidth 17 + 6)

theorem decideLength_eq (s : State) :
    decideLength s =
      match lengthOf s.expFn s.expVal (Memory.read s.buf 1) (Memory.read s.buf 2) (Memory.read s.buf 3) with
      | some total => awaitBodyOf total s
      | none => { s with rxIdx := 0, rxSt := .awaitHeaderByte } := by
  simp only [decideLength, lengthOf, heldExceptionFlag, Config.excFrameLen, Config.echoFrameLen,
    Config.len2Threshold, Config.read1Overhead, Config.read2Overhead]
  by_cases h1 : exceptionFlag (Memory.read s.buf 1) = true
  · simp [h1]
  · by_cases h2 : isWriteByte s.expFn = true
    · by_cases h3 : word (Memory.read s.buf 2) (Memory.read s.buf 3) = s.expVal.setWidth 16 <;> simp [h1, h2, h3]
    · by_cases h3 : s.expVal.toNat < 256 <;> simp [h1, h2, h3]

theorem toNat_sub_four {v : Val17} (h : 4 ≤ v.toNat) : (v - 4).toNat = v.toNat - 4 := by
  rw [BitVec.toNat_sub_of_le (by simpa [BitVec.le_def] using h)]; rfl

/-- The bounds of R131: a decided length is at least 5 and at most `FRAME_MAX`. -/
theorem lengthOf_bounds {ef b1 b2 b3 : Byte} {ev total : Val17} (h : lengthOf ef ev b1 b2 b3 = some total) :
    5 ≤ total.toNat ∧ total.toNat ≤ 65541 := by
  unfold lengthOf at h
  split at h
  · cases h; decide
  · split at h
    · split at h
      · cases h
      · cases h; decide
    · split at h
      · cases h
        have := b2.isLt
        simp [BitVec.toNat_add, BitVec.toNat_setWidth]; omega
      · cases h
        have := (word b2 b3).isLt
        simp [BitVec.toNat_add, BitVec.toNat_setWidth]; omega

/-! ### What receiving leaves alone -/

theorem sameOutside_refl (s : State) : SameOutsideReceiver s s := by constructor <;> rfl

theorem sameOutside_trans {s t u : State} (h1 : SameOutsideReceiver s t) (h2 : SameOutsideReceiver t u) :
    SameOutsideReceiver s u := by
  constructor <;> simp only [h2.cmdOp, h2.cmdDev, h2.cmdReg, h2.cmdArg, h2.cmdData, h2.portArg, h2.portData, h2.expAddr, h2.expFn, h2.expVal, h2.rxT, h2.txframe, h2.tTx, h2.timeout, h2.timeoutSet, h2.outbound, h2.clock, h2.retWord, h2.retBytes, h2.agenda, h2.draws,
    h1.cmdOp, h1.cmdDev, h1.cmdReg, h1.cmdArg, h1.cmdData, h1.portArg, h1.portData, h1.expAddr,
    h1.expFn, h1.expVal, h1.rxT, h1.txframe, h1.tTx, h1.timeout,
    h1.timeoutSet, h1.outbound, h1.clock, h1.retWord, h1.retBytes, h1.agenda,
    h1.draws]

theorem consumed_same (rest : List Byte) (s : State) : SameOutsideReceiver s (consumed rest s) := by
  (constructor <;> simp [consumed])

theorem deliver_same (bs : List Byte) (s : State) : SameOutsideReceiver s (deliver bs s) := by
  (constructor <;> simp)

theorem decideLength_same (s : State) : SameOutsideReceiver s (decideLength s) := by
  rw [decideLength_eq]
  split <;> (constructor <;> simp)

theorem timeoutTest_same (s : State) : SameOutsideReceiver s (timeoutTest s) := by
  unfold timeoutTest timedOut
  split <;> (constructor <;> simp)

theorem verify_eq (s : State) :
    verify s =
      if 2 ≤ s.rxTotal.toNat ∧ s.rxTotal.toNat ≤ 65541 then
        .next
          (if crc16 (memRead s.buf 0 (s.rxTotal.toNat - 2)) =
              word (Memory.read s.buf (s.rxTotal.toNat - 2)) (Memory.read s.buf (s.rxTotal.toNat - 1)) then
            complete { s with crc := crcRaw (memRead s.buf 0 (s.rxTotal.toNat - 2)) }
          else crcMismatch { s with crc := crcRaw (memRead s.buf 0 (s.rxTotal.toNat - 2)) })
      else .fault .bufRange := by
  simp [verify, crc16Op_eq, Config.frameMax]

theorem takeByte_header0 {b : Byte} {s : State} (hst : s.rxSt = .awaitHeaderByte) (h : s.rxIdx = 0) :
    takeByte b s = .next (headerStep0 b s) := by
  rw [takeByte, if_pos hst, headerStep, if_pos h]

theorem takeByte_header1 {b : Byte} {s : State} (hst : s.rxSt = .awaitHeaderByte) (h : s.rxIdx = 1) :
    takeByte b s = .next (headerStep1 b s) := by
  rw [takeByte, if_pos hst, headerStep, if_neg (by rw [h]; decide), if_pos h]

theorem takeByte_header2 {b : Byte} {s : State} (hst : s.rxSt = .awaitHeaderByte) (h : s.rxIdx = 2) :
    takeByte b s = .next (headerStep2 b s) := by
  rw [takeByte, if_pos hst, headerStep, if_neg (by rw [h]; decide), if_neg (by rw [h]; decide), if_pos h]

theorem takeByte_header3 {b : Byte} {s : State} (hst : s.rxSt = .awaitHeaderByte) (h : s.rxIdx = 3) :
    takeByte b s = .next (headerStep3 b s) := by
  rw [takeByte, if_pos hst, headerStep, if_neg (by rw [h]; decide), if_neg (by rw [h]; decide),
    if_neg (by rw [h]; decide), if_pos h]

theorem takeByte_body {b : Byte} {s : State} (hst : s.rxSt = .awaitBody) (h : bodyIndex s < 65541) :
    takeByte b s = afterBodyByte (storeBody b s) := by
  rw [takeByte, if_neg (by rw [hst]; decide), bodyStep, Config.frameMax, if_pos h]

/-- The step of a consumed byte said once: a header step, a body byte, or the last byte and its verification. -/
theorem takeByte_cases {b : Byte} {s t : State} (h : takeByte b s = .next t) :
    (s.rxSt = .awaitHeaderByte ∧ s.rxIdx = 0 ∧ t = headerStep0 b s) ∨
    (s.rxSt = .awaitHeaderByte ∧ s.rxIdx = 1 ∧ t = headerStep1 b s) ∨
    (s.rxSt = .awaitHeaderByte ∧ s.rxIdx = 2 ∧ t = headerStep2 b s) ∨
    (s.rxSt = .awaitHeaderByte ∧ s.rxIdx = 3 ∧ t = headerStep3 b s) ∨
    (s.rxSt ≠ .awaitHeaderByte ∧ bodyIndex s < 65541 ∧
      ((s.rxRem - 1 ≠ 0 ∧ t = storeBody b s) ∨ (s.rxRem - 1 = 0 ∧ verify (storeBody b s) = .next t))) := by
  unfold takeByte at h
  split at h
  · next hst =>
    unfold headerStep at h
    split at h
    · next h0 => cases h; exact .inl ⟨hst, h0, rfl⟩
    · split at h
      · next h1 => cases h; exact .inr (.inl ⟨hst, h1, rfl⟩)
      · split at h
        · next h2 => cases h; exact .inr (.inr (.inl ⟨hst, h2, rfl⟩))
        · split at h
          · next h3 => cases h; exact .inr (.inr (.inr (.inl ⟨hst, h3, rfl⟩)))
          · cases h
  · next hst =>
    refine .inr (.inr (.inr (.inr ⟨hst, ?_⟩)))
    unfold bodyStep at h
    split at h
    · next hr =>
      refine ⟨hr, ?_⟩
      unfold afterBodyByte at h
      split at h
      · next h0 => exact .inr ⟨h0, h⟩
      · next h0 => cases h; exact .inl ⟨h0, rfl⟩
    · cases h

theorem verify_same {s t : State} (h : verify s = .next t) : SameOutsideReceiver s t := by
  rw [verify_eq] at h
  split at h
  · cases h
    split <;> (constructor <;> simp [complete, crcMismatch])
  · cases h

theorem takeByte_same {b : Byte} {s t : State} (h : takeByte b s = .next t) : SameOutsideReceiver s t := by
  rcases takeByte_cases h with ⟨-, -, rfl⟩ | ⟨-, -, rfl⟩ | ⟨-, -, rfl⟩ | ⟨-, -, rfl⟩ | ⟨-, -, h⟩
  · (constructor <;> simp)
  · (constructor <;> simp)
  · (constructor <;> simp)
  · exact sameOutside_trans (by (constructor <;> simp)) (decideLength_same _)
  · have hs : SameOutsideReceiver s (storeBody b s) := by constructor <;> simp
    rcases h with ⟨-, rfl⟩ | ⟨-, h⟩
    · exact hs
    · exact sameOutside_trans hs (verify_same h)

theorem poll_same {s t : State} (h : poll s = .next t) : SameOutsideReceiver s t := by
  by_cases hw : rxWaiting s = true
  · cases hin : s.inbound with
    | nil => rw [poll_idle hw hin] at h; cases h; exact timeoutTest_same s
    | cons b rest => rw [poll_byte hw hin] at h; exact sameOutside_trans (consumed_same rest s) (takeByte_same h)
  · rw [poll_terminal (by simpa using hw)] at h; cases h; exact sameOutside_refl _

theorem drain_same {n : Nat} {s t : State} (h : drain n s = .next t) : SameOutsideReceiver s t := by
  induction n generalizing s with
  | zero => cases h; exact sameOutside_refl _
  | succ n ih =>
    unfold drain at h
    split at h
    · obtain ⟨u, hu, h⟩ := andThen_eq_next h
      exact sameOutside_trans (poll_same hu) (ih h)
    · cases h; exact sameOutside_refl _

theorem burst_same {bs : List Byte} {s t : State} (h : burst bs s = .next t) : SameOutsideReceiver s t :=
  sameOutside_trans (deliver_same bs s) (drain_same h)

/-! ### A sound receiver never faults -/

/-- A verified frame is delivered: `DONE`, by completion or by mismatch. -/
theorem verify_next {s : State} (h1 : 5 ≤ s.rxTotal.toNat) (h2 : s.rxTotal.toNat ≤ 65541) :
    ∃ t, verify s = .next t ∧ t.phase = .done ∧ t.resValid = true := by
  rw [verify_eq, if_pos ⟨by omega, h2⟩]
  refine ⟨_, rfl, ?_⟩
  split <;> simp [complete, crcMismatch]

theorem decideLength_live (s : State) :
    RxLive (decideLength s) ∧ (decideLength s).phase = s.phase ∧ (decideLength s).inbound = s.inbound := by
  rw [decideLength_eq]
  split
  · next total h =>
    have hb := lengthOf_bounds h
    have h4 := toNat_sub_four (v := total) (by omega)
    refine ⟨.inr ⟨rfl, ?_, ?_, hb.1, hb.2⟩, rfl, rfl⟩
    · change 1 ≤ (total - 4).toNat; omega
    · change (total - 4).toNat + 4 ≤ total.toNat; omega
  · exact ⟨.inl ⟨rfl, by simp⟩, rfl, rfl⟩

theorem toNat_body_index {total rem : Val17} (h : rem.toNat ≤ total.toNat) :
    (total - rem).toNat = total.toNat - rem.toNat :=
  BitVec.toNat_sub_of_le (by simpa [BitVec.le_def] using h)

theorem toNat_pred {rem : Val17} (h : 1 ≤ rem.toNat) : (rem - 1).toNat = rem.toNat - 1 := by
  rw [BitVec.toNat_sub_of_le (by simpa [BitVec.le_def] using h)]; rfl

theorem eq_zero_iff_toNat {n : Nat} (v : BitVec n) : v = 0 ↔ v.toNat = 0 := by
  constructor
  · rintro rfl; simp
  · intro h; exact BitVec.eq_of_toNat_eq (by simpa using h)

/-- From a live receiver the step of a byte answers next: live again in the same phase, or the result delivered; and
no byte is taken but the one consumed. -/
theorem takeByte_live {s : State} (b : Byte) (hl : RxLive s) :
    ∃ t, takeByte b s = .next t ∧ t.inbound = s.inbound ∧
      ((t.phase = s.phase ∧ t.resValid = s.resValid ∧ RxLive t) ∨ (t.phase = .done ∧ t.resValid = true)) := by
  rcases hl with ⟨hst, hidx⟩ | ⟨hst, h1, h4, h5, hmax⟩
  · have hcase : s.rxIdx = 0 ∨ s.rxIdx = 1 ∨ s.rxIdx = 2 ∨ s.rxIdx = 3 := by
      generalize s.rxIdx = i at hidx
      revert i; decide
    rcases hcase with h | h | h | h
    · refine ⟨headerStep0 b s, takeByte_header0 hst h, rfl, .inl ⟨rfl, rfl, .inl ⟨hst, ?_⟩⟩⟩
      simp only [headerStep0_rxIdx]; split <;> decide
    · refine ⟨headerStep1 b s, takeByte_header1 hst h, rfl, .inl ⟨rfl, rfl, .inl ⟨hst, ?_⟩⟩⟩
      simp only [headerStep1_rxIdx]; split <;> decide
    · exact ⟨headerStep2 b s, takeByte_header2 hst h, rfl, .inl ⟨rfl, rfl, .inl ⟨hst, by simp⟩⟩⟩
    · obtain ⟨hl, hp, hi⟩ := decideLength_live { storeByte 3 b s with rxIdx := 4 }
      refine ⟨headerStep3 b s, takeByte_header3 hst h, hi, .inl ⟨hp, ?_, hl⟩⟩
      unfold headerStep3; rw [decideLength_eq]; split <;> rfl
  · have hi : bodyIndex s < 65541 := by rw [bodyIndex, toNat_body_index (by omega)]; omega
    have hb : takeByte b s = afterBodyByte (storeBody b s) := takeByte_body hst hi
    have hpred := toNat_pred h1
    by_cases h0 : s.rxRem - 1 = 0
    · have hv : takeByte b s = verify (storeBody b s) := by rw [hb]; exact if_pos h0
      obtain ⟨t, ht, hd, hv'⟩ := verify_next (s := storeBody b s) h5 hmax
      refine ⟨t, hv.trans ht, ?_, .inr ⟨hd, hv'⟩⟩
      rw [verify_eq, if_pos ⟨by rw [storeBody_rxTotal]; omega, hmax⟩] at ht
      cases ht
      split <;> simp [complete, crcMismatch]
    · refine ⟨storeBody b s, by rw [hb]; exact if_neg h0, rfl, .inl ⟨rfl, rfl, .inr ⟨hst, ?_, ?_, h5, hmax⟩⟩⟩
      · have := mt (eq_zero_iff_toNat (s.rxRem - 1)).2 h0
        rw [storeBody_rxRem]; omega
      · rw [storeBody_rxRem, storeBody_rxTotal]; omega

/-- From a live receiver with bytes waiting, draining answers next: either the result is delivered, or every byte was
taken and the receiver is live. -/
theorem drain_live {n : Nat} {s : State} (hp : s.phase = .receive) (hl : RxLive s) (hn : s.inbound.length ≤ n) :
    ∃ t, drain n s = .next t ∧
      ((t.phase = .receive ∧ RxLive t ∧ t.inbound = [] ∧ t.resValid = s.resValid) ∨
        (t.phase = .done ∧ t.resValid = true)) := by
  induction n generalizing s with
  | zero => exact ⟨s, rfl, .inl ⟨hp, hl, List.length_eq_zero_iff.1 (by omega), rfl⟩⟩
  | succ n ih =>
    have hw : rxWaiting s = true := (rxWaiting_iff s).2 (hl.imp (·.1) (·.1))
    cases hin : s.inbound with
    | nil => exact ⟨s, by simp [drain, rxAvail, hin], .inl ⟨hp, hl, hin, rfl⟩⟩
    | cons b rest =>
      have hd : drain (n + 1) s = andThen (takeByte b (consumed rest s)) (drain n) := by
        rw [drain, if_pos ⟨hp, hw, by simp [rxAvail, hin]⟩, poll_byte hw hin]
      obtain ⟨u, hu, hui, hcase⟩ := takeByte_live (s := consumed rest s) b hl
      rw [hd, hu, andThen_next]
      rcases hcase with ⟨hup, huv, hul⟩ | ⟨hup, huv⟩
      · have hlen : u.inbound.length ≤ n := by
          rw [hui]; simp [hin] at hn; simpa [consumed] using hn
        obtain ⟨t, ht, hc⟩ := ih (hup.trans hp) hul hlen
        refine ⟨t, ht, ?_⟩
        rcases hc with ⟨a1, a2, a3, a4⟩ | hc
        · exact .inl ⟨a1, a2, a3, a4.trans huv⟩
        · exact .inr hc
      · refine ⟨u, ?_, .inr ⟨hup, huv⟩⟩
        cases n with
        | zero => rfl
        | succ n => simp [drain, hup]

theorem drain_stop {n : Nat} {s : State} (h : s.phase ≠ .receive) : drain n s = .next s := by
  cases n with
  | zero => rfl
  | succ n => simp [drain, h]

/-- Outside the receive phase a burst only waits in the inbound buffer. -/
theorem burst_waits {bs : List Byte} {s : State} (h : s.phase ≠ .receive) : burst bs s = .next (deliver bs s) :=
  drain_stop h

/-! ### The bytes of a whole frame -/

/-- A byte that is ready is taken. -/
theorem drain_cons {n : Nat} {s : State} {b : Byte} {rest : List Byte} (hp : s.phase = .receive)
    (hw : rxWaiting s = true) (hin : s.inbound = b :: rest) :
    drain (n + 1) s = andThen (takeByte b (consumed rest s)) (drain n) := by
  rw [drain, if_pos ⟨hp, hw, by simp [rxAvail, hin]⟩, poll_byte hw hin]

/-- The remaining bytes of a frame are stored one after the other and then verified (R123, R124). -/
theorem drain_body {bs rest : List Byte} {s : State} {n : Nat} (hne : bs ≠ []) (hp : s.phase = .receive)
    (hst : s.rxSt = .awaitBody) (hrem : s.rxRem.toNat = bs.length) (htot : bs.length ≤ s.rxTotal.toNat)
    (hmax : s.rxTotal.toNat ≤ 65541) (hin : s.inbound = bs ++ rest) (hn : bs.length ≤ n) :
    drain n s =
      andThen
        (verify
          { s with
            inbound := rest, rxLast := s.clock, rxRem := 0
            buf := memWrite s.buf (s.rxTotal.toNat - bs.length) bs })
        (drain (n - bs.length)) := by
  induction bs generalizing s n with
  | nil => exact absurd rfl hne
  | cons b bs ih =>
    obtain ⟨n, rfl⟩ : ∃ m, n = m + 1 := ⟨n - 1, by simp at hn; omega⟩
    have hw : rxWaiting s = true := (rxWaiting_iff s).2 (.inr hst)
    rw [drain_cons hp hw (by simpa using hin)]
    have hlen : (b :: bs).length = bs.length + 1 := rfl
    have hidx : bodyIndex (consumed (bs ++ rest) s) = s.rxTotal.toNat - (bs.length + 1) := by
      change (s.rxTotal - s.rxRem).toNat = _
      rw [toNat_body_index (by omega), hrem, hlen]
    have hlt : bodyIndex (consumed (bs ++ rest) s) < 65541 := by rw [hidx]; omega
    have hpred : (s.rxRem - 1).toNat = bs.length := by rw [toNat_pred (by omega), hrem, hlen]; rfl
    have htb : takeByte b (consumed (bs ++ rest) s) = afterBodyByte (storeBody b (consumed (bs ++ rest) s)) :=
      takeByte_body hst hlt
    rw [htb]
    have hstore : storeBody b (consumed (bs ++ rest) s) =
        { s with
          inbound := bs ++ rest, rxLast := s.clock, rxRem := s.rxRem - 1
          buf := Memory.write s.buf (s.rxTotal.toNat - (bs.length + 1)) b } := by
      rw [← hidx]; rfl
    rw [hstore]
    by_cases hb : bs = []
    · subst hb
      have h0 : s.rxRem - 1 = 0 := (eq_zero_iff_toNat _).2 hpred
      rw [afterBodyByte, if_pos h0]
      simp only [h0]
      rfl
    · have h0 : s.rxRem - 1 ≠ 0 := by
        rw [Ne, eq_zero_iff_toNat, hpred]; simpa [List.length_eq_zero_iff] using hb
      rw [afterBodyByte, if_neg h0, andThen_next]
      rw [ih (s := { s with
          inbound := bs ++ rest, rxLast := s.clock, rxRem := s.rxRem - 1
          buf := Memory.write s.buf (s.rxTotal.toNat - (bs.length + 1)) b }) hb hp hst hpred
        (by change bs.length ≤ s.rxTotal.toNat; omega) hmax rfl (by simp at hn; omega)]
      have hix : s.rxTotal.toNat - bs.length = s.rxTotal.toNat - (bs.length + 1) + 1 := by omega
      have hsub : n + 1 - (b :: bs).length = n - bs.length := by simp
      rw [hsub]
      simp only [hix, memWrite, List.length_cons]

/-- The four header bytes of a reply that matches, up to `DecideLength` (R116 to R119). -/
theorem drain_header {b0 b1 b2 b3 : Byte} {rest : List Byte} {s : State} {n : Nat} (hp : s.phase = .receive)
    (hst : s.rxSt = .awaitHeaderByte) (hidx : s.rxIdx = 0) (ha : b0 = s.expAddr)
    (hf : functionMatches b1 s.expFn = true) (hin : s.inbound = b0 :: b1 :: b2 :: b3 :: rest) (hn : 4 ≤ n) :
    drain n s =
      drain (n - 4)
        (decideLength
          { s with
            inbound := rest, rxLast := s.clock, rxIdx := 4
            buf := memWrite s.buf 0 [b0, b1, b2, b3] }) := by
  obtain ⟨n, rfl⟩ : ∃ m, n = m + 4 := ⟨n - 4, by omega⟩
  have hw : ∀ u : State, u.rxSt = .awaitHeaderByte → rxWaiting u = true := fun u h => (rxWaiting_iff u).2 (.inl h)
  rw [drain_cons hp (hw _ hst) hin, takeByte_header0 (s := consumed (b1 :: b2 :: b3 :: rest) s) hst hidx, andThen_next]
  have hs1 : headerStep0 b0 (consumed (b1 :: b2 :: b3 :: rest) s) =
      { s with inbound := b1 :: b2 :: b3 :: rest, rxLast := s.clock, rxIdx := 1, buf := memWrite s.buf 0 [b0] } := by
    simp only [headerStep0, consumed, ha, if_true]; rfl
  rw [hs1]
  rw [drain_cons (b := b1) (rest := b2 :: b3 :: rest)
      (s := { s with inbound := b1 :: b2 :: b3 :: rest, rxLast := s.clock, rxIdx := 1, buf := memWrite s.buf 0 [b0] })
      hp (hw _ hst) rfl,
    takeByte_header1 (s := consumed (b2 :: b3 :: rest)
      { s with inbound := b1 :: b2 :: b3 :: rest, rxLast := s.clock, rxIdx := 1, buf := memWrite s.buf 0 [b0] }) hst rfl,
    andThen_next]
  have hs2 : headerStep1 b1 (consumed (b2 :: b3 :: rest)
        { s with inbound := b1 :: b2 :: b3 :: rest, rxLast := s.clock, rxIdx := 1, buf := memWrite s.buf 0 [b0] }) =
      { s with inbound := b2 :: b3 :: rest, rxLast := s.clock, rxIdx := 2, buf := memWrite s.buf 0 [b0, b1] } := by
    simp only [headerStep1, consumed, hf, if_true]; rfl
  rw [hs2]
  rw [drain_cons (b := b2) (rest := b3 :: rest)
      (s := { s with inbound := b2 :: b3 :: rest, rxLast := s.clock, rxIdx := 2, buf := memWrite s.buf 0 [b0, b1] })
      hp (hw _ hst) rfl,
    takeByte_header2 (s := consumed (b3 :: rest)
      { s with inbound := b2 :: b3 :: rest, rxLast := s.clock, rxIdx := 2, buf := memWrite s.buf 0 [b0, b1] }) hst rfl,
    andThen_next]
  have hs3 : headerStep2 b2 (consumed (b3 :: rest)
        { s with inbound := b2 :: b3 :: rest, rxLast := s.clock, rxIdx := 2, buf := memWrite s.buf 0 [b0, b1] }) =
      { s with inbound := b3 :: rest, rxLast := s.clock, rxIdx := 3, buf := memWrite s.buf 0 [b0, b1, b2] } := rfl
  rw [hs3]
  rw [drain_cons (b := b3) (rest := rest)
      (s := { s with inbound := b3 :: rest, rxLast := s.clock, rxIdx := 3, buf := memWrite s.buf 0 [b0, b1, b2] })
      hp (hw _ hst) rfl,
    takeByte_header3 (s := consumed rest
      { s with inbound := b3 :: rest, rxLast := s.clock, rxIdx := 3, buf := memWrite s.buf 0 [b0, b1, b2] }) hst rfl,
    andThen_next, Nat.add_sub_cancel]
  rfl

/-- What a whole frame `pre ++ be16 c` of the decided length leads to, once its bytes have been taken: the frame
stored from index 0, the CRC register run over `pre`, and the outcome of R124. -/
def afterFrame (total : Val17) (b1 b2 : Byte) (pre : List Byte) (c : Word) (s : State) : State :=
  let u := { s with
    inbound := [], rxLast := s.clock, rxIdx := 4, rxTotal := total, rxRem := 0
    buf := memWrite s.buf 0 (pre ++ be16 c), crc := crcRaw pre }
  if crc16 pre = c then
    finish (if exceptionFlag b1 then b2 else 0) (pre ++ be16 c) { u with rxSt := .complete }
  else finish Config.crcFailStatus [] { u with rxSt := .crcMismatch }

/-- A reply whose header matches and whose length is the one `DecideLength` decides is taken whole. -/
theorem burst_frame {s : State} {pre : List Byte} {c : Word} {total : Val17} {b0 b1 b2 b3 : Byte}
    {tail : List Byte} (hwf : Memory.wf s.buf = true) (hp : s.phase = .receive) (hst : s.rxSt = .awaitHeaderByte)
    (hidx : s.rxIdx = 0) (hin : s.inbound = []) (ha : b0 = s.expAddr)
    (hf : functionMatches b1 s.expFn = true) (hg : pre ++ be16 c = b0 :: b1 :: b2 :: b3 :: tail)
    (hlen : lengthOf s.expFn s.expVal b1 b2 b3 = some total)
    (htot : total.toNat = (pre ++ be16 c).length) :
    burst (pre ++ be16 c) s = .next (afterFrame total b1 b2 pre c s) := by
  have hb := lengthOf_bounds hlen
  have hgl : (pre ++ be16 c).length = tail.length + 4 := by rw [hg]; rfl
  have hpl : pre.length + 2 = tail.length + 4 := by rw [← hgl]; simp
  have htail : tail ≠ [] := by
    intro h; subst h; rw [hgl] at htot; simp at htot; omega
  have h4 := toNat_sub_four (v := total) (by omega)
  have hdel : deliver (pre ++ be16 c) s = { s with inbound := pre ++ be16 c } := by simp [deliver, hin]
  have hw4 : ∀ k, k < 4 → Memory.read (memWrite s.buf 0 [b0, b1, b2, b3]) k = [b0, b1, b2, b3].getD k 0 := by
    intro k hk
    have h := memRead_getD (memWrite s.buf 0 [b0, b1, b2, b3]) 0 4 k 0 hk
    rw [Nat.zero_add] at h
    have h2 : memRead (memWrite s.buf 0 [b0, b1, b2, b3]) 0 4 = [b0, b1, b2, b3] :=
      memRead_memWrite hwf 0 [b0, b1, b2, b3]
    rw [← h, h2]
  have hlen' : lengthOf s.expFn s.expVal (Memory.read (memWrite s.buf 0 [b0, b1, b2, b3]) 1)
      (Memory.read (memWrite s.buf 0 [b0, b1, b2, b3]) 2)
      (Memory.read (memWrite s.buf 0 [b0, b1, b2, b3]) 3) = some total := by
    rw [hw4 1 (by omega), hw4 2 (by omega), hw4 3 (by omega)]; exact hlen
  unfold burst catchUp
  rw [show rxAvail (deliver (pre ++ be16 c) s) = tail.length + 4 by rw [hdel]; exact hgl, hdel]
  rw [drain_header (s := { s with inbound := pre ++ be16 c }) (rest := tail) hp hst hidx ha hf hg (by omega),
    decideLength_eq]
  simp only [hlen']
  rw [drain_body (bs := tail) (rest := [])
    (s := awaitBodyOf total
      { s with
        inbound := tail, rxLast := s.clock, rxIdx := 4
        buf := memWrite s.buf 0 [b0, b1, b2, b3] })
    htail hp rfl (by rw [awaitBodyOf_rxRem]; omega) (by rw [awaitBodyOf_rxTotal]; omega)
    (by rw [awaitBodyOf_rxTotal]; omega) (by simp) (by omega)]
  have hidx4 : total.toNat - tail.length = 4 := by omega
  have hbuf : memWrite (memWrite s.buf 0 [b0, b1, b2, b3]) 4 tail = memWrite s.buf 0 (pre ++ be16 c) := by
    rw [hg, show b0 :: b1 :: b2 :: b3 :: tail = [b0, b1, b2, b3] ++ tail from rfl, memWrite_append]; rfl
  have hread : memRead (memWrite s.buf 0 (pre ++ be16 c)) 0 (pre ++ be16 c).length = pre ++ be16 c :=
    memRead_memWrite hwf 0 _
  have hpre : memRead (memWrite s.buf 0 (pre ++ be16 c)) 0 (total.toNat - 2) = pre := by
    have h1 : total.toNat - 2 = pre.length := by rw [htot]; simp
    have h2 := congrArg (List.take pre.length) hread
    rw [memRead_take] at h2
    simpa [h1] using h2
  have hat : ∀ k, k < (pre ++ be16 c).length →
      Memory.read (memWrite s.buf 0 (pre ++ be16 c)) k = (pre ++ be16 c).getD k 0 := by
    intro k hk
    have h := memRead_getD (memWrite s.buf 0 (pre ++ be16 c)) 0 _ k 0 hk
    rw [Nat.zero_add, hread] at h
    exact h.symm
  have hm2 : Memory.read (memWrite s.buf 0 (pre ++ be16 c)) (total.toNat - 2) = hi8 c := by
    rw [hat _ (by omega), htot]; simp [be16]
  have hm1 : Memory.read (memWrite s.buf 0 (pre ++ be16 c)) (total.toNat - 1) = lo8 c := by
    rw [hat _ (by omega), htot]; simp [be16]
  have h1b : Memory.read (memWrite s.buf 0 (pre ++ be16 c)) 1 = b1 := by rw [hat 1 (by omega), hg]; rfl
  have h2b : Memory.read (memWrite s.buf 0 (pre ++ be16 c)) 2 = b2 := by rw [hat 2 (by omega), hg]; rfl
  rw [verify_eq]
  simp only [awaitBodyOf_rxTotal, awaitBodyOf_buf, hidx4, hbuf, hpre, hm2, hm1, word_hi8_lo8]
  rw [if_pos ⟨by omega, hb.2⟩, andThen_next, drain_stop (by split <;> simp [complete, crcMismatch])]
  congr 1
  unfold afterFrame
  split
  · simp only [complete, heldExceptionFlag, h1b, h2b, htot, hread]
    rfl
  · rfl

/-! ### Which bytes of the buffer a receive can write -/

/-- A consumed byte is stored at the number of bytes held, so every index above it reads as before; and the next
count of bytes held is at most one more. -/
theorem takeByte_frame {b : Byte} {s t : State} (hl : RxLive s) (h : takeByte b s = .next t) :
    (∀ j, bytesHeld s + 1 ≤ j → Memory.read t.buf j = Memory.read s.buf j) ∧
      (t.phase ≠ .done → bytesHeld t ≤ bytesHeld s + 1) := by
  have hheld : s.rxSt = .awaitHeaderByte → bytesHeld s = s.rxIdx.toNat := fun hst => by simp [bytesHeld, hst]
  rcases takeByte_cases h with ⟨hst, hi, rfl⟩ | ⟨hst, hi, rfl⟩ | ⟨hst, hi, rfl⟩ | ⟨hst, hi, rfl⟩ | ⟨hst, hi, hb⟩
  · have hb : bytesHeld s = 0 := by rw [hheld hst, hi]; rfl
    refine ⟨fun j hj => ?_, fun _ => ?_⟩
    · rw [headerStep0_buf]; exact read_memWrite_outside [b] s.buf (.inr (show 0 + 1 ≤ j by omega))
    · rw [bytesHeld, headerStep0_rxSt, if_neg (by rw [hst]; decide), headerStep0_rxIdx]; split <;> simp
  · have hb : bytesHeld s = 1 := by rw [hheld hst, hi]; rfl
    refine ⟨fun j hj => ?_, fun _ => ?_⟩
    · rw [headerStep1_buf]; exact read_memWrite_outside [b] s.buf (.inr (show 1 + 1 ≤ j by omega))
    · rw [bytesHeld, headerStep1_rxSt, if_neg (by rw [hst]; decide), headerStep1_rxIdx, hb]; split <;> simp
  · have hb : bytesHeld s = 2 := by rw [hheld hst, hi]; rfl
    refine ⟨fun j hj => ?_, fun _ => ?_⟩
    · rw [headerStep2_buf]; exact read_memWrite_outside [b] s.buf (.inr (show 2 + 1 ≤ j by omega))
    · rw [bytesHeld, headerStep2_rxSt, if_neg (by rw [hst]; decide), headerStep2_rxIdx, hb]; simp
  · have hb : bytesHeld s = 3 := by rw [hheld hst, hi]; rfl
    have hbuf : (headerStep3 b s).buf = memWrite s.buf 3 [b] := by
      unfold headerStep3; rw [decideLength_eq]; split <;> rfl
    refine ⟨fun j hj => ?_, fun _ => ?_⟩
    · rw [hbuf]; exact read_memWrite_outside [b] s.buf (.inr (show 3 + 1 ≤ j by omega))
    · unfold headerStep3
      rw [decideLength_eq]
      split
      · next total ht =>
        have h5 := lengthOf_bounds ht
        have h4 := toNat_sub_four (v := total) (by omega)
        rw [bytesHeld, awaitBodyOf_rxSt, if_pos rfl, awaitBodyOf_rxTotal, awaitBodyOf_rxRem, hb]; omega
      · simp [bytesHeld]
  · rcases hl with ⟨h0, -⟩ | ⟨hst', h1, h4, h5, hmax⟩
    · exact absurd h0 hst
    have hheld : bytesHeld s = s.rxTotal.toNat - s.rxRem.toNat := by simp [bytesHeld, hst']
    have hidx : bodyIndex s = bytesHeld s := by rw [hheld]; exact toNat_body_index (by omega)
    have hread : ∀ j, bytesHeld s + 1 ≤ j → Memory.read (storeBody b s).buf j = Memory.read s.buf j := by
      intro j hj
      rw [storeBody_buf, hidx]
      exact read_memWrite_outside [b] s.buf (.inr hj)
    rcases hb with ⟨-, rfl⟩ | ⟨-, hv⟩
    · refine ⟨hread, fun _ => ?_⟩
      have hp := toNat_pred h1
      rw [bytesHeld, storeBody_rxSt, if_pos hst', storeBody_rxTotal, storeBody_rxRem, hheld]; omega
    · rw [verify_eq] at hv
      split at hv
      · cases hv
        refine ⟨fun j hj => ?_, fun hd => ?_⟩
        · rw [← hread j hj]; split <;> simp [complete, crcMismatch]
        · exfalso; revert hd; split <;> simp [complete, crcMismatch]
      · cases hv

/-- What draining took: bytes from the front of the inbound buffer, in order, and no index of the frame buffer at or
beyond the bytes held and taken has changed. -/
theorem drain_taken {n : Nat} {s t : State} (hl : RxLive s) (h : drain n s = .next t) :
    ∃ taken, s.inbound = taken ++ t.inbound ∧
      ∀ j, bytesHeld s + taken.length ≤ j → Memory.read t.buf j = Memory.read s.buf j := by
  induction n generalizing s with
  | zero => cases h; exact ⟨[], rfl, fun _ _ => rfl⟩
  | succ n ih =>
    cases hin : s.inbound with
    | nil =>
      rw [drain, if_neg (by simp [rxAvail, hin])] at h
      cases h
      exact ⟨[], by simp [hin], fun _ _ => rfl⟩
    | cons b rest =>
      by_cases hp : s.phase = .receive
      · rw [drain_cons hp ((rxWaiting_iff s).2 (hl.imp (·.1) (·.1))) hin] at h
        obtain ⟨u, hu, hui, hcase⟩ := takeByte_live (s := consumed rest s) b hl
        obtain ⟨hmem, hheld⟩ := takeByte_frame (s := consumed rest s) hl hu
        rw [hu, andThen_next] at h
        have hc : bytesHeld (consumed rest s) = bytesHeld s := rfl
        rcases hcase with ⟨hup, -, hul⟩ | ⟨hup, -⟩
        · obtain ⟨taken, htk, hj⟩ := ih hul h
          refine ⟨b :: taken, by rw [List.cons_append, ← htk, hui]; rfl, fun j hle => ?_⟩
          have hb := hheld (by rw [hup]; show s.phase ≠ _; rw [hp]; decide)
          rw [hc] at hb hmem
          simp only [List.length_cons] at hle
          rw [hj j (by omega), hmem j (by omega)]; rfl
        · rw [drain_stop (by rw [hup]; decide)] at h
          cases h
          refine ⟨[b], by rw [hui]; rfl, fun j hle => ?_⟩
          rw [hc] at hmem
          exact hmem j (by simpa using hle)
      · rw [drain_stop hp] at h
        cases h
        exact ⟨[], by simp [hin], fun _ _ => rfl⟩

/-- A byte taken with fewer than four bytes held delivers no result: a frame has at least five. -/
theorem takeByte_early {b : Byte} {s t : State} (hl : RxLive s) (hh : bytesHeld s < 4) (h : takeByte b s = .next t) :
    t.phase = s.phase ∧ t.resStatus = s.resStatus ∧ t.resFrame = s.resFrame ∧ t.rxLast = s.rxLast := by
  rcases takeByte_cases h with ⟨-, -, rfl⟩ | ⟨-, -, rfl⟩ | ⟨-, -, rfl⟩ | ⟨-, -, rfl⟩ | ⟨hst, -, hb⟩
  · exact ⟨rfl, rfl, rfl, rfl⟩
  · exact ⟨rfl, rfl, rfl, rfl⟩
  · exact ⟨rfl, rfl, rfl, rfl⟩
  · unfold headerStep3; rw [decideLength_eq]; split <;> exact ⟨rfl, rfl, rfl, rfl⟩
  · rcases hb with ⟨-, rfl⟩ | ⟨h0, -⟩
    · exact ⟨rfl, rfl, rfl, rfl⟩
    · rcases hl with ⟨h0, -⟩ | ⟨hst', h1, h4, h5, hmax⟩
      · exact absurd h0 hst
      · have := toNat_pred h1
        rw [(eq_zero_iff_toNat _).1 h0] at this
        rw [bytesHeld, if_pos hst'] at hh
        omega

/-- Bytes too few to complete a frame leave the receiver waiting, with the line read out and no result. -/
theorem drain_short {n : Nat} {s : State} (hp : s.phase = .receive) (hl : RxLive s) (hn : s.inbound.length ≤ n)
    (hh : bytesHeld s + s.inbound.length ≤ 4) (hc : s.rxLast = s.clock) :
    ∃ t, drain n s = .next t ∧ t.phase = .receive ∧ RxLive t ∧ t.inbound = [] ∧ t.rxLast = s.clock ∧
      t.resValid = s.resValid ∧ t.resStatus = s.resStatus ∧ t.resFrame = s.resFrame := by
  induction n generalizing s with
  | zero => exact ⟨s, rfl, hp, hl, List.length_eq_zero_iff.1 (by omega), hc, rfl, rfl, rfl⟩
  | succ n ih =>
    cases hin : s.inbound with
    | nil => exact ⟨s, by simp [drain, rxAvail, hin], hp, hl, hin, hc, rfl, rfl, rfl⟩
    | cons b rest =>
      rw [drain_cons hp ((rxWaiting_iff s).2 (hl.imp (·.1) (·.1))) hin]
      obtain ⟨u, hu, hui, hcase⟩ := takeByte_live (s := consumed rest s) b hl
      have hlen : s.inbound.length = rest.length + 1 := by rw [hin]; rfl
      have hb : bytesHeld (consumed rest s) = bytesHeld s := rfl
      obtain ⟨e1, e2, e3, e4⟩ := takeByte_early (s := consumed rest s) hl (by rw [hb]; omega) hu
      have hup : u.phase = .receive := e1.trans hp
      have hheld := (takeByte_frame (s := consumed rest s) hl hu).2 (by rw [hup]; decide)
      have hclk : u.clock = s.clock := (takeByte_same hu).clock
      rcases hcase with ⟨-, huv, hul⟩ | ⟨hd, -⟩
      · obtain ⟨t, ht, h1, h2, h3, h4, h5, h6, h7⟩ := ih hup hul
          (by rw [hui]; show rest.length ≤ n; omega)
          (by rw [hui]; show bytesHeld u + rest.length ≤ 4; rw [hb] at hheld; omega)
          (by rw [e4, hclk]; rfl)
        exact ⟨t, by rw [hu]; exact ht, h1, h2, h3, h4.trans hclk, h5.trans huv, h6.trans e2, h7.trans e3⟩
      · rw [hup] at hd; cases hd

/-! ### What a whole frame leaves, and what a receive keeps of the buffer -/

/-- A frame taken whole is held in the buffer, and nothing outside the receiver changed. -/
theorem afterFrame_received {s : State} {pre : List Byte} {c : Word} {total : Val17} {b1 b2 : Byte}
    (hwf : Memory.wf s.buf = true) : ReceivedFrame (pre ++ be16 c) s (afterFrame total b1 b2 pre c s) := by
  have hbuf : (afterFrame total b1 b2 pre c s).buf = memWrite s.buf 0 (pre ++ be16 c) := by
    unfold afterFrame; dsimp only; split <;> rfl
  refine ⟨?_, ?_, ?_, ?_, ?_⟩
  · unfold afterFrame; dsimp only; split <;> constructor <;> rfl
  · intro i hi
    have h := memRead_getD (memWrite s.buf 0 (pre ++ be16 c)) 0 _ i 0 hi
    rw [memRead_memWrite hwf, Nat.zero_add] at h
    rw [hbuf, h]
  · intro i hi
    rw [hbuf]; exact read_memWrite_outside _ _ (.inr (by omega))
  · unfold afterFrame; dsimp only; split <;> rfl
  · unfold afterFrame; dsimp only; split <;> rfl

/-- A frame taken whole is delivered if its trailer is right, and is a CRC error otherwise. -/
theorem afterFrame_outcome {s : State} {pre : List Byte} {c : Word} {total : Val17} {b1 b2 status : Byte}
    (hk : (if exceptionFlag b1 then b2 else 0) = status) :
    (c = crc16 pre → Delivered status (pre ++ be16 c) (afterFrame total b1 b2 pre c s)) ∧
      (c ≠ crc16 pre → Delivered 8 [] (afterFrame total b1 b2 pre c s)) := by
  constructor
  · intro h
    unfold afterFrame; dsimp only; rw [if_pos h.symm, hk]; constructor <;> rfl
  · intro h
    unfold afterFrame; dsimp only; rw [if_neg (Ne.symm h)]; constructor <;> rfl

/-- A write within `FRAME_MAX` keeps every index of the buffer below it. -/
theorem range_write {m : Memory} {i : Nat} {b : Byte} (h : ∀ c ∈ m, c.1 < 65541) (hi : i < 65541) :
    ∀ c ∈ Memory.write m i b, c.1 < 65541 := by
  intro c hc
  rcases Memory.mem_write hc with h1 | h1
  · omega
  · exact h c h1

/-- The step of a consumed byte keeps the buffer canonical and within `FRAME_MAX`, and leaves the progress time. -/
theorem takeByte_keeps {s t : State} {b : Byte} (h : takeByte b s = .next t) (hw : Memory.wf s.buf = true)
    (hr : ∀ c ∈ s.buf, c.1 < 65541) :
    Memory.wf t.buf = true ∧ (∀ c ∈ t.buf, c.1 < 65541) ∧ t.rxLast = s.rxLast := by
  have keep : ∀ i, i < 65541 → ∀ u : State, u.buf = Memory.write s.buf i b →
      Memory.wf u.buf = true ∧ ∀ c ∈ u.buf, c.1 < 65541 := by
    intro i hi u hu
    rw [hu]; exact ⟨Memory.wf_write i b hw, range_write hr hi⟩
  rcases takeByte_cases h with ⟨-, -, rfl⟩ | ⟨-, -, rfl⟩ | ⟨-, -, rfl⟩ | ⟨-, -, rfl⟩ | ⟨-, hi, hc⟩
  · exact ⟨(keep 0 (by omega) _ rfl).1, (keep 0 (by omega) _ rfl).2, rfl⟩
  · exact ⟨(keep 1 (by omega) _ rfl).1, (keep 1 (by omega) _ rfl).2, rfl⟩
  · exact ⟨(keep 2 (by omega) _ rfl).1, (keep 2 (by omega) _ rfl).2, rfl⟩
  · unfold headerStep3
    rw [decideLength_eq]
    split <;> exact ⟨(keep 3 (by omega) _ rfl).1, (keep 3 (by omega) _ rfl).2, rfl⟩
  · obtain ⟨k1, k2⟩ := keep (bodyIndex s) hi (storeBody b s) rfl
    rcases hc with ⟨-, rfl⟩ | ⟨-, hv⟩
    · exact ⟨k1, k2, rfl⟩
    · rw [verify_eq] at hv
      split at hv
      · cases hv; split <;> exact ⟨k1, k2, rfl⟩
      · cases hv

end Sys2Proof.Machine
end

