-- ==== Sys2Proof/Laws/Sequencer.lean ====
section
/-! SUPPORT. The sequencer and the commands said once: what each phase does to the state, and what a command leaves
when it waits for its pause or has been turned away. -/

namespace Sys2Proof.Machine

open Safety

theorem rxDiscard_all (s : State) : rxDiscard s.inbound.length s = { s with inbound := [] } := by
  generalize hn : s.inbound = l
  induction l generalizing s with
  | nil =>
    show s = { s with inbound := [] }
    rw [← hn]
  | cons b rest ih =>
    simp only [List.length_cons, rxDiscard, rxRead1, hn]
    exact ih { s with inbound := rest } rfl

theorem flushStep_eq (s : State) : flushStep s = { s with inbound := [], phase := .transmit } := by
  simp [flushStep, rxAvail, rxDiscard_all]

theorem addressOk_iff (f : FnCode) (dev : Byte) : addressOk f dev = true ↔ ValidAddress f dev := by
  unfold addressOk ValidAddress
  cases hf : isRead f <;> simp [and_comm]

theorem validateStep_valid {s : State} {f : FnCode} (hf : fnOfByte s.cmdOp = some f)
    (ha : ValidAddress f s.cmdDev) : validateStep s = .next { s with phase := .flush } := by
  simp [validateStep, hf, (addressOk_iff f s.cmdDev).2 ha]

theorem validateStep_invalid {s : State} {f : FnCode} (hf : fnOfByte s.cmdOp = some f)
    (ha : ¬ ValidAddress f s.cmdDev) : validateStep s = .next (finish Config.addressError [] s) := by
  have h : addressOk f s.cmdDev = false := by
    rw [← Bool.not_eq_true]; exact mt (addressOk_iff f s.cmdDev).1 ha
  simp [validateStep, hf, h]

theorem transmitStep_eq {s : State} {f : FnCode} (hf : fnOfByte s.cmdOp = some f) :
    transmitStep s = .next
      { s with
        crc := crcRaw (s.cmdDev :: s.cmdOp :: payloadOf f s)
        txframe := buildFrame s.cmdDev s.cmdOp (payloadOf f s)
        outbound := s.outbound ++ buildFrame s.cmdDev s.cmdOp (payloadOf f s)
        tTx := s.clock, phase := .pause } := by
  simp [transmitStep, hf, buildOp_eq, txWrite, now]

theorem pauseStep_end {s : State} {f : FnCode} (hf : fnOfByte s.cmdOp = some f)
    (ht : s.timeout ≤ s.clock - s.tTx) :
    pauseStep s = .next (receiveStart s.cmdDev s.cmdOp (expectOf f s) s.timeout s) := by
  simp [pauseStep, hf, now, ht]

theorem pauseStep_wait {s : State} (ht : s.clock - s.tTx < s.timeout) : pauseStep s = .next s := by
  simp [pauseStep, now, Nat.not_le.2 ht]

theorem portReady_iff (s : State) : portReady s = true ↔ HostMayMove s := by
  simp [portReady, HostMayMove]

theorem accept_eq {f : FnCode} {a : Byte} {r : Word} {arg : Option Word} {data : Option (List Byte)} {s : State}
    (h : Accepting s) :
    accept f a r arg data s = .next (accepted f a r (arg.getD s.portArg) (data.getD s.portData) s) := by
  simp [accept, (portReady_iff s).2 h.1, h.2, accepted]

theorem accept_busy {f : FnCode} {a : Byte} {r : Word} {arg : Option Word} {data : Option (List Byte)} {s : State}
    (h : InFlight s) : accept f a r arg data s = .refused .portBusy := by
  have : portReady s = false := by rw [← Bool.not_eq_true]; exact mt (portReady_iff s).1 h
  simp [accept, this]

theorem accept_unset {f : FnCode} {a : Byte} {r : Word} {arg : Option Word} {data : Option (List Byte)} {s : State}
    (h : HostMayMove s) (hs : s.timeoutSet = false) : accept f a r arg data s = .refused .timeoutUnset := by
  simp [accept, (portReady_iff s).2 h, hs]

/-- The three moves after acceptance with a valid address end in the pause. -/
theorem runToPause_valid {f : FnCode} {a : Byte} {r arg : Word} {data : List Byte} {s : State}
    (ha : ValidAddress f a) :
    runToPause (accepted f a r arg data s) =
      .next (transmitted f a r arg data (payloadOf f (accepted f a r arg data s)) s) := by
  have hv : engineStep (accepted f a r arg data s) = .next { accepted f a r arg data s with phase := .flush } :=
    validateStep_valid (s := accepted f a r arg data s) (fnOfByte_fnByte f) ha
  have hfl : engineStep { accepted f a r arg data s with phase := .flush } =
      .next { accepted f a r arg data s with inbound := [], phase := .transmit } :=
    congrArg Host.Outcome.next (flushStep_eq { accepted f a r arg data s with phase := .flush })
  have htr : engineStep { accepted f a r arg data s with inbound := [], phase := .transmit } = _ :=
    transmitStep_eq (s := { accepted f a r arg data s with inbound := [], phase := .transmit }) (fnOfByte_fnByte f)
  simp only [runToPause, engineRun, hv, andThen_next, hfl, htr]
  cases f <;> rfl

/-- The three moves after acceptance with an invalid address end in `AddressError`. -/
theorem runToPause_invalid {f : FnCode} {a : Byte} {r arg : Word} {data : List Byte} {s : State}
    (ha : ¬ ValidAddress f a) :
    runToPause (accepted f a r arg data s) = .next (addressRejected f a r arg data s) := by
  have hv : engineStep (accepted f a r arg data s) =
      .next (finish Config.addressError [] (accepted f a r arg data s)) :=
    validateStep_invalid (s := accepted f a r arg data s) (fnOfByte_fnByte f) ha
  simp only [runToPause, engineRun, hv, andThen_next]
  rfl

/-- The bit of a coil write, with the lines it came from, is the whole of what the lines hold (R11, R154). -/
@[simp] theorem coilArg_lines (lines : Word) : coilArg lines (lines.getLsbD 0) = lines := by
  refine BitVec.eq_of_getLsbD_eq fun i hi => ?_
  cases i with
  | zero => rw [coilArg, BitVec.getLsbD_concat, if_pos rfl]
  | succ n =>
    have hn : n < 15 := by omega
    simp only [coilArg, BitVec.getLsbD_concat, BitVec.getLsbD_extractLsb', Nat.succ_ne_zero, if_false,
      Nat.add_one_sub_one, hn, decide_true, Bool.true_and, Nat.add_comm 1 n]

theorem coilArg_bit (lines : Word) (v : Bool) : (coilArg lines v).getLsbD 0 = v := by
  rw [coilArg, BitVec.getLsbD_concat, if_pos rfl]

/-- The byte length of a multiple register write whose data fit its count (R157). -/
theorem registersByteLen_fit {s : State} (h : s.cmdData.length = 2 * s.cmdArg.toNat) :
    registersByteLen s = BitVec.ofNat 8 (2 * s.cmdArg.toNat) := if_pos h

/-- The same where they do not: the free value of the transmission. -/
theorem registersByteLen_uneven {s : State} (h : s.cmdData.length ≠ 2 * s.cmdArg.toNat) :
    registersByteLen s = Config.freeByteLen s.outbound.length := if_neg h

/-- An accepted command with a valid address, up to its pause. -/
theorem accept_runToPause {f : FnCode} {a : Byte} {r : Word} {arg : Option Word} {data : Option (List Byte)}
    {s : State} (h : Accepting s) (ha : ValidAddress f a) :
    andThen (accept f a r arg data s) runToPause =
      .next (transmitted f a r (arg.getD s.portArg) (data.getD s.portData)
        (payloadOf f (accepted f a r (arg.getD s.portArg) (data.getD s.portData) s)) s) := by
  rw [accept_eq h, andThen_next, runToPause_valid ha]

/-- An accepted command with an invalid address. -/
theorem accept_rejected {f : FnCode} {a : Byte} {r : Word} {arg : Option Word} {data : Option (List Byte)}
    {s : State} (h : Accepting s) (ha : ¬ ValidAddress f a) :
    andThen (accept f a r arg data s) runToPause =
      .next (addressRejected f a r (arg.getD s.portArg) (data.getD s.portData) s) := by
  rw [accept_eq h, andThen_next, runToPause_invalid ha]

/-! ### The step -/

/-- The step takes the head of the agenda. -/
theorem step_cons {m : Move} {rest : List Move} {s : State} (h : s.agenda = m :: rest) :
    step s = stepMove m { s with agenda := rest } := by
  simp [step, takeMove, h]

/-- With an empty agenda the step takes a free move. -/
theorem step_free {s : State} (h : s.agenda = []) :
    step s = stepMove (Config.freeMove s.draws) { s with draws := s.draws + 1 } := by
  simp [step, takeMove, h]

theorem stepMove_decoded {m : Move} {s : State} {i : Instr} (h : fetchInstr m s = some i) :
    stepMove m s = exec i (drivePort m s) := by simp [stepMove, h]

theorem stepMove_other {m : Move} {s : State} (h : fetchInstr m s = none) : stepMove m s = otherMove m (drivePort m s) := by
  simp [stepMove, h]

@[simp] theorem stepMove_engine (s : State) : stepMove .engine s = engineStep s := rfl
@[simp] theorem stepMove_tick (n : Nat) (s : State) : stepMove (.tick n) s = .next (advance n s) := rfl
@[simp] theorem stepMove_byte (b : Byte) (s : State) : stepMove (.byte b) s = .next (deliver [b] s) := rfl
@[simp] theorem stepMove_issue (c : PortCmd) (s : State) :
    stepMove (.issue c) s = issueCommand c { s with portArg := c.arg, portData := c.data } := rfl
@[simp] theorem stepMove_setTimeout (t : Nat) (s : State) : stepMove (.setTimeout t) s = execSetTimeout t s := rfl
@[simp] theorem stepMove_reset (s : State) : stepMove .reset s = .next (resetEvent s) := rfl

end Sys2Proof.Machine
end

