-- ==== Sys2Proof/Laws/Step.lean ====
section
/-! SUPPORT. The instructions and the agents' moves said once: a command is its acceptance and the moves up to the pause,
a reply is a burst of its frame, and what acceptance answers. -/

namespace Sys2Proof.Machine

open Safety

/-- What the port decodes to is run as acceptance followed by the moves up to the pause. -/
theorem exec_of_port {c : PortCmd} {i : Instr} (h : decodePort c = .ok i) (s : State) :
    exec i s = andThen (acceptInstr i s) runToPause := by
  have hp : (portOf i).isSome := by
    unfold decodePort portInstr at h
    repeat' split at h
    all_goals first
      | (cases h; rfl)
      | cases h
  cases i <;> simp only [portOf, Option.isSome_none, Bool.false_eq_true] at hp <;> rfl

/-- When the port holds no list of values: a multiple register write within its limits whose data do not fit its
count (R157, R162). -/
theorem decodePort_noValueList (c : PortCmd) : decodePort c = .error .noValueList ↔
    c.op = 0x10 ∧ c.arg.toNat ≤ 127 ∧ c.data.length ≤ 255 ∧ c.data.length ≠ 2 * c.arg.toNat := by
  constructor
  · intro h
    unfold decodePort at h
    split at h
    · cases h
    · next f hf =>
      split at h
      · next hd =>
        cases f <;> simp only [portInstr, reduceCtorEq] at h
        split at h
        · cases h
        · next ha =>
          split at h
          · cases h
          · next hn => exact ⟨fnByte_of_fnOfByte hf, Nat.not_lt.1 ha, hd, hn⟩
      · cases h
  · rintro ⟨ho, ha, hd, hn⟩
    have hf : fnOfByte c.op = some .writeMultiHolding := by rw [ho]; rfl
    have ha' : ¬ Config.valuesMax < c.arg.toNat := Nat.not_lt.2 ha
    have hd' : c.data.length ≤ Config.txDataMax := hd
    simp only [decodePort, hf, if_pos hd', portInstr, if_neg ha', if_neg hn]

/-- Such a drive is accepted with its operands as they stand. -/
theorem issueCommand_uneven {c : PortCmd} (h : decodePort c = .error .noValueList) (s : State) :
    issueCommand c s = accept .writeMultiHolding c.dev c.reg (some c.arg) (some c.data) s := by
  simp only [issueCommand, h]

/-- A command's move is its issue and the moves up to the pause, whatever the port decodes it to. -/
theorem stepMove_command (c : PortCmd) (s : State) :
    stepMove (.command c) s =
      andThen (issueCommand c { s with portArg := c.arg, portData := c.data }) runToPause := by
  unfold stepMove fetchInstr decodeMove drivePort
  rcases hd : decodePort c with e | i
  · simp [hd, otherMove, Except.toOption]
  · simp only [Except.toOption, issueCommand, hd]
    exact exec_of_port hd _

/-- A reply is a burst of its frame. -/
theorem exec_of_reply {i : Instr} {frame : List Byte} (hp : portOf i = none) (he : encode i = some frame)
    (s : State) : exec i s = burst frame s := by
  cases i <;> simp only [portOf, reduceCtorEq] at hp <;>
    simp only [encode, reduceCtorEq, Option.some.injEq] at he <;> subst he <;> rfl

/-- Acceptance that answers next was allowed and latched the operands. -/
theorem accept_next {f : FnCode} {a : Byte} {r : Word} {arg : Option Word} {data : Option (List Byte)} {s t : State}
    (h : accept f a r arg data s = .next t) :
    Accepting s ∧ t = accepted f a r (arg.getD s.portArg) (data.getD s.portData) s := by
  by_cases hA : Accepting s
  · rw [accept_eq hA] at h; cases h; exact ⟨hA, rfl⟩
  · exfalso
    unfold accept at h
    split at h
    · next h1 =>
      split at h
      · next h2 => exact hA ⟨(portReady_iff s).1 h1, h2⟩
      · cases h
    · cases h

/-- The same of the issue of any command. -/
theorem issueCommand_next {c : PortCmd} {s t : State} (h : issueCommand c s = .next t) :
    Accepting s ∧ ∃ f a r arg data, t = accepted f a r arg data s := by
  unfold issueCommand at h
  split at h
  · next i _ =>
    cases i <;> simp only [acceptInstr, reduceCtorEq] at h
    case writeMultiCoils =>
      unfold acceptWriteMultiCoils at h
      split at h
      · obtain ⟨h1, h2⟩ := accept_next h; exact ⟨h1, _, _, _, _, _, h2⟩
      · cases h
    case writeMultiHolding =>
      unfold acceptWriteMultiHolding at h
      split at h
      · obtain ⟨h1, h2⟩ := accept_next h; exact ⟨h1, _, _, _, _, _, h2⟩
      · cases h
    all_goals (obtain ⟨h1, h2⟩ := accept_next h; exact ⟨h1, _, _, _, _, _, h2⟩)
  · obtain ⟨h1, h2⟩ := accept_next h; exact ⟨h1, _, _, _, _, _, h2⟩
  · cases h

/-- Several steps are one step and then the others. -/
theorem steps_succ (n : Nat) (s : State) : steps (n + 1) s = andThen (step s) (steps n) := rfl

/-- What a step adds around its move: the agenda or the count of draws. -/
theorem step_move {s t : State} (h : step s = .next t) :
    ∃ m u, stepMove m u = .next t ∧ u = { s with agenda := u.agenda, draws := u.draws } := by
  refine ⟨(takeMove s).1, (takeMove s).2, h, ?_⟩
  unfold takeMove; split <;> rfl

end Sys2Proof.Machine
end

