-- ==== Sys2Proof/Laws/Paced.lean ====
section
/-! SUPPORT. A frame that arrives byte by byte within the rolling timeout is received as one that arrives at once (R114,
R115, R132): taking a byte looks at neither the time nor what else waits, and quiet moves within the timeout only pass
the time. -/

namespace Sys2Proof.Machine

open Safety

/-- Several steps and then several more. -/
theorem steps_add (m n : Nat) (s : State) : steps (m + n) s = andThen (steps m s) (steps n) := by
  induction m generalizing s with
  | zero => rw [Nat.zero_add]; rfl
  | succ m ih =>
    rw [Nat.succ_add, steps_succ, steps_succ, andThen_assoc]
    exact congrArg (andThen (step s)) (funext ih)

/-- The state at clock reading `c`, with `q` still unread and the moves `g` to come. -/
def around (c : Nat) (q : List Byte) (g : List Move) (s : State) : State :=
  { s with clock := c, rxLast := c, inbound := q, agenda := g }

theorem decideLength_around (c : Nat) (q : List Byte) (g : List Move) (s : State) :
    decideLength (around c q g s) = around c q g (decideLength s) := by
  simp only [decideLength, apply_ite (around c q g)]
  rfl

theorem verify_around (c : Nat) (q : List Byte) (g : List Move) (s : State) :
    verify (around c q g s) = andThen (verify s) fun t => .next (around c q g t) := by
  rw [verify_eq, verify_eq]
  by_cases h : 2 ≤ s.rxTotal.toNat ∧ s.rxTotal.toNat ≤ 65541
  · rw [if_pos h, if_pos (show 2 ≤ (around c q g s).rxTotal.toNat ∧ (around c q g s).rxTotal.toNat ≤ 65541 from h),
      andThen_next, apply_ite (around c q g)]
    rfl
  · rw [if_neg h,
      if_neg (show ¬ (2 ≤ (around c q g s).rxTotal.toNat ∧ (around c q g s).rxTotal.toNat ≤ 65541) from h)]
    rfl

theorem headerStep_around (b : Byte) (c : Nat) (q : List Byte) (g : List Move) (s : State) :
    headerStep b (around c q g s) = andThen (headerStep b s) fun t => .next (around c q g t) := by
  unfold headerStep
  show (if s.rxIdx = 0 then _ else if s.rxIdx = 1 then _ else if s.rxIdx = 2 then _ else
    if s.rxIdx = 3 then _ else _) = _
  repeat' split
  · rfl
  · rfl
  · rfl
  · exact congrArg Host.Outcome.next (decideLength_around c q g { storeByte 3 b s with rxIdx := 4 })
  · rfl

theorem bodyStep_around (b : Byte) (c : Nat) (q : List Byte) (g : List Move) (s : State) :
    bodyStep b (around c q g s) = andThen (bodyStep b s) fun t => .next (around c q g t) := by
  unfold bodyStep afterBodyByte
  show (if bodyIndex s < Config.frameMax then (if (storeBody b s).rxRem = 0 then _ else _) else _) = _
  repeat' split
  · exact verify_around c q g (storeBody b s)
  · rfl
  · rfl

/-- Taking a byte looks at neither the time nor what else is waiting. -/
theorem takeByte_around (b : Byte) (c : Nat) (q : List Byte) (g : List Move) (s : State) :
    takeByte b (around c q g s) = andThen (takeByte b s) fun t => .next (around c q g t) := by
  unfold takeByte
  show (if s.rxSt = .awaitHeaderByte then _ else _) = _
  split
  · exact headerStep_around b c q g s
  · exact bodyStep_around b c q g s

/-- Nor does taking all the bytes that wait. -/
theorem drain_around (n c : Nat) (q : List Byte) (g : List Move) {s t : State}
    (h : drain n { s with inbound := q } = .next t) :
    drain n (around c q g s) = .next (around c t.inbound g t) := by
  induction n generalizing s q with
  | zero => cases h; rfl
  | succ n ih =>
    by_cases hc : s.phase = .receive ∧ rxWaiting s = true
    · cases q with
      | nil =>
        have e : ∀ u : State, u.inbound = [] → drain (n + 1) u = .next u := by
          intro u hu; rw [drain, if_neg (by simp [rxAvail, hu])]
        rw [e _ rfl] at h; cases h; rw [e _ rfl]; rfl
      | cons b q =>
        rw [drain_cons (s := { s with inbound := b :: q }) hc.1 hc.2 rfl] at h
        rw [drain_cons (s := around c (b :: q) g s) hc.1 hc.2 rfl]
        have e1 : consumed q { s with inbound := b :: q } = around s.clock q s.agenda s := rfl
        have e2 : consumed q (around c (b :: q) g s) = around c q g s := rfl
        rw [e1, takeByte_around] at h
        rw [e2, takeByte_around]
        rcases hb : takeByte b s with u | x | x
        · rw [hb, andThen_next, andThen_next] at h
          rw [andThen_next, andThen_next]
          have := ih (s := around s.clock q s.agenda u) q h
          exact this
        · rw [hb] at h; cases h
        · rw [hb] at h; cases h
    · have e : ∀ u : State, u.phase = s.phase → u.rxSt = s.rxSt → drain (n + 1) u = .next u := by
        intro u h1 h2
        rw [drain, if_neg]
        rintro ⟨h3, h4, _⟩
        exact hc ⟨h1 ▸ h3, by simpa [rxWaiting, h2] using h4⟩
      rw [e { s with inbound := q } rfl rfl] at h; cases h
      rw [e (around c q g s) rfl rfl]; rfl

/-- A poll that finds nothing within the timeout changes nothing. -/
theorem engineStep_waits {s : State} (hp : Polling s) (hin : s.inbound = []) (h : s.clock - s.rxLast ≤ s.rxT) :
    engineStep s = .next s := by
  have hn : ¬ now s - s.rxLast > s.rxT := Nat.not_lt.2 h
  simp only [engineStep, hp.1, poll_idle ((rxWaiting_iff s).2 hp.2) hin, timeoutTest, if_neg hn]

/-- A poll that finds a byte takes it. -/
theorem engineStep_takes {s : State} {b : Byte} {rest : List Byte} (hp : Polling s) (hin : s.inbound = b :: rest) :
    engineStep s = takeByte b (consumed rest s) := by
  simp only [engineStep, hp.1]
  exact poll_byte ((rxWaiting_iff s).2 hp.2) hin

/-- Quiet moves within the timeout pass the time and nothing else. -/
theorem steps_quiet {ws : List (Option Nat)} {rest : List Move} {s : State} (hp : Polling s) (hin : s.inbound = [])
    (h : s.clock + (ws.map (·.getD 0)).sum - s.rxLast ≤ s.rxT) (ha : s.agenda = ws.map quietMove ++ rest) :
    steps ws.length s = .next { s with agenda := rest, clock := s.clock + (ws.map (·.getD 0)).sum } := by
  induction ws generalizing s with
  | nil => simp at ha; rw [← ha]; rfl
  | cons w ws ih =>
    rw [List.length_cons, steps_succ, step_cons (rest := ws.map quietMove ++ rest) ha]
    simp only [List.map_cons, List.sum_cons] at h
    cases w with
    | none =>
      rw [quietMove, stepMove_engine,
        engineStep_waits (s := { s with agenda := ws.map quietMove ++ rest }) hp hin (by simp at h ⊢; omega),
        andThen_next, ih (s := { s with agenda := ws.map quietMove ++ rest }) hp hin (by simpa using h) rfl]
      simp
    | some n =>
      rw [quietMove, stepMove_tick, andThen_next,
        ih (s := advance n { s with agenda := ws.map quietMove ++ rest }) hp hin (by simp at h ⊢; omega) rfl]
      simp [advance, Nat.add_assoc]

/-- A byte that arrives within the timeout and is polled is taken, at that time. -/
theorem steps_paced_byte {ws : List (Option Nat)} {b : Byte} {rest : List Move} {s : State} (hp : Polling s)
    (hin : s.inbound = []) (h : s.clock + (ws.map (·.getD 0)).sum - s.rxLast ≤ s.rxT)
    (ha : s.agenda = ws.map quietMove ++ .byte b :: .engine :: rest) :
    steps (ws.length + 2) s =
      andThen (takeByte b s) fun t => .next (around (s.clock + (ws.map (·.getD 0)).sum) [] rest t) := by
  have e : ∀ o : StepResult, andThen o (steps 0) = o := by intro o; cases o <;> rfl
  rw [steps_add, steps_quiet hp hin h ha, andThen_next, steps_succ,
    step_cons (m := .byte b) (rest := .engine :: rest) rfl, stepMove_byte, andThen_next, steps_succ,
    step_cons (m := .engine) (rest := rest) rfl, stepMove_engine, e, ← takeByte_around]
  exact engineStep_takes (b := b) (rest := []) hp (by simp [deliver, hin])

/-- A frame arriving byte by byte within the timeout leaves what the same bytes leave when they are taken at once, but for
the time. -/
theorem steps_paced {frame : List Byte} {waits : List (List (Option Nat))} {rest : List Move} {s t : State}
    (hp : s.phase = .receive) (hl : RxLive s) (hin : s.inbound = []) (hne : frame ≠ [])
    (hlen : waits.length = frame.length) (hc : s.rxLast = s.clock)
    (hw : ∀ w ∈ waits, (w.map (·.getD 0)).sum ≤ s.rxT) (ha : s.agenda = pacedArrival waits frame ++ rest)
    (hd : drain frame.length { s with inbound := frame } = .next t) (ht : t.inbound = []) :
    ∃ c, steps (pacedArrival waits frame).length s = .next (around c [] rest t) := by
  induction frame generalizing waits s t with
  | nil => exact absurd rfl hne
  | cons b bs ih =>
    match waits, hlen with
    | [], hlen => simp at hlen
    | w :: ws, hlen =>
      have hpo : Polling s := ⟨hp, hl.imp (·.1) (·.1)⟩
      have hsum := hw w (List.mem_cons_self ..)
      have h1 := steps_paced_byte (ws := w) (b := b) (rest := pacedArrival ws bs ++ rest) hpo hin (by omega)
        (by simpa [pacedArrival] using ha)
      rw [List.length_cons, drain_cons (s := { s with inbound := b :: bs }) (b := b) (rest := bs) hp
        ((rxWaiting_iff s).2 hpo.2) rfl,
        show consumed bs { s with inbound := b :: bs } = around s.clock bs s.agenda s from rfl, takeByte_around] at hd
      obtain ⟨u, hu, hcase⟩ := takeByte_live b hl
      rw [hu, andThen_next] at h1
      rw [hu, andThen_next, andThen_next] at hd
      have hsteps : (pacedArrival (w :: ws) (b :: bs)).length = (w.length + 2) + (pacedArrival ws bs).length := by
        simp [pacedArrival]; omega
      rw [hsteps, steps_add, h1, andThen_next]
      have hd' := drain_around bs.length (s.clock + (w.map (·.getD 0)).sum) bs (pacedArrival ws bs ++ rest)
        (s := around s.clock bs s.agenda u) hd
      by_cases hbs : bs = []
      · subst hbs
        obtain rfl : ws = [] := List.length_eq_zero_iff.1 (by simpa using hlen)
        cases hd
        exact ⟨_, rfl⟩
      · rcases hcase.2 with ⟨hup, -, hul⟩ | ⟨hup, -⟩
        · obtain ⟨c, hcc⟩ := ih (s := around (s.clock + (w.map (·.getD 0)).sum) [] (pacedArrival ws bs ++ rest) u)
            (t := around (s.clock + (w.map (·.getD 0)).sum) t.inbound (pacedArrival ws bs ++ rest) t)
            (hup.trans hp) hul rfl hbs (by simpa using hlen) rfl
            (fun w' h' => (hw w' (List.mem_cons_of_mem _ h')).trans_eq (takeByte_same hu).rxT.symm) rfl hd' ht
          exact ⟨c, hcc⟩
        · rw [drain_stop (by rw [show (around s.clock bs s.agenda u).phase = u.phase from rfl, hup]; decide)] at hd
          cases hd
          exact absurd ht hbs

end Sys2Proof.Machine
end

