-- ==== Sys2Proof/Laws/PerInstr.lean ====
section
/-! SUPPORT. Statements made for every instruction, one lemma per constructor. `EncodedLength`: the length of an
encoded frame is the one the format table gives (R64). -/

namespace Sys2Proof.Laws.EncodedLength

open Machine

/-- Total length of a read reply (R64, R68, R69). -/
def readReplyLength (fmt : LenFmt) (body : List Byte) : Nat :=
  match fmt with
  | .len1 => body.length + 5
  | .len2 => body.length + 6

/-- The total length R64 gives each format. -/
def tableLength (i : Instr) : Nat :=
  match i with
  | .readCoils _ _ | .readDiscrete _ _ | .readHolding _ _ _ | .readInput _ _ _ => 8
  | .writeSingleCoil _ _ _ | .writeSingleHolding _ _ _ => 8
  | .writeMultiCoils _ _ _ data => 9 + data.length
  | .writeMultiHolding _ _ values => 9 + 2 * values.length
  | .readHoldingOne _ _ | .readInputOne _ _ => 8
  | .readCoilsReply fmt _ body _ | .readDiscreteReply fmt _ body _ => readReplyLength fmt body
  | .readHoldingReply fmt _ body _ | .readInputReply fmt _ body _ => readReplyLength fmt body
  | .writeSingleCoilReply _ _ _ _ | .writeSingleHoldingReply _ _ _ _ => 8
  | .writeMultiCoilsReply _ _ _ _ | .writeMultiHoldingReply _ _ _ _ => 8
  | .readCoilsException _ _ _ | .readDiscreteException _ _ _ => 5
  | .readHoldingException _ _ _ | .readInputException _ _ _ => 5
  | .writeSingleCoilException _ _ _ | .writeSingleHoldingException _ _ _ => 5
  | .writeMultiCoilsException _ _ _ | .writeMultiHoldingException _ _ _ => 5
  | .setTimeout _ | .crcInit | .crcByte _ | .crc16 _ | .build _ _ _ | .receive _ _ _ _ => 0

/-- The encoded frame, where there is one, has the length of the table. -/
def Statement (i : Instr) : Prop := ∀ bs, encode i = some bs → bs.length = tableLength i

theorem rq8_length (a f : Byte) (r x : Word) : (rq8Frame a f r x).length = 8 := rfl

theorem rqm_length (a f : Byte) (r n : Word) (data : List Byte) :
    (rqmFrame a f r n data).length = 9 + data.length := by simp [rqmFrame]; omega

theorem readReply_length (fmt : LenFmt) (a f : Byte) (body : List Byte) (c : Word) :
    (readReplyFrame fmt a f body c).length = readReplyLength fmt body := by
  cases fmt <;> simp [readReplyFrame, lengthField, readReplyLength, be16]

theorem echo_length (a f : Byte) (r x c : Word) : (echoFrame a f r x c).length = 8 := rfl

theorem exception_length (a f code : Byte) (c : Word) : (exceptionFrame a f code c).length = 5 := rfl

theorem readCoils (a : Byte) (r : Word) : Statement (.readCoils a r) := fun _ h => by cases h; exact rq8_length ..
theorem readDiscrete (a : Byte) (r : Word) : Statement (.readDiscrete a r) := fun _ h => by cases h; exact rq8_length ..
theorem readHolding (a : Byte) (r : Word) (n : Word) : Statement (.readHolding a r n) := fun _ h => by cases h; exact rq8_length ..
theorem readInput (a : Byte) (r : Word) (n : Word) : Statement (.readInput a r n) := fun _ h => by cases h; exact rq8_length ..
theorem writeSingleCoil (a : Byte) (r : Word) (v : Bool) : Statement (.writeSingleCoil a r v) := fun _ h => by cases h; exact rq8_length ..
theorem writeSingleHolding (a : Byte) (r : Word) (v : Word) : Statement (.writeSingleHolding a r v) := fun _ h => by cases h; exact rq8_length ..
theorem writeMultiCoils (a : Byte) (r : Word) (count : Word) (data : List Byte) : Statement (.writeMultiCoils a r count data) := fun _ h => by cases h; exact rqm_length ..
theorem writeMultiHolding (a : Byte) (r : Word) (values : List Word) : Statement (.writeMultiHolding a r values) := fun _ h => by cases h; simp [rqm_length, tableLength]
theorem readHoldingOne (a : Byte) (r : Word) : Statement (.readHoldingOne a r) := fun _ h => by cases h; exact rq8_length ..
theorem readInputOne (a : Byte) (r : Word) : Statement (.readInputOne a r) := fun _ h => by cases h; exact rq8_length ..
theorem readCoilsReply (fmt : LenFmt) (a : Byte) (body : List Byte) (c : Word) : Statement (.readCoilsReply fmt a body c) := fun _ h => by cases h; exact readReply_length ..
theorem readDiscreteReply (fmt : LenFmt) (a : Byte) (body : List Byte) (c : Word) : Statement (.readDiscreteReply fmt a body c) := fun _ h => by cases h; exact readReply_length ..
theorem readHoldingReply (fmt : LenFmt) (a : Byte) (body : List Byte) (c : Word) : Statement (.readHoldingReply fmt a body c) := fun _ h => by cases h; exact readReply_length ..
theorem readInputReply (fmt : LenFmt) (a : Byte) (body : List Byte) (c : Word) : Statement (.readInputReply fmt a body c) := fun _ h => by cases h; exact readReply_length ..
theorem writeSingleCoilReply (a : Byte) (r : Word) (x : Word) (c : Word) : Statement (.writeSingleCoilReply a r x c) := fun _ h => by cases h; exact echo_length ..
theorem writeSingleHoldingReply (a : Byte) (r : Word) (x : Word) (c : Word) : Statement (.writeSingleHoldingReply a r x c) := fun _ h => by cases h; exact echo_length ..
theorem writeMultiCoilsReply (a : Byte) (r : Word) (x : Word) (c : Word) : Statement (.writeMultiCoilsReply a r x c) := fun _ h => by cases h; exact echo_length ..
theorem writeMultiHoldingReply (a : Byte) (r : Word) (x : Word) (c : Word) : Statement (.writeMultiHoldingReply a r x c) := fun _ h => by cases h; exact echo_length ..
theorem readCoilsException (a : Byte) (code : Byte) (c : Word) : Statement (.readCoilsException a code c) := fun _ h => by cases h; exact exception_length ..
theorem readDiscreteException (a : Byte) (code : Byte) (c : Word) : Statement (.readDiscreteException a code c) := fun _ h => by cases h; exact exception_length ..
theorem readHoldingException (a : Byte) (code : Byte) (c : Word) : Statement (.readHoldingException a code c) := fun _ h => by cases h; exact exception_length ..
theorem readInputException (a : Byte) (code : Byte) (c : Word) : Statement (.readInputException a code c) := fun _ h => by cases h; exact exception_length ..
theorem writeSingleCoilException (a : Byte) (code : Byte) (c : Word) : Statement (.writeSingleCoilException a code c) := fun _ h => by cases h; exact exception_length ..
theorem writeSingleHoldingException (a : Byte) (code : Byte) (c : Word) : Statement (.writeSingleHoldingException a code c) := fun _ h => by cases h; exact exception_length ..
theorem writeMultiCoilsException (a : Byte) (code : Byte) (c : Word) : Statement (.writeMultiCoilsException a code c) := fun _ h => by cases h; exact exception_length ..
theorem writeMultiHoldingException (a : Byte) (code : Byte) (c : Word) : Statement (.writeMultiHoldingException a code c) := fun _ h => by cases h; exact exception_length ..
theorem setTimeout (t : Nat) : Statement (.setTimeout t) := fun _ h => by cases h
theorem crcInit : Statement .crcInit := fun _ h => by cases h
theorem crcByte (b : Byte) : Statement (.crcByte b) := fun _ h => by cases h
theorem crc16 (bs : List Byte) : Statement (.crc16 bs) := fun _ h => by cases h
theorem build (a : Byte) (f : Byte) (p : List Byte) : Statement (.build a f p) := fun _ h => by cases h
theorem receive (ea : Byte) (ef : Byte) (ev : Val17) (T : Nat) : Statement (.receive ea ef ev T) := fun _ h => by cases h

end Sys2Proof.Laws.EncodedLength
end

