-- ==== Sys2Proof/Laws/Views.lean ====
section
/-! SUPPORT. The typed views said once: when a result is one the views are defined for, and that no other has a view. -/

namespace Sys2Proof.Machine

/-- When the views are defined (R148): a valid result of status 0 whose frame has a function byte with bit 7 clear. -/
theorem resNormal_iff (s : State) : resNormal s = true ↔
    s.resValid = true ∧ s.resStatus = 0 ∧ 2 ≤ s.resFrame.length ∧ (s.resFrame.getD 1 0).getLsbD 7 = false := by
  simp [resNormal, successFlag, exceptionFlag, and_assoc]

/-- The status view, where it is defined. -/
theorem viewStatus_normal {s : State} (h : resNormal s = true) : viewStatus s = some 0 := by
  rw [viewStatus, if_pos h, ((resNormal_iff s).1 h).2.1]

/-- The body view, where it is defined. -/
theorem resBody_normal {s : State} (h : resNormal s = true) : resBody s = bodyOf s.expVal s.resFrame := if_pos h

/-- No instruction has a typed result of any other outcome (R148, R183). -/
theorem typedResult_none {s : State} (h : resNormal s = false) (i : Instr) : typedResult i s = none := by
  cases i <;> simp [typedResult, viewBit, viewWord, viewData, viewStatus, resBody, h]

end Sys2Proof.Machine
end

