-- ==== Sys2Proof/Tests/Slice0.lean ====
section
/-! SUPPORT. Tests of the model against the vectors of spec/95_test_vectors.md, and for each statement a concrete state
and operands that meet its hypotheses. Expected values are the spec's. -/

namespace Sys2Proof.Tests

set_option Elab.async false

open Machine Safety

/-! ### States the tests start from -/

/-- `TIMEOUT` written, stale bytes on the line (T1). -/
def ready : State := { State.reset with timeout := 50, timeoutSet := true, clock := 1000, inbound := [0x55, 0xAA] }

/-- The receiver just started at 1050 (R113). -/
def listening (ea ef : Byte) (ev : Val17) : State :=
  { State.reset with
    phase := .receive, timeout := 50, timeoutSet := true, clock := 1050, rxLast := 1050, rxT := 50
    cmdDev := ea, cmdOp := ef, expAddr := ea, expFn := ef, expVal := ev }

/-- A state one byte before the end of the reply V54. -/
def lastByte : State :=
  { listening 0x01 0x03 2 with
    rxSt := .awaitBody, rxIdx := 4, rxTotal := 7, rxRem := 1, inbound := [0x33]
    buf := [(0, 0x01), (1, 0x03), (2, 0x02), (3, 0x12), (4, 0x34), (5, 0xB5)] }

/-- A command accepted and in this phase, its operands V28's. -/
def inPhase (p : Phase) : State :=
  { ready with phase := p, cmdOp := 0x06, cmdDev := 0x01, cmdReg := 0x0001, cmdArg := 0x0003 }

/-- The result of an outcome, for comparison. -/
def result (o : StepResult) : Option (Phase × Byte × List Byte) :=
  (nextOf o).map fun s => (s.phase, s.resStatus, s.resFrame)

/-- The bytes handed to the transport, for comparison. -/
def sent (o : StepResult) : Option (List Byte) := (nextOf o).map fun s => s.outbound

/-! ### Well-formedness: an ill-formed term for each check -/

theorem test_wf_multiCoils : WellFormed (.writeMultiCoils 1 0 0 (List.replicate 256 0)) = false := by decide +kernel
theorem test_wf_multiHolding : WellFormed (.writeMultiHolding 1 0 (List.replicate 128 0)) = false := by
  decide +kernel
theorem test_wf_readCoilsReply : WellFormed (.readCoilsReply .len1 1 (List.replicate 256 0) 0) = false := by
  decide +kernel
theorem test_wf_readDiscreteReply : WellFormed (.readDiscreteReply .len1 1 (List.replicate 256 0) 0) = false := by
  decide +kernel
theorem test_wf_readHoldingReply : WellFormed (.readHoldingReply .len1 1 (List.replicate 256 0) 0) = false := by
  decide +kernel
theorem test_wf_readInputReply : WellFormed (.readInputReply .len1 1 (List.replicate 256 0) 0) = false := by
  decide +kernel
theorem test_wf_len2 (body : List Byte) (h : body.length = 65536) :
    WellFormed (.readInputReply .len2 1 body 0) = false := by simp [WellFormed, bodyFits, h]
theorem test_wf_receive : WellFormed (.receive 1 0x07 0 0) = false := by decide
theorem test_wf_fits : WellFormed (.writeMultiCoils 1 0 0 (List.replicate 255 0)) = true ∧
    WellFormed (.readHoldingReply .len2 1 (List.replicate 256 0) 0) = true := by decide +kernel

/-! ### CRC vectors (95_test_vectors.md 2.1) -/

theorem test_crc_V1 : crcRaw [] = 0xFFFF := by decide
theorem test_crc_V2 : crc16 [0x01, 0x03, 0x00, 0x00, 0x00, 0x01] = 0x840A := by decide +kernel
theorem test_crc_V3 : crcRaw [0x31, 0x32, 0x33, 0x34, 0x35, 0x36, 0x37, 0x38, 0x39] = 0x4B37 := by decide +kernel
theorem test_crc_V8 : crcRaw [0x00, 0x00] = 0xB001 := by decide +kernel
theorem test_crc_V13 : crc16 [0xF7, 0x03, 0xFF, 0xFF, 0x00, 0x7D] = 0x9159 := by decide +kernel
set_option maxRecDepth 100000 in
theorem test_crc_V69 : crc16 ([0x01, 0x03, 0x01, 0x00] ++ (List.range 256).map (BitVec.ofNat 8)) = 0x28E8 := by
  decide +kernel
theorem test_crcInit : (nextOf (exec .crcInit lastByte)).map (·.crc) = some 0xFFFF := by decide +kernel
theorem test_crcByte : (nextOf (exec (.crcByte 0x03) { ready with crc := 0x807E })).map (·.crc) = some 0x2140 := by
  decide +kernel
theorem test_crc16 : (nextOf (exec (.crc16 [0x01, 0x83, 0x02]) ready)).map (·.retWord) = some 0xC0F1 := by
  decide +kernel
theorem test_build : (nextOf (exec (.build 0x01 0x03 []) ready)).map (·.retBytes) = some [0x01, 0x03, 0x40, 0x21] := by
  decide +kernel
theorem test_build_unchecked : (nextOf (exec (.build 0xFF 0x7F [0x00]) ready)).map (·.retBytes) =
    some [0xFF, 0x7F, 0x00, 0x61, 0xC0] := by decide +kernel

/-! ### Decoding words written out from the formats (95_test_vectors.md 2.2) -/

theorem test_decode_V20 : decodeRequest [0x01, 0x01, 0x00, 0x13, 0x00, 0x01, 0x0C, 0x0F] =
    .ok (.readCoils 0x01 0x0013, []) := by decide +kernel
theorem test_decode_V21 : decodeRequest [0x01, 0x02, 0x00, 0xC4, 0x00, 0x01, 0xF8, 0x37] =
    .ok (.readDiscrete 0x01 0x00C4, []) := by decide +kernel
theorem test_decode_V32 : decodeRequest [0xF7, 0x03, 0xFF, 0xFF, 0x00, 0x7D, 0x91, 0x59] =
    .ok (.readHolding 0xF7 0xFFFF 125, []) := by decide +kernel
theorem test_decode_V25 : decodeRequest [0x01, 0x04, 0x00, 0x08, 0x00, 0x02, 0xF0, 0x09] =
    .ok (.readInput 0x01 0x0008 2, []) := by decide +kernel
theorem test_decode_V27 : decodeRequest [0x01, 0x05, 0x00, 0xAC, 0x00, 0x00, 0x0D, 0xEB] =
    .ok (.writeSingleCoil 0x01 0x00AC false, []) := by decide +kernel
theorem test_decode_V28 : decodeRequest [0x01, 0x06, 0x00, 0x01, 0x00, 0x03, 0x98, 0x0B] =
    .ok (.writeSingleHolding 0x01 0x0001 0x0003, []) := by decide +kernel
theorem test_decode_V30 : decodeRequest [0x01, 0x0F, 0x00, 0x13, 0x00, 0x0A, 0x02, 0xCD, 0x01, 0x72, 0xCB] =
    .ok (.writeMultiCoils 0x01 0x0013 10 [0xCD, 0x01], []) := by decide +kernel
theorem test_decode_V31 :
    decodeRequest [0x01, 0x10, 0x00, 0x01, 0x00, 0x02, 0x04, 0x00, 0x0A, 0x01, 0x02, 0x92, 0x30] =
      .ok (.writeMultiHolding 0x01 0x0001 [0x000A, 0x0102], []) := by decide +kernel
theorem test_decode_V50 : decodeReply .len1 [0x01, 0x01, 0x01, 0x01, 0x90, 0x48] =
    .ok (.readCoilsReply .len1 0x01 [0x01] 0x9048, []) := by decide +kernel
theorem test_decode_V53 : decodeReply .len1 [0x01, 0x02, 0x01, 0x00, 0xA1, 0x88] =
    .ok (.readDiscreteReply .len1 0x01 [0x00] 0xA188, []) := by decide +kernel
theorem test_decode_V58 : decodeReply .len1 [0x01, 0x03, 0x00, 0x20, 0xF0] =
    .ok (.readHoldingReply .len1 0x01 [] 0x20F0, []) := by decide +kernel
theorem test_decode_len2 : decodeReply .len2 [0x01, 0x04, 0x00, 0x01, 0xAB, 0x12, 0x34] =
    .ok (.readInputReply .len2 0x01 [0xAB] 0x1234, []) := by decide +kernel
theorem test_decode_V57 : decodeReply .len1 [0x01, 0x04, 0x04, 0x00, 0x0A, 0xFF, 0xFE, 0x1B, 0xF6] =
    .ok (.readInputReply .len1 0x01 [0x00, 0x0A, 0xFF, 0xFE] 0x1BF6, []) := by decide +kernel
theorem test_decode_coilEcho : decodeReply .len1 [0x01, 0x05, 0x00, 0xAC, 0xFF, 0x00, 0x4C, 0x1B] =
    .ok (.writeSingleCoilReply 0x01 0x00AC 0xFF00 0x4C1B, []) := by decide +kernel
theorem test_decode_V67 : decodeReply .len1 [0x01, 0x06, 0x00, 0x02, 0x00, 0x03, 0x68, 0x0B] =
    .ok (.writeSingleHoldingReply 0x01 0x0002 0x0003 0x680B, []) := by decide +kernel
theorem test_decode_V59 : decodeReply .len1 [0x01, 0x0F, 0x00, 0x13, 0x00, 0x0A, 0x24, 0x09] =
    .ok (.writeMultiCoilsReply 0x01 0x0013 0x000A 0x2409, []) := by decide +kernel
theorem test_decode_V60 : decodeReply .len1 [0x01, 0x10, 0x00, 0x01, 0x00, 0x02, 0x10, 0x08] =
    .ok (.writeMultiHoldingReply 0x01 0x0001 0x0002 0x1008, []) := by decide +kernel
theorem test_decode_V62 : decodeReply .len1 [0x01, 0x81, 0x01, 0x81, 0x90] =
    .ok (.readCoilsException 0x01 0x01 0x8190, []) := by decide +kernel
theorem test_decode_V63 : decodeReply .len1 [0x01, 0x86, 0x03, 0x02, 0x61] =
    .ok (.writeSingleHoldingException 0x01 0x03 0x0261, []) := by decide +kernel
theorem test_decode_V64 : decodeReply .len1 [0x01, 0x90, 0x04, 0x4D, 0xC3] =
    .ok (.writeMultiHoldingException 0x01 0x04 0x4DC3, []) := by decide +kernel
theorem test_decode_exceptions :
    decodeReply .len1 [0x01, 0x82, 0x02, 0x00, 0x00] = .ok (.readDiscreteException 0x01 0x02 0, []) ∧
      decodeReply .len1 [0x01, 0x84, 0x02, 0x00, 0x00] = .ok (.readInputException 0x01 0x02 0, []) ∧
      decodeReply .len1 [0x01, 0x85, 0x02, 0x00, 0x00] = .ok (.writeSingleCoilException 0x01 0x02 0, []) ∧
      decodeReply .len1 [0x01, 0x8F, 0x02, 0x00, 0x00] = .ok (.writeMultiCoilsException 0x01 0x02 0, []) := by
  decide +kernel
theorem test_decode_port :
    decodePort ⟨0x05, 0x01, 0x00AC, 0xFFFE, []⟩ = .ok (.writeSingleCoil 0x01 0x00AC false) ∧
      decodePort ⟨0x10, 0x01, 0x0001, 2, [0x00, 0x0A, 0x01, 0x02]⟩ =
        .ok (.writeMultiHolding 0x01 0x0001 [0x000A, 0x0102]) := by decide +kernel

/-! ### Rejections -/

theorem test_reject_function : decodeRequest [0x01, 0x07, 0x00, 0x00, 0x00, 0x01, 0x00, 0x00] =
    .error (.unknownFunction 0x07) := by decide +kernel
theorem test_reject_trailer : decodeRequest [0x01, 0x03, 0x00, 0x00, 0x00, 0x01, 0x0A, 0x84] =
    .error .badTrailer := by decide +kernel
theorem test_reject_truncated : decodeRequest [0x01, 0x03, 0x00, 0x00, 0x00, 0x01, 0x84] = .error .truncated := by
  decide +kernel
theorem test_reject_coil : decodeCoil 0x0001 = .error .badCoilValue := by decide
theorem test_reject_reply : decodeReply .len1 [0x01, 0x87, 0x02, 0x00, 0x00] = .error (.unknownFunction 0x87) := by
  decide +kernel
theorem test_reject_port : decodePort ⟨0x10, 1, 0, 128, []⟩ = .error .operandLimits ∧
    decodePort ⟨0x01, 1, 0, 0, List.replicate 256 0⟩ = .error .operandLimits ∧
    decodePort ⟨0x10, 1, 0, 2, [0, 1, 2]⟩ = .error .noValueList := by decide +kernel

/-! ### Table words and the place a step takes them from -/

theorem test_table_words :
    decodeTableWord 8 0x01 = some (.readCoils 0 0) ∧ decodeTableWord 8 0x0F = some (.writeMultiCoils 0 0 0 []) ∧
      decodeTableWord 40 0x00FF130005 = some (.writeSingleCoil 0 0x0013 true) ∧
      decodeTableWord 40 0x0000130005 = some (.writeSingleCoil 0 0x0013 false) ∧
      decodeTableWord 40 0x0100130005 = none ∧
      decodeTableWord 64 0x0300130006 = some (.writeSingleHolding 0 0x0013 0x0003) ∧
      decodeTableWord 8 0x90 = some (.writeMultiHoldingException 0 0 0) ∧ decodeTableWord 8 0x07 = none := by
  decide +kernel
theorem test_withFetchWord :
    step (State.withFetchWord State.reset 8 0x06) =
      exec (.writeSingleHolding 0 0 0) { State.reset with timeoutSet := true } := rfl
theorem test_withFetchWord_reply :
    step (State.withFetchWord State.reset 8 0x83) = exec (.readHoldingException 0 0 0) State.reset := rfl

/-! ### One step of each command (V20 to V49) -/

theorem test_readCoils : sent (exec (.readCoils 0x01 0x0013) ready) =
    some [0x01, 0x01, 0x00, 0x13, 0x00, 0x01, 0x0C, 0x0F] := by decide +kernel
theorem test_readDiscrete : sent (exec (.readDiscrete 0x01 0x00C4) ready) =
    some [0x01, 0x02, 0x00, 0xC4, 0x00, 0x01, 0xF8, 0x37] := by decide +kernel
theorem test_readHolding : sent (exec (.readHolding 0x11 0x006B 3) ready) =
    some [0x11, 0x03, 0x00, 0x6B, 0x00, 0x03, 0x76, 0x87] := by decide +kernel
theorem test_readInput : sent (exec (.readInput 0x01 0x0008 2) ready) =
    some [0x01, 0x04, 0x00, 0x08, 0x00, 0x02, 0xF0, 0x09] := by decide +kernel
theorem test_readHoldingOne : sent (exec (.readHoldingOne 0x01 0x0000) ready) =
    some [0x01, 0x03, 0x00, 0x00, 0x00, 0x01, 0x84, 0x0A] := by decide +kernel
theorem test_readInputOne : sent (exec (.readInputOne 0x01 0x0008) ready) =
    some [0x01, 0x04, 0x00, 0x08, 0x00, 0x01, 0xB0, 0x08] := by decide +kernel
theorem test_writeSingleCoil : sent (exec (.writeSingleCoil 0x00 0xFFFF true) ready) =
    some [0x00, 0x05, 0xFF, 0xFF, 0xFF, 0x00, 0x8D, 0xCF] := by decide +kernel
theorem test_writeSingleHolding : sent (exec (.writeSingleHolding 0x00 0x0001 0x0003) ready) =
    some [0x00, 0x06, 0x00, 0x01, 0x00, 0x03, 0x99, 0xDA] := by decide +kernel
theorem test_writeMultiCoils : sent (exec (.writeMultiCoils 0x01 0x0013 10 [0xCD, 0x01]) ready) =
    some [0x01, 0x0F, 0x00, 0x13, 0x00, 0x0A, 0x02, 0xCD, 0x01, 0x72, 0xCB] := by decide +kernel
theorem test_writeMultiHolding : sent (exec (.writeMultiHolding 0xF7 0xFFFF [0xFFFF]) ready) =
    some [0xF7, 0x10, 0xFF, 0xFF, 0x00, 0x01, 0x02, 0xFF, 0xFF, 0x93, 0x44] := by decide +kernel
theorem test_flushed : (nextOf (exec (.readHoldingOne 0x01 0x0000) ready)).map (fun s => (s.inbound, s.phase, s.tTx)) =
    some ([], .pause, 1000) := by decide +kernel
theorem test_address_V40 : (nextOf (exec (.readCoils 0x00 0x0013) { ready with inbound := [0x99] })).map
    (fun s => (s.phase, s.resStatus, s.resFrame, s.inbound, s.outbound)) = some (.done, 11, [], [0x99], []) := by
  decide +kernel
theorem test_address_V42 : sent (exec (.readHolding 247 0xFFFF 125) ready) =
    some [0xF7, 0x03, 0xFF, 0xFF, 0x00, 0x7D, 0x91, 0x59] := by decide +kernel
theorem test_address_V48 : result (exec (.writeSingleHolding 248 1 3) ready) = some (.done, 11, []) := by
  decide +kernel
theorem test_setTimeout : (nextOf (exec (.setTimeout 0) lastByte)) = none ∧
    (nextOf (exec (.setTimeout 0) ready)).map (·.timeout) = some 0 := by decide +kernel

/-! ### One step of each reply (V50 to V69, T3 to T6) -/

theorem test_readCoilsReply : result (exec (.readCoilsReply .len1 0x01 [0x01] 0x9048) (listening 0x01 0x01 1)) =
    some (.done, 0, [0x01, 0x01, 0x01, 0x01, 0x90, 0x48]) := by decide +kernel
theorem test_readDiscreteReply :
    result (exec (.readDiscreteReply .len1 0x01 [0x00] 0xA188) (listening 0x01 0x02 1)) =
      some (.done, 0, [0x01, 0x02, 0x01, 0x00, 0xA1, 0x88]) := by decide +kernel
theorem test_readHoldingReply : result (exec (.readHoldingReply .len1 0x01 [] 0x20F0) (listening 0x01 0x03 0)) =
    some (.done, 0, [0x01, 0x03, 0x00, 0x20, 0xF0]) := by decide +kernel
theorem test_readInputReply_T6 :
    result (exec (.readInputReply .len1 0x01 [0x00, 0x0B] 0x3937) (listening 0x01 0x04 2)) = some (.done, 8, []) := by
  decide +kernel
theorem test_writeSingleCoilReply :
    result (exec (.writeSingleCoilReply 0x01 0x00AC 0xFF00 0x4C1B) (listening 0x01 0x05 0x00AC)) =
      some (.done, 0, [0x01, 0x05, 0x00, 0xAC, 0xFF, 0x00, 0x4C, 0x1B]) := by decide +kernel
theorem test_writeSingleHoldingReply_V68 :
    result (exec (.writeSingleHoldingReply 0x01 0x0001 0x0004 0xD9C9) (listening 0x01 0x06 0x0001)) =
      some (.done, 0, [0x01, 0x06, 0x00, 0x01, 0x00, 0x04, 0xD9, 0xC9]) := by decide +kernel
theorem test_writeSingleHoldingReply_V67 :
    (nextOf (exec (.writeSingleHoldingReply 0x01 0x0002 0x0003 0x680B) (listening 0x01 0x06 0x0001))).map
      (fun s => (s.phase, s.rxSt, s.rxIdx, s.inbound)) = some (.receive, .awaitHeaderByte, 0, []) := by decide +kernel
theorem test_writeMultiCoilsReply :
    result (exec (.writeMultiCoilsReply 0x01 0x0013 0x000A 0x2409) (listening 0x01 0x0F 0x0013)) =
      some (.done, 0, [0x01, 0x0F, 0x00, 0x13, 0x00, 0x0A, 0x24, 0x09]) := by decide +kernel
theorem test_writeMultiHoldingReply_T8 :
    (nextOf (exec (.writeMultiHoldingReply 0x01 0x0001 0x0002 0x1008) (listening 0x01 0x10 0x0001))).map resultRecord =
      some [0x00, 0x01, 0x10, 0x00, 0x01, 0x00, 0x02, 0x10, 0x08] := by decide +kernel
theorem test_exception_T3 :
    result (exec (.readHoldingException 0x01 0x02 0xC0F1) (listening 0x01 0x03 2)) =
      some (.done, 2, [0x01, 0x83, 0x02, 0xC0, 0xF1]) := by decide +kernel
theorem test_exception_T4 :
    result (exec (.writeSingleHoldingException 0x01 0x03 0x0261) (listening 0x01 0x06 0x0001)) =
      some (.done, 3, [0x01, 0x86, 0x03, 0x02, 0x61]) := by decide +kernel
theorem test_exception_V62 : result (exec (.readCoilsException 0x01 0x01 0x8190) (listening 0x01 0x01 1)) =
    some (.done, 1, [0x01, 0x81, 0x01, 0x81, 0x90]) := by decide +kernel
theorem test_exception_V64 : result (exec (.writeMultiHoldingException 0x01 0x04 0x4DC3) (listening 0x01 0x10 1)) =
    some (.done, 4, [0x01, 0x90, 0x04, 0x4D, 0xC3]) := by decide +kernel
theorem test_exception_badTrailer :
    result (exec (.readDiscreteException 0x01 0x02 0) (listening 0x01 0x02 1)) = some (.done, 8, []) ∧
      result (exec (.readInputException 0x01 0x02 0) (listening 0x01 0x04 2)) = some (.done, 8, []) ∧
      result (exec (.writeSingleCoilException 0x01 0x02 0) (listening 0x01 0x05 2)) = some (.done, 8, []) ∧
      result (exec (.writeMultiCoilsException 0x01 0x02 0) (listening 0x01 0x0F 2)) = some (.done, 8, []) := by
  decide +kernel
theorem test_reply_waits : (nextOf (exec (.readHoldingException 0x01 0x02 0xC0F1) (inPhase .pause))).map (·.inbound) =
    some [0x55, 0xAA, 0x01, 0x83, 0x02, 0xC0, 0xF1] := by decide +kernel

/-! ### The receiver and the clock (T1, T7, T9) -/

theorem test_receive : result (exec (.receive 0x01 0x03 2 50)
    { ready with inbound := [0xFF, 0x01, 0x03, 0x02, 0x12, 0x34, 0xB5, 0x33, 0x77] }) =
      some (.done, 0, [0x01, 0x03, 0x02, 0x12, 0x34, 0xB5, 0x33]) := by decide +kernel
theorem test_receive_lost : (nextOf (exec (.receive 0x01 0x03 2 50)
    { ready with inbound := [0x01, 0x01, 0x03, 0x02, 0x12, 0x34, 0xB5, 0x33] })).map (fun s => (s.phase, s.rxIdx)) =
      some (.receive, 0) := by decide +kernel
theorem test_timeout_at_50 : engineStep { listening 0x00 0x06 1 with clock := 1100 } =
    .next { listening 0x00 0x06 1 with clock := 1100 } := rfl
theorem test_timeout_at_51 : result (engineStep { listening 0x00 0x06 1 with clock := 1101 }) = some (.done, 9, []) := by
  decide +kernel
theorem test_pause_at_49 : (nextOf (engineStep { inPhase .pause with tTx := 1000, clock := 1049 })).map (·.phase) =
    some .pause := by decide +kernel
theorem test_pause_at_50 : (nextOf (engineStep { inPhase .pause with tTx := 1000, clock := 1050 })).map
    (fun s => (s.phase, s.expAddr, s.expFn, s.expVal, s.rxLast)) = some (.receive, 0x01, 0x06, 0x0001, 1050) := by
  decide +kernel
theorem test_length_exception : (nextOf (engineStep
    { listening 0x01 0x06 1 with
      rxIdx := 3, inbound := [0x02], buf := [(0, 0x01), (1, 0x86), (2, 0x03)] })).map
        (fun s => (s.rxTotal, s.rxRem, s.rxSt)) = some (5, 1, .awaitBody) := by decide +kernel
theorem test_length_two_bytes : (nextOf (engineStep
    { listening 0x01 0x03 256 with
      rxIdx := 3, inbound := [0xFF], buf := [(0, 0x01), (1, 0x03), (2, 0xFF)] })).map
        (fun s => (s.rxTotal, s.rxRem)) = some (65541, 65537) := by decide +kernel
theorem test_view_T14 : (nextOf (exec (.readCoilsReply .len1 0x01 [0x01] 0x9048) (listening 0x01 0x01 1))).map viewBit =
    some (some true) := by decide +kernel
theorem test_view_T15 :
    (nextOf (exec (.readHoldingReply .len1 0x11 [0x02, 0x2B, 0x00, 0x00, 0x00, 0x64] 0xC8BA)
      (listening 0x11 0x03 6))).map viewValues = some (some [0x022B, 0x0000, 0x0064]) := by decide +kernel
theorem test_view_exception : (nextOf (exec (.readHoldingException 0x01 0x00 0x4130) (listening 0x01 0x03 2))).map
    (fun s => (s.resStatus, viewWord s)) = some (0, none) := by decide +kernel
theorem test_reset_wf : Memory.wf State.reset.buf = true := rfl

/-! ### Witnesses: for each statement with hypotheses, a concrete state and operands that meet them together -/

theorem ready_accepting : Accepting ready := ⟨.inl rfl, rfl⟩
theorem done_accepting : Accepting { ready with phase := .done, resValid := true } := ⟨.inr rfl, rfl⟩
theorem listening_ready (ea ef : Byte) (ev : Val17) : ReadyFor ea ef (listening ea ef ev) :=
  ⟨rfl, rfl, rfl, rfl, rfl, rfl⟩
theorem listening_inFlight : InFlight (listening 0x01 0x03 2) := by simp [InFlight, HostMayMove, listening]

/-- A sound state in the receive phase: `ReadHolding 1 0 1` listening for its answer. -/
def soundListening : State :=
  { listening 0x01 0x03 2 with cmdArg := 1, clock := 1101, agenda := [.engine] }

/-- A sound state about to transmit `ReadHolding 1 0 1`. -/
def soundTransmit : State := { soundListening with phase := .transmit }

theorem soundListening_sound : Sound soundListening where
  bufWf := rfl
  bufRange := by intro c h; cases h
  validIff := by decide
  timeoutWritten _ := rfl
  dataFits := by decide
  linesFit := by decide
  command _ := ⟨.readHolding, rfl, by decide⟩
  address _ := ⟨.readHolding, rfl, by decide, by decide⟩
  pauseClock := by decide
  progressClock := by decide
  inputs _ := ⟨rfl, rfl, rfl, .readHolding, rfl, by decide⟩
  receiver _ := .inl ⟨rfl, by decide⟩

theorem soundTransmit_sound : Sound soundTransmit where
  bufWf := rfl
  bufRange := by intro c h; cases h
  validIff := by decide
  timeoutWritten _ := rfl
  dataFits := by decide
  linesFit := by decide
  command _ := ⟨.readHolding, rfl, by decide⟩
  address _ := ⟨.readHolding, rfl, by decide, by decide⟩
  pauseClock := by decide
  progressClock := by decide
  inputs h := by cases h
  receiver h := by cases h

theorem witness_RequestDecodeEncode : WellFormed (.writeMultiCoils 0x01 0x0013 10 [0xCD, 0x01]) = true ∧
    (portOf (.writeMultiCoils 0x01 0x0013 10 [0xCD, 0x01])).isSome = true ∧
    encode (.writeMultiCoils 0x01 0x0013 10 [0xCD, 0x01]) =
      some [0x01, 0x0F, 0x00, 0x13, 0x00, 0x0A, 0x02, 0xCD, 0x01, 0x72, 0xCB] := by decide +kernel
theorem witness_ReplyDecodeEncode : bodyFits .len1 [] = true ∧ bodyFits .len1 (List.replicate 255 0) = true ∧
    bodyFits .len1 (List.replicate 256 0) = false ∧ bodyFits .len2 (List.replicate 256 0) = true := by decide +kernel
theorem witness_RequestDecodeIsExact : ∃ i rest,
    decodeRequest [0x01, 0x0F, 0x00, 0x13, 0x00, 0x0A, 0x02, 0xCD, 0x01, 0x72, 0xCB, 0x55] = .ok (i, rest) :=
  ⟨.writeMultiCoils 0x01 0x0013 10 [0xCD, 0x01], [0x55], by decide +kernel⟩
theorem witness_ReplyDecodeIsExact :
    ∃ i rest, decodeReply .len1 [0x01, 0x03, 0x02, 0x12, 0x34, 0xB5, 0x33, 0x55] = .ok (i, rest) :=
  ⟨.readHoldingReply .len1 0x01 [0x12, 0x34] 0xB533, [0x55], by decide +kernel⟩
theorem witness_PortDecodeEncode : WellFormed (.writeMultiHolding 0x01 0x0001 [0x000A, 0x0102]) = true ∧
    portOf (.writeMultiHolding 0x01 0x0001 [0x000A, 0x0102]) =
      some ⟨0x10, 0x01, 0x0001, 2, [0x00, 0x0A, 0x01, 0x02]⟩ := by decide
theorem witness_ReservedOperationRefused :
    (0x07 : Byte) ∉ ([0x01, 0x02, 0x03, 0x04, 0x05, 0x06, 0x0F, 0x10] : List Byte) ∧
      (0x11 : Byte) ∉ ([0x01, 0x02, 0x03, 0x04, 0x05, 0x06, 0x0F, 0x10] : List Byte) ∧
      step { ready with agenda := [.command ⟨0x07, 1, 0, 0, []⟩] } = .refused .unknownCommand ∧
      step { ready with agenda := [.issue ⟨0x11, 1, 0, 0, []⟩] } = .refused .unknownCommand :=
  ⟨by decide, by decide, rfl, rfl⟩
theorem witness_ReadCommandsTransmit :
    Accepting ready ∧ 1 ≤ (1 : Byte).toNat ∧ 1 ≤ (247 : Byte).toNat ∧ (247 : Byte).toNat ≤ 247 :=
  ⟨ready_accepting, by decide⟩
theorem witness_WriteCommandsTransmit : Accepting ready ∧ (0 : Byte).toNat ≤ 247 ∧ (247 : Byte).toNat ≤ 247 ∧
    (List.replicate 255 (0 : Byte)).length ≤ 255 ∧ (List.replicate 127 (0 : Word)).length ≤ 127 :=
  ⟨ready_accepting, by decide +kernel⟩
theorem witness_InvalidAddressEndsCommand : Accepting { ready with phase := .done, resValid := true } ∧
    ((0 : Byte) = 0 ∨ 247 < (0 : Byte).toNat) ∧ 247 < (248 : Byte).toNat ∧ 247 < (255 : Byte).toNat :=
  ⟨done_accepting, by decide⟩
theorem witness_AddressTestDecides : (inPhase .validate).phase = .validate ∧
    (nextOf (engineStep { inPhase .validate with cmdOp := 0x03, cmdDev := 247 })).map (·.phase) = some .flush ∧
    (nextOf (engineStep { inPhase .validate with cmdOp := 0x03, cmdDev := 0 })).map (·.phase) = some .done ∧
    (nextOf (engineStep { inPhase .validate with cmdOp := 0x05, cmdDev := 0 })).map (·.phase) = some .flush ∧
    (nextOf (engineStep { inPhase .validate with cmdOp := 0x05, cmdDev := 248 })).map (·.phase) = some .done := by
  decide +kernel
theorem witness_CommandsRefusedInFlight : InFlight (listening 0x01 0x03 2) ∧
    exec (.setTimeout 7) (listening 0x01 0x03 2) = .refused .portBusy := ⟨listening_inFlight, rfl⟩
theorem witness_CommandsNeedTimeout : HostMayMove State.reset ∧ State.reset.timeoutSet = false := ⟨.inl rfl, rfl⟩
set_option maxRecDepth 100000 in
theorem witness_OperandLimitsRefused : 255 < (List.replicate 256 (0 : Byte)).length ∧
    127 < (List.replicate 128 (0 : Word)).length ∧
    step { ready with agenda := [.command ⟨0x10, 1, 0, 128, [0, 1, 2]⟩] } = .refused .operandLimits ∧
    step { ready with agenda := [.issue ⟨0x10, 1, 0, 128, []⟩] } = .refused .operandLimits ∧
    step { ready with agenda := [.command ⟨0x01, 1, 0, 0, List.replicate 256 0⟩] } = .refused .operandLimits :=
  ⟨by decide +kernel, by decide +kernel, rfl, rfl, rfl⟩
theorem witness_AcceptanceRule : Accepting ready ∧ ¬ Accepting State.reset ∧
    (nextOf (step { ready with agenda := [.issue ⟨0x10, 1, 0x0001, 1, [0x12, 0x34]⟩] })).map
      (fun s => (s.phase, s.cmdOp, s.cmdArg, s.cmdData)) = some (.validate, 0x10, 1, [0x12, 0x34]) ∧
    (nextOf (step { ready with agenda := [.issue ⟨0x05, 1, 0x00AC, 0xFFFF, [0x07]⟩] })).map
      (fun s => (s.cmdArg, s.cmdData)) = some (0xFFFF, [0x07]) ∧
    (nextOf (step { ready with agenda := [.issue ⟨0x10, 1, 0x0001, 2, [0, 1, 2]⟩] })).map
      (fun s => (s.phase, s.cmdArg, s.cmdData)) = some (.validate, 2, [0, 1, 2]) :=
  ⟨ready_accepting, by simp [Accepting, State.reset], by decide +kernel, by decide +kernel, by decide +kernel⟩
theorem witness_SetTimeoutWrites : HostMayMove ready ∧ InFlight (listening 0x01 0x03 2) :=
  ⟨.inl rfl, listening_inFlight⟩
theorem witness_FlushEmptiesInbound : (inPhase .flush).phase = .flush ∧ (inPhase .flush).inbound ≠ [] := by decide
theorem witness_TransmitHandsOverFrame : (inPhase .transmit).phase = .transmit ∧
    fnOfByte (inPhase .transmit).cmdOp = some .writeSingleHolding ∧
    sent (engineStep (inPhase .transmit)) = some [0x01, 0x06, 0x00, 0x01, 0x00, 0x03, 0x98, 0x0B] := by decide +kernel
theorem witness_PauseEndsAtTimeout : (inPhase .pause).phase = .pause ∧
    (inPhase .pause).cmdOp ∈ ([0x01, 0x02, 0x03, 0x04, 0x05, 0x06, 0x0F, 0x10] : List Byte) ∧
    1049 - 1000 < (inPhase .pause).timeout ∧ (inPhase .pause).timeout ≤ 1050 - 1000 := by decide
theorem witness_ReceiveStarts : (listening 0 0 0).inbound = [] ∧
    (0x10 : Byte) ∈ ([0x01, 0x02, 0x03, 0x04, 0x05, 0x06, 0x0F, 0x10] : List Byte) ∧
    exec (.receive 1 0x83 2 50) ready = .refused .unknownCommand := ⟨rfl, by decide, rfl⟩
theorem witness_ReceiveAlwaysAnswers :
    (0x03 : Byte) ∈ ([0x01, 0x02, 0x03, 0x04, 0x05, 0x06, 0x0F, 0x10] : List Byte) ∧
    (nextOf (exec (.receive 1 0x03 2 50) ready)).map (fun s => (s.phase, s.inbound)) = some (.receive, []) := by
  decide +kernel
theorem witness_BufferReadsBackWrites : Memory.wf [(0, 0x01), (65540, 0x02)] = true ∧
    65540 + ([0x07] : List Byte).length ≤ 65541 ∧
    memRead (memWrite [(0, 0x01), (65540, 0x02)] 65539 [0x00, 0x07]) 65539 2 = [0x00, 0x07] := by decide +kernel
theorem witness_IdlePollTestsTimeout : Polling (listening 0x01 0x03 2) ∧ (listening 0x01 0x03 2).inbound = [] ∧
    1100 - (listening 0x01 0x03 2).rxLast ≤ (listening 0x01 0x03 2).rxT ∧
    (listening 0x01 0x03 2).rxT < 1101 - (listening 0x01 0x03 2).rxLast := ⟨⟨rfl, .inl rfl⟩, rfl, by decide⟩
theorem witness_HeaderBytesAreSought :
    (nextOf (engineStep { listening 0x01 0x03 2 with inbound := [0x01] })).map (·.rxIdx) = some 1 ∧
    (nextOf (engineStep { listening 0x01 0x03 2 with inbound := [0x02] })).map (·.rxIdx) = some 0 ∧
    (nextOf (engineStep { listening 0x01 0x03 2 with inbound := [0x83], rxIdx := 1 })).map (·.rxIdx) = some 2 ∧
    (nextOf (engineStep { listening 0x01 0x03 2 with inbound := [0x01], rxIdx := 1 })).map (·.rxIdx) = some 0 ∧
    (nextOf (engineStep { listening 0x01 0x03 2 with inbound := [0xFF], rxIdx := 2 })).map (·.rxIdx) = some 3 := by
  decide +kernel

/-- A candidate header of three bytes with the fourth waiting. -/
def fourth (ef f len : Byte) (ev : Val17) (b : Byte) : State :=
  { listening 0x01 ef ev with rxIdx := 3, inbound := [b], buf := memWrite [] 0 [0x01, f, len] }

/-- What the fourth byte decides, for comparison. -/
def decided (s : State) : Option (RxState × BitVec 3 × Val17 × Val17) :=
  (nextOf (engineStep s)).map fun t => (t.rxSt, t.rxIdx, t.rxTotal, t.rxRem)

theorem witness_FourthByteDecidesLength :
    decided (fourth 0x03 0x83 0x02 2 0xC0) = some (.awaitBody, 4, 5, 1) ∧
    decided (fourth 0x06 0x06 0x00 1 0x01) = some (.awaitBody, 4, 8, 4) ∧
    decided (fourth 0x06 0x06 0x00 1 0x02) = some (.awaitHeaderByte, 0, 0, 0) ∧
    decided (fourth 0x03 0x03 0xFF 255 0x01) = some (.awaitBody, 4, 260, 256) ∧
    decided (fourth 0x03 0x03 0x01 256 0x00) = some (.awaitBody, 4, 262, 258) ∧
    Memory.wf (fourth 0x03 0x03 0x01 256 0x00).buf = true := by
  refine ⟨?_, ?_, ?_, ?_, ?_, ?_⟩ <;> decide +kernel
theorem witness_BodyByteStored : 2 ≤ (2 : Val17).toNat ∧ (2 : Val17).toNat + 4 ≤ (65541 : Val17).toNat ∧
    (nextOf (engineStep { lastByte with rxTotal := 8, rxRem := 2 })).map (fun s => (s.rxRem, Memory.read s.buf 6)) =
      some (1, 0x33) := by decide +kernel
theorem witness_LastBodyByteVerifies : lastByte.phase = .receive ∧ lastByte.rxSt = .awaitBody ∧
    lastByte.inbound = [0x33] ∧ lastByte.rxRem = 1 ∧ Memory.wf lastByte.buf = true ∧
    memRead lastByte.buf 0 6 ++ [0x33] = [0x01, 0x03, 0x02, 0x12, 0x34, 0xB5, 0x33] ∧
    result (engineStep lastByte) = some (.done, 0, [0x01, 0x03, 0x02, 0x12, 0x34, 0xB5, 0x33]) ∧
    result (engineStep { lastByte with inbound := [0x32] }) = some (.done, 8, []) := by decide +kernel
theorem witness_TerminalReceiverIsFinal :
    engineStep { listening 0x01 0x03 2 with rxSt := .complete, inbound := [0x01] } =
      .next { listening 0x01 0x03 2 with rxSt := .complete, inbound := [0x01] } ∧
    engineStep ready = .next ready := ⟨rfl, rfl⟩
theorem witness_NoTimeoutWithoutSilence : soundListening.phase = .receive ∧ ∃ t, step soundListening = .next t ∧
    t.phase = .done ∧ t.resStatus = 9 ∧ t.resFrame = [] := ⟨rfl, _, rfl, rfl, rfl, rfl⟩
theorem witness_SilentReceiveTimesOut :
    let s : State := { listening 0x01 0x03 2 with agenda := [some 50, none, some 1].map quietMove ++ [.engine] }
    Polling s ∧ s.inbound = [] ∧ s.rxLast ≤ s.clock ∧ result (steps 3 s) = some (.receive, 0, []) ∧
      result (steps 4 s) = some (.done, 9, []) := ⟨⟨rfl, .inl rfl⟩, rfl, by decide, by decide +kernel⟩
theorem witness_ReadReplyCompletes : bodyFits .len1 [0x12, 0x34] = true ∧
    Memory.wf (listening 0x01 0x03 255).buf = true ∧
    (LenFmt.len1 = .len1 ↔ (listening 0x01 0x03 255).expVal.toNat < 256) ∧
    (LenFmt.len2 = .len1 ↔ (listening 0x01 0x03 256).expVal.toNat < 256) ∧
    ReadyFor 0x01 0x03 (listening 0x01 0x03 255) ∧
    encode (.readHoldingReply .len1 0x01 [0x12, 0x34] 0xB533) = some [0x01, 0x03, 0x02, 0x12, 0x34, 0xB5, 0x33] :=
  ⟨rfl, rfl, by decide, by decide, listening_ready .., by decide⟩
theorem witness_EchoReplyCompletes : Memory.wf (listening 0x01 0x06 1).buf = true ∧
    (0x0001 : Word) = (listening 0x01 0x06 1).expVal.setWidth 16 ∧ ReadyFor 0x01 0x06 (listening 0x01 0x06 1) ∧
    encode (.writeSingleHoldingReply 0x01 0x0001 0x0004 0xD9C9) =
      some [0x01, 0x06, 0x00, 0x01, 0x00, 0x04, 0xD9, 0xC9] := ⟨rfl, rfl, listening_ready .., by decide⟩
theorem witness_WrongEchoKeepsListening : Memory.wf (listening 0x01 0x06 1).buf = true ∧
    (0x0002 : Word) ≠ (listening 0x01 0x06 1).expVal.setWidth 16 ∧ ReadyFor 0x01 0x06 (listening 0x01 0x06 1) :=
  ⟨rfl, by decide, listening_ready ..⟩
theorem witness_ExceptionReplyCompletes : Memory.wf (listening 0x01 0x03 2).buf = true ∧
    ReadyFor 0x01 0x03 (listening 0x01 0x03 2) ∧
    encode (.readHoldingException 0x01 0x02 0xC0F1) = some [0x01, 0x83, 0x02, 0xC0, 0xF1] :=
  ⟨rfl, listening_ready .., by decide⟩
theorem witness_RepliesWaitOutsideReceive : (inPhase .pause).phase ≠ .receive ∧
    portOf (.readHoldingException 0x01 0x02 0xC0F1) = none ∧
    encode (.readHoldingException 0x01 0x02 0xC0F1) = some [0x01, 0x83, 0x02, 0xC0, 0xF1] := by decide
theorem witness_RepliesAlwaysAnswer : lastByte.phase = .receive ∧ RxLive lastByte ∧
    portOf (.readHoldingException 0x01 0x02 0xC0F1) = none ∧
    encode (.readHoldingException 0x01 0x02 0xC0F1) = some [0x01, 0x83, 0x02, 0xC0, 0xF1] ∧
    (nextOf (exec (.readHoldingException 0x01 0x02 0xC0F1) lastByte)).map (fun s => (s.phase, s.inbound)) =
      some (.done, [0x01, 0x83, 0x02, 0xC0, 0xF1]) :=
  ⟨rfl, .inr ⟨rfl, by decide⟩, rfl, by decide, by decide +kernel⟩
theorem witness_LoopbackOfSingleWrite :
    let frame : List Byte := buildFrame 0x01 0x06 (be16 0xFFFF ++ be16 3)
    let waits : List (List (Option Nat)) := List.replicate 8 [some 50, none]
    let s : State := listening 0x01 0x06 0xFFFF
    Memory.wf s.buf = true ∧ ReadyFor 0x01 0x06 s ∧ s.expVal = (0xFFFF : Word).setWidth 17 ∧
      waits.length = frame.length ∧ s.rxLast = s.clock ∧ (∀ w ∈ waits, (w.map (·.getD 0)).sum ≤ s.rxT) ∧
      result (step { s with agenda := [.frame frame] }) = some (.done, 0, frame) ∧
      result (steps 32 { s with agenda := pacedArrival waits frame }) = some (.done, 0, frame) :=
  ⟨rfl, listening_ready .., rfl, rfl, rfl, by decide +kernel, by decide +kernel, by decide +kernel⟩

/-- The bytes before the trailer of an awaited reply of each kind. -/
theorem awaited_replies : AwaitedReply 0x01 0x03 2 [0x01, 0x03, 0x02, 0x12, 0x34] 0 ∧
    AwaitedReply 0x01 0x06 1 [0x01, 0x06, 0x00, 0x01, 0x00, 0x04] 0 ∧
    AwaitedReply 0x01 0x03 2 [0x01, 0x83, 0x02] 2 :=
  ⟨.inl ⟨by decide, rfl, .len1, [0x12, 0x34], by decide, rfl, by decide⟩,
    .inr (.inl ⟨by decide, rfl, 0x0004, by decide⟩), .inr (.inr ⟨by decide, by decide⟩)⟩
theorem witness_StrayByteSurvived : (0x99 : Byte) ≠ 0x01 ∧ Memory.wf (listening 0x01 0x03 2).buf = true ∧
    ReadyFor 0x01 0x03 (listening 0x01 0x03 2) ∧
    result (step { listening 0x01 0x03 2 with agenda := [.frame [0x99, 0x01, 0x03, 0x02, 0x12, 0x34, 0xB5, 0x33]] }) =
      some (.done, 0, [0x01, 0x03, 0x02, 0x12, 0x34, 0xB5, 0x33]) ∧
    result (step { listening 0x01 0x06 1 with agenda := [.frame [0x99, 0x01, 0x06, 0x00, 0x01, 0x00, 0x04, 0xD9, 0xC9]] }) =
      some (.done, 0, [0x01, 0x06, 0x00, 0x01, 0x00, 0x04, 0xD9, 0xC9]) ∧
    result (step { listening 0x01 0x03 2 with agenda := [.frame [0x99, 0x01, 0x83, 0x02, 0xC0, 0xF1]] }) =
      some (.done, 2, [0x01, 0x83, 0x02, 0xC0, 0xF1]) :=
  ⟨by decide, rfl, listening_ready .., by decide +kernel, by decide +kernel, by decide +kernel⟩
theorem witness_StepRunsDecodedInstruction :
    decodeMove (lenFmtOf ready.expVal) (.command ⟨0x03, 1, 0, 1, []⟩) = some (.readHolding 1 0 1) ∧
    (nextOf (step { ready with agenda := [.command ⟨0x01, 1, 0x0013, 0xBEEF, [0x07]⟩] })).map
      (fun s => (s.cmdArg, s.cmdData, s.outbound)) =
        some (0xBEEF, [0x07], [0x01, 0x01, 0x00, 0x13, 0x00, 0x01, 0x0C, 0x0F]) ∧
    decodeMove (lenFmtOf ready.expVal) (.setTimeout 7) = some (.setTimeout 7) ∧
    decodeMove (lenFmtOf ready.expVal) (.frame [0x01, 0x83, 0x02, 0xC0, 0xF1]) =
      some (.readHoldingException 0x01 0x02 0xC0F1) := by decide +kernel
theorem witness_OtherMovesOfTheAgents :
    (nextOf (step { ready with agenda := [.tick 5] })).map (·.clock) = some 1005 ∧
    (nextOf (step { ready with agenda := [.byte 0x07] })).map (·.inbound) = some [0x55, 0xAA, 0x07] ∧
    (nextOf (step { lastByte with agenda := [.engine] })).map (·.phase) = some .done ∧
    (nextOf (step { lastByte with agenda := [.reset] })).map (·.phase) = some .idle ∧
    (nextOf (step { ready with agenda := [.frame [0x01]] })).map (·.inbound) = some [0x55, 0xAA, 0x01] := by
  decide +kernel
theorem witness_BurstIsPolls : lastByte.phase = .receive ∧ RxLive lastByte := ⟨rfl, .inr ⟨rfl, by decide⟩⟩
theorem witness_SilentLineTimesOut :
    let c : PortCmd := ⟨0x06, 0, 0x0001, 0x0003, []⟩
    let s : State := { ready with agenda := [.command c, .tick 50, .engine, .tick 51, .engine] }
    WellFormed (.writeSingleHolding 0 1 3) = true ∧ portOf (.writeSingleHolding 0 1 3) = some c ∧
      encode (.writeSingleHolding 0 1 3) = some [0x00, 0x06, 0x00, 0x01, 0x00, 0x03, 0x99, 0xDA] ∧ Accepting s ∧
      s.timeout ≤ 50 ∧ s.timeout < 51 ∧ result (steps 5 s) = some (.done, 9, []) :=
  ⟨rfl, rfl, by decide +kernel, ⟨.inl rfl, rfl⟩, by decide, by decide, by decide +kernel⟩
theorem witness_ReadTransactionCompletes :
    let c : PortCmd := ⟨0x03, 1, 0, 1, []⟩
    let reply : List Byte := [0x01, 0x03, 0x02, 0x12, 0x34, 0xB5, 0x33]
    let s : State := { ready with agenda := [.command c, .tick 50, .engine, .frame reply] }
    portOf (.readHoldingOne 1 0) = some c ∧
      encode (.readHoldingOne 1 0) = some [0x01, 0x03, 0x00, 0x00, 0x00, 0x01, 0x84, 0x0A] ∧ Accepting s ∧
      Memory.wf s.buf = true ∧
      (LenFmt.len1 = .len1 ↔ c.op ∈ ([0x01, 0x02] : List Byte) ∨ 2 * c.arg.toNat < 256) ∧
      bodyFits .len1 [0x12, 0x34] = true ∧
      (∃ covered, reply = covered ++ be16 (crc16 covered) ∧
        reply = readReplyFrame .len1 c.dev c.op [0x12, 0x34] (crc16 covered)) ∧
      result (steps 4 s) = some (.done, 0, reply) :=
  ⟨rfl, by decide +kernel, ⟨.inl rfl, rfl⟩, rfl, by decide, rfl,
    ⟨[0x01, 0x03, 0x02, 0x12, 0x34], by decide +kernel, by decide +kernel⟩, by decide +kernel⟩
theorem witness_WriteTransactionCompletes :
    let c : PortCmd := ⟨0x06, 1, 0x0001, 0x0003, []⟩
    let reply : List Byte := buildFrame 1 0x06 (be16 1 ++ be16 4)
    let s : State := { ready with agenda := [.command c, .tick 50, .engine, .frame reply] }
    WellFormed (.writeSingleHolding 1 1 3) = true ∧ portOf (.writeSingleHolding 1 1 3) = some c ∧
      encode (.writeSingleHolding 1 1 3) = some [0x01, 0x06, 0x00, 0x01, 0x00, 0x03, 0x98, 0x0B] ∧ Accepting s ∧
      Memory.wf s.buf = true ∧ reply = [0x01, 0x06, 0x00, 0x01, 0x00, 0x04, 0xD9, 0xC9] ∧
      result (steps 4 s) = some (.done, 0, reply) :=
  ⟨rfl, rfl, by decide +kernel, ⟨.inl rfl, rfl⟩, rfl, by decide +kernel, by decide +kernel⟩
theorem witness_ViewsOfNormalReply :
    let s : State :=
      { listening 0x01 0x03 2 with
        phase := .done, resValid := true, resFrame := [0x01, 0x03, 0x02, 0x12, 0x34, 0xB5, 0x33] }
    s.resStatus = 0 ∧ s.resFrame = readReplyFrame .len1 0x01 0x03 [0x12, 0x34] 0xB533 ∧
      (0x03 : Byte).getLsbD 7 = false ∧ (LenFmt.len1 = .len1 ↔ s.expVal.toNat < 256) ∧
      bodyFits .len1 [0x12, 0x34] = true ∧ typedResult (.readHoldingOne 0x01 0) s = some (.value 0x1234) ∧
      typedResult (.readHolding 0x01 0 1) s = some (.values [0x12, 0x34] [0x1234]) ∧
      typedResult (.readCoils 0x01 0) s = some (.bit false) ∧
      typedResult (.writeSingleHolding 0x01 1 3) { s with resFrame := echoFrame 0x01 0x06 1 3 0x980B } =
        some (.status 0) := by decide +kernel
/-- Each command has no typed result of an exception reply with code 0, nor of a local status (R148, R183). -/
theorem test_views_undefined :
    let s : State := { listening 0x01 0x06 1 with
        phase := .done, resValid := true, resFrame := exceptionFrame 0x01 0x06 0x00 0x0000 }
    s.resStatus = 0 ∧ typedResult (.writeSingleHolding 0x01 1 3) s = none ∧
      typedResult (.readHolding 0x01 0 1) s = none ∧
      typedResult (.writeSingleHolding 0x01 1 3) { s with resStatus := 9, resFrame := [] } = none := by
  decide +kernel
theorem witness_ResetEventAbandons : ({ lastByte with agenda := [.reset] } : State).agenda = .reset :: [] := rfl
theorem witness_StepKeepsInvariant : Sound soundTransmit ∧ ∃ t, step soundTransmit = .next t :=
  ⟨soundTransmit_sound, _, rfl⟩
theorem witness_SoundStatesNeverFault : Sound soundListening := soundListening_sound
theorem witness_OperandsConstantInFlight : InFlight soundListening ∧ ∃ t, step soundListening = .next t :=
  ⟨listening_inFlight, _, rfl⟩
theorem witness_ResultsAreLocalOrFramed : Sound soundListening ∧
    ∃ t, step soundListening = .next t ∧ t.phase = .done ∧ t.resStatus = 9 :=
  ⟨soundListening_sound, _, rfl, rfl, rfl⟩
theorem witness_OnlyValidRequestsTransmit : Sound soundTransmit ∧
    sent (step soundTransmit) = some [0x01, 0x03, 0x00, 0x00, 0x00, 0x01, 0x84, 0x0A] :=
  ⟨soundTransmit_sound, by decide +kernel⟩
theorem witness_UnevenMultiWriteTransmits :
    let s : State := { ready with agenda := [.command ⟨0x10, 1, 0x0001, 2, [0, 1, 2]⟩] }
    Accepting s ∧ ([0, 1, 2] : List Byte).length ≠ 2 * (2 : Word).toNat ∧
      (nextOf (step s)).map (fun t => (t.phase, t.cmdData, t.outbound.length - s.outbound.length)) =
        some (.pause, [0, 1, 2], 12) ∧
      result (step { ready with agenda := [.command ⟨0x10, 248, 0x0001, 2, [0, 1, 2]⟩] }) = some (.done, 11, []) ∧
      ¬ Accepting { State.reset with agenda := s.agenda } ∧
      step { State.reset with agenda := s.agenda } = .refused .timeoutUnset :=
  ⟨⟨.inl rfl, rfl⟩, by decide, by decide +kernel, by decide +kernel, by simp [Accepting, State.reset], rfl⟩

end Sys2Proof.Tests
end

section
/-! PROOFS. The moves of the agents said once: what the command port takes and how it is issued, that a burst of exactly
one reply frame is that reply, and an inversion lemma each for the engine's step and the machine's step. -/

namespace Sys2Proof.Machine

open Safety

/-! ### The command port -/

/-- The drives the port takes, as operation `f` (R62, R162): at most 255 data bytes, and at most 127 registers in a
multiple register write. -/
def PortCarries (f : FnCode) (c : PortCmd) : Prop :=
  fnOfByte c.op = some f ∧ c.data.length ≤ 255 ∧ (f = .writeMultiHolding → c.arg.toNat ≤ 127)

theorem decodePort_of_fn {c : PortCmd} {f : FnCode} (hf : fnOfByte c.op = some f) (hd : c.data.length ≤ 255) :
    decodePort c = portInstr f c := by
  simp only [decodePort, hf]
  exact if_pos hd

theorem portInstr_registers_fit {c : PortCmd} (ha : c.arg.toNat ≤ 127) (hn : c.data.length = 2 * c.arg.toNat) :
    portInstr .writeMultiHolding c = .ok (.writeMultiHolding c.dev c.reg (wordsOf c.data)) := by
  have ha' : ¬ Config.valuesMax < c.arg.toNat := Nat.not_lt.2 ha
  simp only [portInstr, if_neg ha', if_pos hn]

/-- What decodes on the port is a drive the port takes. -/
theorem decodePort_ok_carries {c : PortCmd} {i : Instr} (h : decodePort c = .ok i) : ∃ f, PortCarries f c := by
  unfold decodePort at h
  split at h
  · cases h
  · next f hf =>
    split at h
    · next hd =>
      refine ⟨f, hf, hd, ?_⟩
      rintro rfl
      simp only [portInstr] at h
      split at h
      · cases h
      · next ha => exact Nat.not_lt.1 ha
    · cases h

theorem issueCommand_ok {c : PortCmd} {i : Instr} (h : decodePort c = .ok i) (s : State) :
    issueCommand c s = acceptInstr i s := by
  simp only [issueCommand, h]

theorem issueCommand_error {c : PortCmd} {e : DecodeError} (h : decodePort c = .error e) (he : e ≠ .noValueList)
    (s : State) : issueCommand c s = .refused (portRefusal e) := by
  unfold issueCommand
  rw [h]
  cases e with
  | noValueList => exact absurd rfl he
  | _ => rfl

/-- An operand a command does not have is latched from the host's lines. -/
theorem accept_lines (f : FnCode) (a : Byte) (r : Word) (arg : Option Word) (data : Option (List Byte)) (s : State) :
    accept f a r arg data s = accept f a r (some (arg.getD s.portArg)) (some (data.getD s.portData)) s := rfl

/-- A multiple register write whose data fit its count latches its list of values as the lines drive it. -/
theorem acceptWriteMultiHolding_lines {c : PortCmd} (ha : c.arg.toNat ≤ 127)
    (hn : c.data.length = 2 * c.arg.toNat) (s : State) :
    acceptWriteMultiHolding c.dev c.reg (wordsOf c.data) s =
      accept .writeMultiHolding c.dev c.reg (some c.arg) (some c.data) s := by
  have hlen : (wordsOf c.data).length = c.arg.toNat := by rw [wordsOf_length]; omega
  have hfit : (wordsOf c.data).length ≤ Config.valuesMax := hlen.trans_le ha
  rw [acceptWriteMultiHolding, if_pos hfit, hlen, BitVec.ofNat_toNat, BitVec.setWidth_eq,
    bytesOf_wordsOf c.data (by omega)]

/-- The issue of a drive the port takes latches all five operand registers from the lines, whatever its operation
(R11, R160). -/
theorem issueCommand_carried {f : FnCode} {c : PortCmd} {s : State} (hc : PortCarries f c)
    (ha : s.portArg = c.arg) (hd : s.portData = c.data) :
    issueCommand c s = accept f c.dev c.reg (some c.arg) (some c.data) s := by
  obtain ⟨hf, hlen, hcount⟩ := hc
  have hdec := decodePort_of_fn hf hlen
  cases f with
  | writeMultiHolding =>
    have harg := hcount rfl
    by_cases hn : c.data.length = 2 * c.arg.toNat
    · rw [issueCommand_ok (hdec.trans (portInstr_registers_fit harg hn))]
      exact acceptWriteMultiHolding_lines harg hn s
    · exact issueCommand_uneven ((decodePort_noValueList c).2 ⟨fnByte_of_fnOfByte hf, harg, hlen, hn⟩) s
  | writeMultiCoils => rw [issueCommand_ok hdec]; exact if_pos hlen
  | writeSingleCoil =>
    rw [issueCommand_ok hdec]
    simp only [acceptInstr, acceptWriteSingleCoil, ha, coilArg_lines]
    rw [accept_lines, hd]; rfl
  | readCoils | readDiscrete => rw [issueCommand_ok hdec, ← ha, ← hd]; rfl
  | readHolding | readInput | writeSingleHolding => rw [issueCommand_ok hdec, ← hd]; rfl

/-- An issue that answers next was of a drive the port takes, allowed, and latched all five operand registers. -/
theorem issueCommand_latches {c : PortCmd} {s t : State} (ha : s.portArg = c.arg) (hd : s.portData = c.data)
    (h : issueCommand c s = .next t) :
    ∃ f, PortCarries f c ∧ Accepting s ∧ t = accepted f c.dev c.reg c.arg c.data s := by
  have hc : ∃ f, PortCarries f c := by
    cases hdec : decodePort c with
    | ok i => exact decodePort_ok_carries hdec
    | error e =>
      by_cases he : e = .noValueList
      · obtain ⟨ho, harg, hlen, -⟩ := (decodePort_noValueList c).1 (he ▸ hdec)
        exact ⟨.writeMultiHolding, by rw [ho]; rfl, hlen, fun _ => harg⟩
      · rw [issueCommand_error hdec he] at h
        cases h
  obtain ⟨f, hc⟩ := hc
  rw [issueCommand_carried hc ha hd] at h
  exact ⟨f, hc, accept_next h⟩

theorem accept_refused {f : FnCode} {a : Byte} {r : Word} {arg : Option Word} {data : Option (List Byte)} {s : State}
    (h : ¬ Accepting s) : ∃ e, accept f a r arg data s = .refused e := by
  by_cases hm : HostMayMove s
  · exact ⟨_, accept_unset hm (by simpa [Accepting, hm] using h)⟩
  · exact ⟨_, accept_busy hm⟩

/-- A well-formed command's instruction is an acceptance and the moves up to the pause. -/
theorem exec_of_command {i : Instr} (hw : WellFormed i = true) (hp : (portOf i).isSome = true) (s : State) :
    ∃ f a r arg data, exec i s = andThen (accept f a r arg data s) runToPause := by
  cases i <;> simp only [portOf, Option.isSome_none, Bool.false_eq_true] at hp
  case writeMultiCoils a r count data =>
    exact ⟨.writeMultiCoils, a, r, some count, some data,
      congrArg (andThen · runToPause) (if_pos (of_decide_eq_true hw))⟩
  case writeMultiHolding a r values =>
    exact ⟨.writeMultiHolding, a, r, _, _, congrArg (andThen · runToPause) (if_pos (of_decide_eq_true hw))⟩
  all_goals exact ⟨_, _, _, _, _, rfl⟩

/-! ### Replies -/

theorem encode_exceptionInstr (f : FnCode) (a code : Byte) (c : Word) :
    portOf (exceptionInstr f a code c) = none ∧
      encode (exceptionInstr f a code c) = some (exceptionFrame a (fnByte f) code c) := by
  cases f <;> exact ⟨rfl, rfl⟩

theorem encode_readReplyInstr {f : FnCode} {fmt : LenFmt} {a : Byte} {body : List Byte} {c : Word} {i : Instr}
    (h : readReplyInstr f fmt a body c = some i) :
    portOf i = none ∧ encode i = some (readReplyFrame fmt a (fnByte f) body c) := by
  cases f <;> cases h <;> exact ⟨rfl, rfl⟩

theorem encode_echoReplyInstr {f : FnCode} {a : Byte} {r x c : Word} {i : Instr}
    (h : echoReplyInstr f a r x c = some i) :
    portOf i = none ∧ encode i = some (echoFrame a (fnByte f) r x c) := by
  cases f <;> cases h <;> exact ⟨rfl, rfl⟩

@[simp] theorem be16_word (b1 b0 : Byte) : be16 (word b1 b0) = [b1, b0] := by simp [be16]

theorem lengthField_len1 (n : Byte) : lengthField .len1 n.toNat = [n] := by simp [lengthField]

theorem lengthField_len2 (n1 n0 : Byte) : lengthField .len2 (word n1 n0).toNat = [n1, n0] := by simp [lengthField]

/-- The function byte of an exception reply is that of its seven low bits with bit 7 set (R63, R71). -/
theorem exception_byte (f : Byte) (h : f.getLsbD 7 = true) : (f &&& 0x7F) ||| 0x80 = f := by
  revert f; decide

/-- The body and the trailer a read reply decodes to are the bytes it was decoded from. -/
theorem decodeBody_ok {f : FnCode} {fmt : LenFmt} {a : Byte} {len : Nat} {more tail : List Byte} {i : Instr}
    (h : decodeBody f fmt a len more = .ok (i, tail)) :
    ∃ body c, body.length = len ∧ more = body ++ be16 c ++ tail ∧ readReplyInstr f fmt a body c = some i := by
  unfold decodeBody at h
  split at h
  · next c1 c0 _ hdrop =>
    split at h
    · next j hj =>
      cases h
      have hlen : len ≤ more.length := by
        have := congrArg List.length hdrop
        simp at this; omega
      refine ⟨more.take len, word c1 c0, by simpa using hlen, ?_, hj⟩
      rw [be16_word, List.append_assoc, show [c1, c0] ++ tail = more.drop len from hdrop.symm, List.take_append_drop]
    · cases h
  · cases h

/-- A decoded reply is a reply instruction, and the bytes it was decoded from are its frame. -/
theorem decodeReply_frame {fmt : LenFmt} {bs rest : List Byte} {i : Instr} (h : decodeReply fmt bs = .ok (i, rest)) :
    portOf i = none ∧ ∃ frame, encode i = some frame ∧ bs = frame ++ rest := by
  unfold decodeReply at h
  split at h
  · next a f tail =>
    split at h
    · next h7 =>
      split at h
      · cases h
      · next fc hfc =>
        split at h
        · next code c1 c0 tail' =>
          cases h
          obtain ⟨hp, he⟩ := encode_exceptionInstr fc a code (word c1 c0)
          refine ⟨hp, _, he, ?_⟩
          rw [exceptionFrame, ← fnByte_of_fnOfByte hfc, exception_byte f h7, be16_word]
          rfl
        · cases h
    · split at h
      · cases h
      · next fc hfc =>
        obtain rfl := fnByte_of_fnOfByte hfc
        split at h
        · split at h
          · next len more =>
            obtain ⟨body, c, hlen, rfl, hi⟩ := decodeBody_ok h
            obtain ⟨hp, he⟩ := encode_readReplyInstr hi
            refine ⟨hp, _, he, ?_⟩
            rw [readReplyFrame, hlen, lengthField_len1]
            simp
          · next l1 l0 more =>
            obtain ⟨body, c, hlen, rfl, hi⟩ := decodeBody_ok h
            obtain ⟨hp, he⟩ := encode_readReplyInstr hi
            refine ⟨hp, _, he, ?_⟩
            rw [readReplyFrame, hlen, lengthField_len2]
            simp
          · cases h
        · split at h
          · next r1 r0 x1 x0 c1 c0 tail' =>
            split at h
            · next j hj =>
              cases h
              obtain ⟨hp, he⟩ := encode_echoReplyInstr hj
              exact ⟨hp, _, he, by simp [echoFrame]⟩
            · cases h
          · cases h
  · cases h

/-- The instruction a burst carries is the one reply its bytes are the frame of. -/
theorem decodeMove_frame {fmt : LenFmt} {bs : List Byte} {i : Instr} (h : decodeMove fmt (.frame bs) = some i) :
    portOf i = none ∧ encode i = some bs := by
  simp only [decodeMove] at h
  split at h
  · next hd =>
    cases h
    obtain ⟨hp, frame, he, hbs⟩ := decodeReply_frame hd
    exact ⟨hp, by rw [he, hbs, List.append_nil]⟩
  · cases h

/-- A burst runs as a burst whether or not its bytes are one reply frame. -/
@[simp] theorem stepMove_frame (bs : List Byte) (s : State) : stepMove (.frame bs) s = burst bs s := by
  cases hf : fetchInstr (.frame bs) s with
  | none => exact stepMove_other hf
  | some i =>
    obtain ⟨hp, he⟩ := decodeMove_frame hf
    rw [stepMove_decoded hf]
    exact exec_of_reply hp he s

/-! ### What a step can do -/

/-- The moves of the engine (R141): it waits for the host, passes or fails the address test, flushes, transmits, waits
out the pause, starts the receiver, or polls. -/
inductive EngineMove (s : State) : State → Prop
  | rest (hp : HostMayMove s) : EngineMove s s
  | pass {f : FnCode} (hp : s.phase = .validate) (hf : fnOfByte s.cmdOp = some f) (ha : ValidAddress f s.cmdDev) :
      EngineMove s { s with phase := .flush }
  | reject {f : FnCode} (hp : s.phase = .validate) (hf : fnOfByte s.cmdOp = some f) (ha : ¬ ValidAddress f s.cmdDev) :
      EngineMove s (finish Config.addressError [] s)
  | flush (hp : s.phase = .flush) : EngineMove s { s with inbound := [], phase := .transmit }
  | transmit {f : FnCode} (hp : s.phase = .transmit) (hf : fnOfByte s.cmdOp = some f) :
      EngineMove s
        { s with
          crc := crcRaw (s.cmdDev :: s.cmdOp :: payloadOf f s)
          txframe := buildFrame s.cmdDev s.cmdOp (payloadOf f s)
          outbound := s.outbound ++ buildFrame s.cmdDev s.cmdOp (payloadOf f s)
          tTx := s.clock, phase := .pause }
  | wait (hp : s.phase = .pause) : EngineMove s s
  | listen {f : FnCode} (hp : s.phase = .pause) (hf : fnOfByte s.cmdOp = some f) :
      EngineMove s (receiveStart s.cmdDev s.cmdOp (expectOf f s) s.timeout s)
  | poll {t : State} (hp : s.phase = .receive) (h : poll s = .next t) : EngineMove s t

theorem validateStep_next {s t : State} (hp : s.phase = .validate) (h : validateStep s = .next t) :
    EngineMove s t := by
  cases hf : fnOfByte s.cmdOp with
  | none => simp [validateStep, hf] at h
  | some f =>
    by_cases ha : ValidAddress f s.cmdDev
    · rw [validateStep_valid hf ha] at h; cases h; exact .pass hp hf ha
    · rw [validateStep_invalid hf ha] at h; cases h; exact .reject hp hf ha

theorem transmitStep_next {s t : State} (hp : s.phase = .transmit) (h : transmitStep s = .next t) :
    EngineMove s t := by
  cases hf : fnOfByte s.cmdOp with
  | none => simp [transmitStep, hf] at h
  | some f => rw [transmitStep_eq hf] at h; cases h; exact .transmit hp hf

theorem pauseStep_next {s t : State} (hp : s.phase = .pause) (h : pauseStep s = .next t) : EngineMove s t := by
  by_cases ht : s.timeout ≤ s.clock - s.tTx
  · cases hf : fnOfByte s.cmdOp with
    | none => simp [pauseStep, hf, now, ht] at h
    | some f => rw [pauseStep_end hf ht] at h; cases h; exact .listen hp hf
  · rw [pauseStep_wait (Nat.not_le.1 ht)] at h; cases h; exact .wait hp

/-- A step of the engine that answers next is one of its moves. -/
theorem engineStep_next {s t : State} (h : engineStep s = .next t) : EngineMove s t := by
  unfold engineStep at h
  split at h
  · next hp => cases h; exact .rest (.inl hp)
  · next hp => exact validateStep_next hp h
  · next hp => rw [flushStep_eq] at h; cases h; exact .flush hp
  · next hp => exact transmitStep_next hp h
  · next hp => exact pauseStep_next hp h
  · next hp => exact .poll hp h
  · next hp => cases h; exact .rest (.inr hp)

/-- The command of a drive, just accepted: the host's lines driven and the operands latched from them. -/
def issued (f : FnCode) (c : PortCmd) (s : State) : State :=
  accepted f c.dev c.reg c.arg c.data { s with portArg := c.arg, portData := c.data }

/-- The moves of the agents (R10, R202, R210): the engine's, the clock's, a byte that waits and bytes polled as
they come, a command's acceptance alone or with the moves up to the pause, a write of `TIMEOUT`, a reset. -/
inductive AgentMove (s : State) : State → Prop
  | engine {t : State} (h : EngineMove s t) : AgentMove s t
  | tick (n : Nat) : AgentMove s (advance n s)
  | arrive (b : Byte) : AgentMove s (deliver [b] s)
  | burst {bs : List Byte} {t : State} (h : burst bs s = .next t) : AgentMove s t
  | issue {f : FnCode} {c : PortCmd} (hc : PortCarries f c) (ha : Accepting s) : AgentMove s (issued f c s)
  | command {f : FnCode} {c : PortCmd} {t : State} (hc : PortCarries f c) (ha : Accepting s)
      (h : engineRun 3 (issued f c s) = .next t) : AgentMove s t
  | setTimeout (n : Nat) (hm : HostMayMove s) : AgentMove s { s with timeout := n, timeoutSet := true }
  | reset : AgentMove s (resetEvent s)

theorem execSetTimeout_next {n : Nat} {s t : State} (h : execSetTimeout n s = .next t) :
    HostMayMove s ∧ t = { s with timeout := n, timeoutSet := true } := by
  unfold execSetTimeout at h
  split at h
  · next hr => cases h; exact ⟨(portReady_iff s).1 hr, rfl⟩
  · cases h

/-- A move that answers next is one of the agents'. -/
theorem stepMove_next {m : Move} {s t : State} (h : stepMove m s = .next t) : AgentMove s t := by
  cases m with
  | engine => exact .engine (engineStep_next h)
  | tick n => cases h; exact .tick n
  | byte b => cases h; exact .arrive b
  | frame bs => rw [stepMove_frame] at h; exact .burst h
  | command c =>
    rw [stepMove_command] at h
    obtain ⟨u, hu, h⟩ := andThen_eq_next h
    obtain ⟨f, hc, ha, rfl⟩ := issueCommand_latches rfl rfl hu
    exact .command hc ha h
  | issue c =>
    rw [stepMove_issue] at h
    obtain ⟨f, hc, ha, rfl⟩ := issueCommand_latches rfl rfl h
    exact .issue hc ha
  | setTimeout n =>
    obtain ⟨hm, rfl⟩ := execSetTimeout_next h
    exact .setTimeout n hm
  | reset => cases h; exact .reset

end Sys2Proof.Machine
end

section
/-! PROOFS. The invariant of the machine, move by move, and what reset and the moves in flight leave alone. -/

namespace Sys2Proof.Machine

open Safety

/-! ### The moves keep the operands in flight -/

/-- The registers a transaction's meaning rests on (R11, R22) are the same. -/
def SameOperands (s t : State) : Prop :=
  t.cmdOp = s.cmdOp ∧ t.cmdDev = s.cmdDev ∧ t.cmdReg = s.cmdReg ∧ t.cmdArg = s.cmdArg ∧ t.cmdData = s.cmdData ∧
    t.timeout = s.timeout ∧ t.timeoutSet = s.timeoutSet

theorem sameOperands_of_same {s t : State} (h : SameOutsideReceiver s t) : SameOperands s t :=
  ⟨h.cmdOp, h.cmdDev, h.cmdReg, h.cmdArg, h.cmdData, h.timeout, h.timeoutSet⟩

theorem sameOperands_refl (s : State) : SameOperands s s := sameOperands_of_same (sameOutside_refl s)

/-- No move of the engine writes an operand register or `TIMEOUT`. -/
theorem engineMove_operands {s t : State} (h : EngineMove s t) : SameOperands s t := by
  cases h with
  | rest | pass | reject | flush | transmit | wait | listen => exact sameOperands_refl s
  | poll _ h => exact sameOperands_of_same (poll_same h)

/-- A move in flight keeps the operands, or is a reset. -/
theorem agentMove_operands {s t : State} (hf : InFlight s) (h : AgentMove s t) :
    SameOperands s t ∨ t = resetEvent s := by
  cases h with
  | engine h => exact .inl (engineMove_operands h)
  | tick | arrive => exact .inl (sameOperands_refl s)
  | burst h => exact .inl (sameOperands_of_same (burst_same h))
  | issue _ ha | command _ ha => exact absurd ha.1 hf
  | setTimeout _ hm => exact absurd hm hf
  | reset => exact .inr rfl

/-! ### The invariant outside a transaction -/

/-- What the invariant says of the frame buffer: its canonical form, and that every index exists (R18, R41). -/
def BufferOk (m : Memory) : Prop := Memory.wf m = true ∧ ∀ c ∈ m, c.1 < 65541

theorem sound_buffer {s : State} (h : Sound s) : BufferOk s.buf := ⟨h.bufWf, h.bufRange⟩

theorem inFlight_iff (s : State) : InFlight s ↔ s.phase ≠ .idle ∧ s.phase ≠ .done := by
  simp [InFlight, HostMayMove]

/-- Where the host may move the invariant asks for the buffer, the port's sizes and `res.valid` only. -/
theorem sound_of_rest {t : State} (hm : HostMayMove t) (hb : BufferOk t.buf)
    (hv : t.resValid = true ↔ t.phase = .done) (hd : t.cmdData.length ≤ 255) (hl : t.portData.length ≤ 255) :
    Sound t := by
  have hno : ∀ p : Phase, p ≠ .idle → p ≠ .done → t.phase ≠ p := by
    rintro p hi hd rfl
    exact hm.elim hi hd
  have hnrx : t.phase ≠ .receive := hno _ (by decide) (by decide)
  have hnp : t.phase ≠ .pause := hno _ (by decide) (by decide)
  exact
    { bufWf := hb.1
      bufRange := hb.2
      validIff := hv
      timeoutWritten := fun hf => absurd hm hf
      dataFits := hd
      linesFit := hl
      command := fun hf => absurd hm hf
      address := fun ha => by
        rcases ha with h | h | h | h
        · exact absurd h (hno _ (by decide) (by decide))
        · exact absurd h (hno _ (by decide) (by decide))
        · exact absurd h hnp
        · exact absurd h hnrx
      pauseClock := fun h => absurd h hnp
      progressClock := fun h => absurd h hnrx
      inputs := fun h => absurd h hnrx
      receiver := fun h => absurd h hnrx }

theorem resetEvent_sound {s : State} (h : Sound s) : Sound (resetEvent s) :=
  sound_of_rest (.inl rfl) ⟨rfl, by simp [resetEvent, State.reset]⟩ (by simp [resetEvent, State.reset])
    (Nat.zero_le _) h.linesFit

theorem setTimeout_sound {s : State} (n : Nat) (hm : HostMayMove s) (h : Sound s) :
    Sound { s with timeout := n, timeoutSet := true } :=
  sound_of_rest hm ⟨h.bufWf, h.bufRange⟩ h.validIff h.dataFits h.linesFit

/-- A delivered result meets the invariant whatever the receiver was doing. -/
theorem finish_sound {s : State} (status : Byte) (frame : List Byte) (h : Sound s) : Sound (finish status frame s) :=
  sound_of_rest (.inr rfl) ⟨h.bufWf, h.bufRange⟩ (by simp) h.dataFits h.linesFit

/-! ### The invariant under what the transport, the clock and the agenda do -/

theorem sound_agenda {s : State} (g : List Move) (n : Nat) (h : Sound s) : Sound { s with agenda := g, draws := n } :=
  { h with }

theorem deliver_sound {s : State} (bs : List Byte) (h : Sound s) : Sound (deliver bs s) := { h with }

theorem advance_sound {s : State} (n : Nat) (h : Sound s) : Sound (advance n s) :=
  { h with
    pauseClock := fun hp => (h.pauseClock hp).trans (Nat.le_add_right _ _)
    progressClock := fun hp => (h.progressClock hp).trans (Nat.le_add_right _ _) }

/-! ### The invariant under the sequencer -/

/-- An accepted drive of the port meets the invariant. -/
theorem issued_sound {s : State} {f : FnCode} {c : PortCmd} (hc : PortCarries f c) (ha : Accepting s) (h : Sound s) :
    Sound (issued f c s) := by
  obtain ⟨-, hlen, hcount⟩ := hc
  exact
    { bufWf := h.bufWf
      bufRange := h.bufRange
      validIff := by simp [issued, accepted]
      timeoutWritten := fun _ => ha.2
      dataFits := hlen
      linesFit := hlen
      command := fun _ => ⟨f, fnOfByte_fnByte f, hcount⟩
      address := fun hp => by simp [PastAddressTest, issued, accepted] at hp
      pauseClock := nofun
      progressClock := nofun
      inputs := nofun
      receiver := nofun }

theorem sound_noResult {s : State} (h : Sound s) (hp : s.phase ≠ .done) : s.resValid = false := by
  rw [← Bool.not_eq_true]
  exact mt h.validIff.1 hp

/-- What the invariant asks of a receiver `t` that runs for the command in flight in `s`: its state, its inputs (R147) and
its progress time. -/
structure ReceivesFor (s t : State) : Prop where
  live : RxLive t
  clock : t.rxLast ≤ t.clock
  addr : t.expAddr = s.cmdDev
  fn : t.expFn = s.cmdOp
  time : t.rxT = s.timeout
  val : ∃ f, fnOfByte s.cmdOp = some f ∧ t.expVal = expectOf f s

/-- The expected value rests on the operand registers only. -/
theorem expectOf_congr {s t : State} (hr : t.cmdReg = s.cmdReg) (ha : t.cmdArg = s.cmdArg) (f : FnCode) :
    expectOf f t = expectOf f s := by
  cases f with
  | readCoils | readDiscrete => rfl
  | readHolding | readInput => exact congrArg (fun n : Word => n.setWidth 17 * 2) ha
  | writeSingleCoil | writeSingleHolding | writeMultiCoils | writeMultiHolding =>
    exact congrArg (fun r : Word => r.setWidth 17) hr

/-- From a sound state in flight to another with the same operands: what its phase asks of it. -/
theorem sound_of_flight {s t : State} (h : Sound s) (hs : InFlight s) (hsame : SameOperands s t)
    (hport : t.portData = s.portData) (hb : BufferOk t.buf) (hv : t.resValid = false) (hd : t.phase ≠ .done)
    (ha : PastAddressTest t → ∃ f, fnOfByte s.cmdOp = some f ∧ ValidAddress f s.cmdDev)
    (hc : t.phase = .pause → t.tTx ≤ t.clock) (hrx : t.phase = .receive → ReceivesFor s t) : Sound t := by
  obtain ⟨hop, hdev, hreg, harg, hdata, hto, hset⟩ := hsame
  exact
    { bufWf := hb.1
      bufRange := hb.2
      validIff := by simp [hv, hd]
      timeoutWritten := fun _ => hset.trans (h.timeoutWritten hs)
      dataFits := by rw [hdata]; exact h.dataFits
      linesFit := by rw [hport]; exact h.linesFit
      command := fun _ => by rw [hop, harg]; exact h.command hs
      address := fun hp => by rw [hop, hdev]; exact ha hp
      pauseClock := hc
      progressClock := fun hp => (hrx hp).clock
      inputs := fun hp => by
        rw [hop, hdev, hto]
        simp only [expectOf_congr hreg harg]
        exact ⟨(hrx hp).addr, (hrx hp).fn, (hrx hp).time, (hrx hp).val⟩
      receiver := fun hp => (hrx hp).live }

/-- What a poll of a live receiver answers: still live, the result as it was, or a result delivered. -/
theorem poll_live {s t : State} (hl : RxLive s) (h : poll s = .next t) :
    (t.phase = s.phase ∧ t.resValid = s.resValid ∧ RxLive t) ∨ (t.phase = .done ∧ t.resValid = true) := by
  have hw : rxWaiting s = true := (rxWaiting_iff s).2 (hl.imp (·.1) (·.1))
  cases hin : s.inbound with
  | nil =>
    rw [poll_idle hw hin] at h
    cases h
    unfold timeoutTest
    split
    · exact .inr ⟨rfl, rfl⟩
    · exact .inl ⟨rfl, rfl, hl⟩
  | cons b rest =>
    rw [poll_byte hw hin] at h
    obtain ⟨u, hu, -, hc⟩ := takeByte_live (s := consumed rest s) b hl
    cases hu.symm.trans h
    exact hc

/-- A poll keeps the buffer canonical and within `FRAME_MAX` and the progress time within the clock. -/
theorem poll_keeps {s t : State} (h : poll s = .next t) (hb : BufferOk s.buf) (hc : s.rxLast ≤ s.clock) :
    BufferOk t.buf ∧ t.rxLast ≤ t.clock := by
  by_cases hwait : rxWaiting s = true
  · cases hin : s.inbound with
    | nil =>
      rw [poll_idle hwait hin] at h
      cases h
      unfold timeoutTest
      split <;> exact ⟨hb, hc⟩
    | cons b rest =>
      rw [poll_byte hwait hin] at h
      obtain ⟨kw, kr, kl⟩ := takeByte_keeps h hb.1 hb.2
      exact ⟨⟨kw, kr⟩, by rw [kl, (takeByte_same h).clock]; exact le_refl s.clock⟩
  · rw [poll_terminal (by simpa using hwait)] at h
    cases h
    exact ⟨hb, hc⟩

theorem poll_sound {s t : State} (h : Sound s) (hp : s.phase = .receive) (hpoll : poll s = .next t) : Sound t := by
  have hsame := poll_same hpoll
  obtain ⟨hb, hc⟩ := poll_keeps hpoll (sound_buffer h) (h.progressClock hp)
  obtain ⟨haddr, hfn, hT, hev⟩ := h.inputs hp
  rcases poll_live (h.receiver hp) hpoll with ⟨htp, htv, hlive⟩ | ⟨htp, htv⟩
  · have hrx : t.phase = .receive := htp.trans hp
    exact sound_of_flight h (by simp [inFlight_iff, hp]) (sameOperands_of_same hsame) hsame.portData hb
      (htv.trans (sound_noResult h (by simp [hp]))) (by simp [hrx]) (fun _ => h.address (.inr (.inr (.inr hp))))
      (fun hpause => by simp [hrx] at hpause) fun _ =>
        { live := hlive
          clock := hc
          addr := hsame.expAddr.trans haddr
          fn := hsame.expFn.trans hfn
          time := hsame.rxT.trans hT
          val := by rw [hsame.expVal]; exact hev }
  · exact sound_of_rest (.inr htp) hb (by simp [htp, htv]) (by rw [hsame.cmdData]; exact h.dataFits)
      (by rw [hsame.portData]; exact h.linesFit)

/-- Every move of the engine keeps the invariant. -/
theorem engineMove_sound {s t : State} (h : Sound s) (hm : EngineMove s t) : Sound t := by
  have hb := sound_buffer h
  have hv := sound_noResult h
  cases hm with
  | rest | wait => exact h
  | reject => exact finish_sound _ _ h
  | poll hp hpoll => exact poll_sound h hp hpoll
  | pass hp hf ha =>
    exact sound_of_flight h (by simp [inFlight_iff, hp]) (sameOperands_refl s) rfl hb (hv (by simp [hp])) (by simp)
      (fun _ => ⟨_, hf, ha⟩) nofun nofun
  | flush hp =>
    exact sound_of_flight h (by simp [inFlight_iff, hp]) (sameOperands_refl s) rfl hb (hv (by simp [hp])) (by simp)
      (fun _ => h.address (.inl hp)) nofun nofun
  | transmit hp =>
    exact sound_of_flight h (by simp [inFlight_iff, hp]) (sameOperands_refl s) rfl hb (hv (by simp [hp])) (by simp)
      (fun _ => h.address (.inr (.inl hp))) (fun _ => le_refl _) nofun
  | listen hp hf =>
    exact sound_of_flight h (by simp [inFlight_iff, hp]) (sameOperands_refl s) rfl hb rfl (by simp)
      (fun _ => h.address (.inr (.inr (.inl hp)))) nofun
      fun _ => ⟨.inl ⟨rfl, Nat.zero_le _⟩, le_refl _, rfl, rfl, rfl, _, hf, rfl⟩

theorem engineRun_sound {n : Nat} {s t : State} (h : Sound s) (hr : engineRun n s = .next t) : Sound t := by
  induction n generalizing s with
  | zero => cases hr; exact h
  | succ n ih =>
    obtain ⟨u, hu, hr⟩ := andThen_eq_next hr
    exact ih (engineMove_sound h (engineStep_next hu)) hr

theorem drain_sound {n : Nat} {s t : State} (h : Sound s) (hd : drain n s = .next t) : Sound t := by
  induction n generalizing s with
  | zero => cases hd; exact h
  | succ n ih =>
    unfold drain at hd
    split at hd
    · next hc =>
      obtain ⟨u, hu, hd⟩ := andThen_eq_next hd
      exact ih (poll_sound h hc.1 hu) hd
    · cases hd; exact h

theorem burst_sound {bs : List Byte} {s t : State} (h : Sound s) (hb : burst bs s = .next t) : Sound t :=
  drain_sound (deliver_sound bs h) hb

/-- Every move of every agent keeps the invariant. -/
theorem agentMove_sound {s t : State} (h : Sound s) (hm : AgentMove s t) : Sound t := by
  cases hm with
  | engine hm => exact engineMove_sound h hm
  | tick n => exact advance_sound n h
  | arrive b => exact deliver_sound [b] h
  | burst hb => exact burst_sound h hb
  | issue hc ha => exact issued_sound hc ha h
  | command hc ha hr => exact engineRun_sound (issued_sound hc ha h) hr
  | setTimeout n hm => exact setTimeout_sound n hm h
  | reset => exact resetEvent_sound h

/-- Settles O55: a step is a move of one agent with the agenda or the count of draws taken on, and every such move keeps
the invariant. -/
theorem stepKeepsInvariant : Obligations.StepKeepsInvariant := by
  intro s t h hstep
  obtain ⟨m, u, hmove, hu⟩ := step_move hstep
  have hsound : Sound u := by rw [hu]; exact sound_agenda _ _ h
  exact agentMove_sound hsound (stepMove_next hmove)

end Sys2Proof.Machine
end

section
/-! PROOFS. The statements about the state, the port and the moves of the agents. -/

namespace Sys2Proof.Machine

open Safety

/-- Settles O52, by the definition of the reset state. -/
theorem resetState : Obligations.ResetState := ⟨rfl, rfl, rfl⟩

/-- Settles O54: the reset state is at rest, with an empty buffer and empty lines. -/
theorem resetMeetsInvariant : Obligations.ResetMeetsInvariant :=
  sound_of_rest (.inl rfl) ⟨rfl, nofun⟩ (by simp [State.reset]) (Nat.zero_le _) (Nat.zero_le _)

/-- Settles O53: the step is `resetEvent` at the state without the move. -/
theorem resetEventAbandons : Obligations.ResetEventAbandons := by
  intro s rest h
  exact ⟨_, (step_cons h).trans (stepMove_reset _), rfl, rfl, rfl, rfl, rfl, rfl, rfl⟩

/-- Settles O44: the step takes the move, then `stepMove` runs what it decodes to, after the lines are driven. -/
theorem stepRunsDecodedInstruction : Obligations.StepRunsDecodedInstruction := by
  intro s m rest i
  refine ⟨fun ha hd => ?_, fun ha hd => ?_, fun c hm => ?_, fun hd hm => ?_⟩
  · rw [step_cons ha]; exact stepMove_decoded hd
  · rw [step_free ha]; exact stepMove_decoded hd
  · rw [hm, drivePort_command]
  · cases m with
    | command c => exact absurd rfl (hm c)
    | issue c => cases hd
    | _ => rfl

/-- Settles O45: `stepMove` of each such move, after the step has taken it off the agenda. -/
theorem otherMovesOfTheAgents : Obligations.OtherMovesOfTheAgents := by
  intro s rest n b bs
  refine ⟨fun h => ?_, fun h => ?_, fun h => ?_, fun h => ?_, fun h => ?_⟩ <;> rw [step_cons h]
  · exact stepMove_engine _
  · exact stepMove_tick n _
  · exact stepMove_byte b _
  · exact stepMove_frame bs _
  · exact stepMove_reset _

/-- Settles O40: a reply is a burst of its frame, and outside RECEIVE a burst only waits. -/
theorem repliesWaitOutsideReceive : Obligations.RepliesWaitOutsideReceive := by
  intro i frame s hp hport he
  rw [exec_of_reply hport he, burst_waits hp]
  rfl

/-- Settles O57: a step is a move of one agent, and in flight every move but a reset keeps the operands. -/
theorem operandsConstantInFlight : Obligations.OperandsConstantInFlight := by
  intro s t hf hstep
  obtain ⟨m, u, hmove, hu⟩ := step_move hstep
  have hfu : InFlight u := by rw [hu]; exact hf
  rcases agentMove_operands hfu (stepMove_next hmove) with h | rfl
  · rw [hu] at h
    exact .inl h
  · exact .inr ⟨rfl, rfl, rfl⟩

/-- Settles O11: each command's drive is of its own operation, within the limits, and holds its operands. -/
theorem portDecodeEncode : Obligations.PortDecodeEncode := by
  intro i c hw hc
  cases i <;> cases hc
  case writeSingleCoil a r v =>
    refine Eq.trans (decodePort_of_fn rfl (Nat.zero_le _)) ?_
    cases v <;> simp [portInstr, canonical]
  case writeMultiCoils a r count data => exact Eq.trans (decodePort_of_fn rfl (of_decide_eq_true hw)) rfl
  case writeMultiHolding a r values =>
    have hv : values.length ≤ 127 := of_decide_eq_true hw
    have harg : (BitVec.ofNat 16 values.length).toNat = values.length := by
      rw [BitVec.toNat_ofNat]; omega
    rw [decodePort_of_fn (f := .writeMultiHolding) rfl (by rw [bytesOf_length]; omega),
      portInstr_registers_fit (by rw [harg]; exact hv) (by rw [bytesOf_length, harg]), wordsOf_bytesOf]
    rfl
  all_goals exact Eq.trans (decodePort_of_fn rfl (Nat.zero_le _)) rfl

/-- Settles O18: `SetTimeout` makes the host's state accepting, and before it every command stops at its acceptance. -/
theorem commandsNeedTimeout : Obligations.CommandsNeedTimeout := by
  intro a r v count on data values t s hm hd hv
  refine ⟨⟨_, if_pos ((portReady_iff s).2 hm), hm, rfl⟩, fun hs i hi => ?_⟩
  have hcmd : WellFormed i = true ∧ (portOf i).isSome = true := by
    revert i
    simp [WellFormed, portOf, Config.txDataMax, Config.valuesMax, hd, hv]
  obtain ⟨f, a', r', arg, dat, hexec⟩ := exec_of_command hcmd.1 hcmd.2 s
  rw [hexec, accept_unset hm hs, andThen_refused]

/-- Settles O20: a drive within the limits is issued as an acceptance of its operands as the lines drive them. -/
theorem acceptanceRule : Obligations.AcceptanceRule := by
  intro s c rest hag hop hlen hcount
  obtain ⟨f, hf⟩ : ∃ f, fnOfByte c.op = some f := by
    rw [← Option.isSome_iff_exists, fnOfByte_isSome]
    exact List.contains_iff_mem.2 hop
  have hc : PortCarries f c := by
    refine ⟨hf, hlen, ?_⟩
    rintro rfl
    exact hcount (fnByte_of_fnOfByte hf)
  have hstep : step s = accept f c.dev c.reg (some c.arg) (some c.data)
      { s with agenda := rest, portArg := c.arg, portData := c.data } := by
    rw [step_cons hag, stepMove_issue]
    exact issueCommand_carried hc rfl rfl
  refine ⟨fun ha => ?_, fun ha => ?_⟩
  · rw [hstep, accept_eq (s := { s with agenda := rest, portArg := c.arg, portData := c.data }) ha, accepted,
      ← fnByte_of_fnOfByte hf]
    rfl
  · rw [hstep]
    exact accept_refused ha

end Sys2Proof.Machine
end

section
/-! PROOFS. The frame a command transmits is its request's encoding, and the statements about the host's side of a
transaction, the outbound stream, `Receive` and the frame buffer. -/

namespace Sys2Proof.Machine

open Safety

/-! ### The frame transmitted -/

/-- The operand registers as the drive of the port they were latched from (R11). -/
def heldDrive (s : State) : PortCmd := ⟨s.cmdOp, s.cmdDev, s.cmdReg, s.cmdArg, s.cmdData⟩

/-- A request frame to a valid address (R65, R66, R142, R143). -/
def ValidRequest (frame : List Byte) : Prop :=
  ∃ (i : Instr) (c : PortCmd), WellFormed i = true ∧ portOf i = some c ∧ encode i = some frame ∧
    c.dev.toNat ≤ 247 ∧ (c.op ∈ ([0x01, 0x02, 0x03, 0x04] : List Byte) → c.dev ≠ 0)

/-- The frame of a multiple register write to a valid address whose data do not fit its count
(notes/assumptions/23.md). -/
def UnevenMultiWrite (frame : List Byte) : Prop :=
  ∃ (dev len : Byte) (r n : Word) (data : List Byte),
    dev.toNat ≤ 247 ∧ n.toNat ≤ 127 ∧ data.length ≤ 255 ∧ data.length ≠ 2 * n.toNat ∧
      frame = buildFrame dev 0x10 (be16 r ++ be16 n ++ [len] ++ data)

theorem isRead_of_fnByte {f : FnCode} (h : fnByte f ∈ ([0x01, 0x02, 0x03, 0x04] : List Byte)) : isRead f = true := by
  revert h
  cases f <;> decide

/-- The payload of a multiple register write whose data fit its count is that of its list of values (R66, R157). -/
theorem encode_writeMultiHolding_held {s : State} (hn : s.cmdData.length = 2 * s.cmdArg.toNat) :
    encode (.writeMultiHolding s.cmdDev s.cmdReg (wordsOf s.cmdData)) =
      some (buildFrame s.cmdDev 0x10 (payloadOf .writeMultiHolding s)) := by
  have hcount : BitVec.ofNat 16 (wordsOf s.cmdData).length = s.cmdArg := by
    rw [wordsOf_length, hn, Nat.mul_div_cancel_left _ (by decide), BitVec.ofNat_toNat, BitVec.setWidth_eq]
  have hbytes : bytesOf (wordsOf s.cmdData) = s.cmdData := bytesOf_wordsOf _ (by omega)
  simp only [encode, hcount, hbytes, payloadOf, writeMultiHoldingPayload, registersByteLen_fit hn, ← hn]
  rfl

/-- Where the operand registers hold a command's operands, the frame built of them is that command's encoding (R100,
R141). -/
theorem encode_heldDrive {f : FnCode} {s : State} {i : Instr} (hd : s.cmdData.length ≤ 255)
    (h : portInstr f (heldDrive s) = .ok i) :
    WellFormed i = true ∧ encode i = some (buildFrame s.cmdDev (fnByte f) (payloadOf f s)) ∧
      ∃ c, portOf i = some c ∧ c.op = fnByte f ∧ c.dev = s.cmdDev := by
  cases f with
  | writeMultiHolding =>
    simp only [portInstr] at h
    split at h
    · cases h
    · split at h
      · next hn =>
        cases h
        have hfit : (wordsOf s.cmdData).length ≤ 127 := by rw [wordsOf_length]; omega
        exact ⟨decide_eq_true hfit, encode_writeMultiHolding_held hn, _, rfl, rfl, rfl⟩
      · cases h
  | writeMultiCoils => cases h; exact ⟨decide_eq_true hd, rfl, _, rfl, rfl, rfl⟩
  | _ => cases h; exact ⟨rfl, rfl, _, rfl, rfl, rfl⟩

/-- A drive the port takes that is no command's is a multiple register write whose data do not fit its count. -/
theorem portInstr_error {f : FnCode} {c : PortCmd} {e : DecodeError} (hc : PortCarries f c)
    (h : portInstr f c = .error e) : f = .writeMultiHolding ∧ c.data.length ≠ 2 * c.arg.toNat := by
  obtain ⟨-, -, hcount⟩ := hc
  cases f with
  | writeMultiHolding =>
    refine ⟨rfl, fun hn => ?_⟩
    cases h.symm.trans (portInstr_registers_fit (hcount rfl) hn)
  | _ => cases h

/-- What a command with a valid address transmits, from operands the port takes. -/
theorem transmitted_frame {f : FnCode} {s : State} (hc : PortCarries f (heldDrive s)) (ha : ValidAddress f s.cmdDev) :
    ValidRequest (buildFrame s.cmdDev (fnByte f) (payloadOf f s)) ∨
      UnevenMultiWrite (buildFrame s.cmdDev (fnByte f) (payloadOf f s)) := by
  have ⟨_, hd, hcount⟩ := hc
  obtain ⟨hmax, hread⟩ := ha
  cases hi : portInstr f (heldDrive s) with
  | ok i =>
    obtain ⟨hw, he, c, hp, hop, hdev⟩ := encode_heldDrive hd hi
    refine .inl ⟨i, c, hw, hp, he, hdev ▸ hmax, fun hmem => ?_⟩
    rw [hdev]
    exact hread (isRead_of_fnByte (hop ▸ hmem))
  | error e =>
    obtain ⟨rfl, hn⟩ := portInstr_error hc hi
    exact .inr ⟨s.cmdDev, registersByteLen s, s.cmdReg, s.cmdArg, s.cmdData, hmax, hcount rfl, hd, hn, rfl⟩

/-! ### The outbound stream -/

/-- From `s` to `t` the outbound stream stays as it was or takes one frame to a valid address. -/
def SendsAtMostOne (s t : State) : Prop :=
  t.outbound = s.outbound ∨ ∃ frame, (ValidRequest frame ∨ UnevenMultiWrite frame) ∧ t.outbound = s.outbound ++ frame

/-- Of the engine's moves only TRANSMIT writes the outbound stream (R48), after the address test. -/
theorem engineMove_sends {s t : State} (h : Sound s) (hm : EngineMove s t) : SendsAtMostOne s t := by
  cases hm with
  | rest | pass | reject | flush | wait | listen => exact .inl rfl
  | poll _ hpoll => exact .inl (poll_same hpoll).outbound
  | @transmit f hp hf =>
    obtain ⟨g, hg, hcount⟩ := h.command ((inFlight_iff s).2 (by simp [hp]))
    obtain ⟨k, hk, haddr⟩ := h.address (.inr (.inl hp))
    obtain rfl : f = g := Option.some.inj (hf.symm.trans hg)
    obtain rfl : f = k := Option.some.inj (hf.symm.trans hk)
    refine .inr ⟨_, transmitted_frame ⟨hf, h.dataFits, hcount⟩ haddr, ?_⟩
    rw [← fnByte_of_fnOfByte hf]

/-- A command run up to its pause or its outcome transmits at most its own frame. -/
theorem command_sends {f : FnCode} {c : PortCmd} {s t : State} (hc : PortCarries f c)
    (h : engineRun 3 (issued f c s) = .next t) : SendsAtMostOne s t := by
  by_cases haddr : ValidAddress f c.dev
  · cases (runToPause_valid haddr).symm.trans h
    obtain ⟨-, hlen, hcount⟩ := hc
    exact .inr ⟨_, transmitted_frame (s := issued f c s) ⟨fnOfByte_fnByte f, hlen, hcount⟩ haddr, rfl⟩
  · cases (runToPause_invalid haddr).symm.trans h
    exact .inl rfl

theorem agentMove_sends {s t : State} (h : Sound s) (hm : AgentMove s t) : SendsAtMostOne s t := by
  cases hm with
  | engine hm => exact engineMove_sends h hm
  | command hc _ hr => exact command_sends hc hr
  | burst hb => exact .inl (burst_same hb).outbound
  | tick | arrive | issue | setTimeout | reset => exact .inl rfl

/-- Settles O59: a step is a move of one agent, and only TRANSMIT, alone or inside a command's move, sends a frame. -/
theorem onlyValidRequestsTransmit : Obligations.OnlyValidRequestsTransmit := by
  intro s t h hstep
  obtain ⟨m, u, hmove, hu⟩ := step_move hstep
  have hsound : Sound u := by rw [hu]; exact sound_agenda _ _ h
  have hout : u.outbound = s.outbound := by rw [hu]
  have hsends := agentMove_sends hsound (stepMove_next hmove)
  rw [SendsAtMostOne, hout] at hsends
  rcases hsends with hsame | ⟨frame, hreq | huneven, ht⟩
  · exact .inl hsame
  · obtain ⟨i, c, hw, hp, he, haddr⟩ := hreq
    exact .inr (.inl ⟨i, c, frame, hw, hp, he, ht, haddr⟩)
  · obtain ⟨dev, len, r, n, data, hmax, hn, hd, hne, rfl⟩ := huneven
    exact .inr (.inr ⟨dev, len, r, n, data, hmax, hn, hd, hne, ht⟩)

/-! ### The host in flight, `Receive` and the frame buffer -/

theorem execSetTimeout_busy {n : Nat} {s : State} (h : InFlight s) : execSetTimeout n s = .refused .portBusy :=
  if_neg (mt (portReady_iff s).1 h)

/-- Settles O17: a command's meaning begins with its acceptance, which like `SetTimeout` asks that the host may move. -/
theorem commandsRefusedInFlight : Obligations.CommandsRefusedInFlight := by
  intro a r v count on data values t s hf hd hv i hi
  have hcases : (WellFormed i = true ∧ (portOf i).isSome = true) ∨ i = .setTimeout t := by
    revert i
    simp [WellFormed, portOf, Config.txDataMax, Config.valuesMax, hd, hv]
  rcases hcases with ⟨hw, hp⟩ | rfl
  · obtain ⟨f, a', r', arg, dat, hexec⟩ := exec_of_command hw hp s
    rw [hexec, accept_busy hf, andThen_refused]
  · exact execSetTimeout_busy hf

theorem execReceive_eq {ef : Byte} (h : ef ∈ functionBytes) (ea : Byte) (ev : Val17) (T : Nat) (s : State) :
    execReceive ea ef ev T s = catchUp (receiveStart ea ef ev T s) := by
  obtain ⟨f, hf⟩ : ∃ f, fnOfByte ef = some f := by
    rw [← Option.isSome_iff_exists, fnOfByte_isSome]
    exact List.contains_iff_mem.2 h
  simp only [execReceive, hf]

theorem receiveStart_live (ea ef : Byte) (ev : Val17) (T : Nat) (s : State) : RxLive (receiveStart ea ef ev T s) :=
  .inl ⟨rfl, Nat.zero_le _⟩

/-- Settles O26: a started receiver is live and holds no byte, and draining a live receiver answers next. -/
theorem receiveAlwaysAnswers : Obligations.ReceiveAlwaysAnswers := by
  intro ea ef ev T s hef
  have hlive := receiveStart_live ea ef ev T s
  obtain ⟨t, ht, hcase⟩ := drain_live rfl hlive (le_refl _)
  obtain ⟨taken, htaken, hbuf⟩ := drain_taken hlive ht
  have hstart : SameOutsideReceiver { s with expAddr := ea, expFn := ef, expVal := ev, rxT := T }
      (receiveStart ea ef ev T s) := by constructor <;> rfl
  refine ⟨t, taken, (execReceive_eq hef ea ev T s).trans ht, sameOutside_trans hstart (drain_same ht), htaken, hcase,
    fun j hj => hbuf j ?_⟩
  have hheld : bytesHeld (receiveStart ea ef ev T s) = 0 := rfl
  omega

/-- Settles O27, by the laws of the frame buffer. -/
theorem bufferReadsBackWrites : Obligations.BufferReadsBackWrites := by
  intro m i bs hwf _
  refine ⟨memRead_memWrite hwf i bs, fun j hj => read_memWrite_outside bs m hj,
    fun n => ⟨memRead_length m i n, fun k hk => ?_⟩, memWrite_wf bs i hwf⟩
  have hlt : k < (memRead m i n).length := (memRead_length m i n).symm ▸ hk
  rw [List.getElem?_eq_getElem hlt, memRead_getElem]

end Sys2Proof.Machine
end

section
/-! PROOFS. Requests: what each format decodes to is what was encoded, and nothing else decodes (R65 to R67, R72). -/

namespace Sys2Proof.Machine

/-! ### The two request formats -/

/-- Format `RQ8` (R65): what decodes is the frame of two words that the command takes, and the rest. -/
theorem decodeRq8_ok_iff {a f : Byte} {bs tail : List Byte} {mk : Word → Word → Except DecodeError Instr} {i : Instr} :
    decodeRq8 a f bs mk = .ok (i, tail) ↔
      ∃ r x, mk r x = .ok i ∧ a :: f :: bs = rq8Frame a f r x ++ tail := by
  constructor
  · intro h
    unfold decodeRq8 at h
    split at h
    · next r1 r0 x1 x0 c1 c0 rest =>
      split at h
      · next hc =>
        split at h
        · next j hj =>
          cases h
          exact ⟨word r1 r0, word x1 x0, hj, by simp [rq8Frame, ← hc]⟩
        · cases h
      · cases h
    · cases h
  · rintro ⟨r, x, hi, hbs⟩
    obtain rfl : bs = be16 r ++ be16 x ++ be16 (crc16 [a, f, hi8 r, lo8 r, hi8 x, lo8 x]) ++ tail := by
      simpa [rq8Frame, be16] using hbs
    simp [decodeRq8, be16, hi]

/-- A data field of `len` bytes that is not cut short stands before its trailer. -/
theorem split_of_drop {len : Nat} {more tail : List Byte} {c1 c0 : Byte} (h : more.drop len = c1 :: c0 :: tail) :
    ∃ data, data.length = len ∧ more = data ++ c1 :: c0 :: tail := by
  refine ⟨more.take len, ?_, by rw [← h, List.take_append_drop]⟩
  have hlen := congrArg List.length h
  simp only [List.length_drop, List.length_cons] at hlen
  rw [List.length_take]
  omega

/-- A length that fits its field is what the field holds. -/
theorem toNat_ofNat_of_lt {w n : Nat} (h : n < 2 ^ w) : (BitVec.ofNat w n).toNat = n := by
  rw [BitVec.toNat_ofNat, Nat.mod_eq_of_lt h]

/-- Format `RQM` (R66): what decodes is the frame of two words and at most 255 data bytes that the command takes, and
the rest. -/
theorem decodeRqm_ok_iff {a f : Byte} {bs tail : List Byte} {mk : Word → Word → List Byte → Except DecodeError Instr}
    {i : Instr} :
    decodeRqm a f bs mk = .ok (i, tail) ↔
      ∃ r n data, data.length ≤ 255 ∧ mk r n data = .ok i ∧ a :: f :: bs = rqmFrame a f r n data ++ tail := by
  constructor
  · intro h
    unfold decodeRqm at h
    split at h
    · next r1 r0 n1 n0 len more =>
      split at h
      · next c1 c0 rest hdrop =>
        obtain ⟨data, hlen, rfl⟩ := split_of_drop hdrop
        rw [List.take_left' hlen] at h
        split at h
        · next hc =>
          split at h
          · next j hj =>
            cases h
            simp only [List.cons_append, List.nil_append] at hc
            exact ⟨word r1 r0, word n1 n0, data, by omega, hj, by simp [rqmFrame, hlen, ← hc]⟩
          · cases h
        · cases h
      · cases h
    · cases h
  · rintro ⟨r, n, data, hlen, hi, hbs⟩
    obtain rfl : bs = be16 r ++ be16 n ++ BitVec.ofNat 8 data.length :: (data ++
        be16 (crc16 ([a, f, hi8 r, lo8 r, hi8 n, lo8 n, BitVec.ofNat 8 data.length] ++ data)) ++ tail) := by
      simpa [rqmFrame, be16] using hbs
    have hfield : (BitVec.ofNat 8 data.length).toNat = data.length := toNat_ofNat_of_lt (by omega)
    simp [decodeRqm, be16, hfield, hi]

theorem decodeCoil_ok_iff {x : Word} {v : Bool} : decodeCoil x = .ok v ↔ x = if v then 0xFF00 else 0x0000 := by
  constructor
  · intro h
    unfold decodeCoil at h
    split at h
    · next hx => cases h; exact hx
    · split at h
      · next hx => cases h; exact hx
      · cases h
  · rintro rfl
    cases v <;> rfl

/-- A byte length that is twice the count of registers is that of the list of values it carries (R66, R157). -/
theorem rqmFrame_values {a f : Byte} {r n : Word} {data : List Byte} (hn : data.length = 2 * n.toNat) :
    rqmFrame a f r n data = rqmFrame a f r (BitVec.ofNat 16 (wordsOf data).length) (bytesOf (wordsOf data)) := by
  rw [wordsOf_length, hn, Nat.mul_div_cancel_left _ (by decide), BitVec.ofNat_toNat, BitVec.setWidth_eq,
    bytesOf_wordsOf data (by omega)]

/-! ### Requests -/

/-- What decodes as a request is the encoding of a well-formed command, and the rest. -/
theorem decodeRequest_ok {bs rest : List Byte} {i : Instr} (h : decodeRequest bs = .ok (i, rest)) :
    WellFormed i = true ∧ (portOf i).isSome = true ∧ ∃ frame, encode i = some frame ∧ bs = frame ++ rest := by
  match bs with
  | [] | [_] => cases h
  | a :: f :: tail =>
    cases hf : fnOfByte f with
    | none => simp [decodeRequest, hf] at h
    | some fc =>
      obtain rfl := fnByte_of_fnOfByte hf
      simp only [decodeRequest, fnOfByte_fnByte] at h
      cases fc with
      | readCoils | readDiscrete =>
        obtain ⟨r, x, hi, hbs⟩ := decodeRq8_ok_iff.1 h
        split at hi
        · next hx => cases hi; subst hx; exact ⟨rfl, rfl, _, rfl, hbs⟩
        · cases hi
      | writeSingleCoil =>
        obtain ⟨r, x, hi, hbs⟩ := decodeRq8_ok_iff.1 h
        split at hi
        · next v hv => cases hi; rw [decodeCoil_ok_iff.1 hv] at hbs; exact ⟨rfl, rfl, _, rfl, hbs⟩
        · cases hi
      | readHolding | readInput | writeSingleHolding =>
        obtain ⟨r, x, hi, hbs⟩ := decodeRq8_ok_iff.1 h
        cases hi
        exact ⟨rfl, rfl, _, rfl, hbs⟩
      | writeMultiCoils =>
        obtain ⟨r, n, data, hlen, hi, hbs⟩ := decodeRqm_ok_iff.1 h
        cases hi
        exact ⟨decide_eq_true hlen, rfl, _, rfl, hbs⟩
      | writeMultiHolding =>
        obtain ⟨r, n, data, hlen, hi, hbs⟩ := decodeRqm_ok_iff.1 h
        split at hi
        · next hn =>
          cases hi
          have hfit : (wordsOf data).length ≤ 127 := by rw [wordsOf_length]; omega
          exact ⟨decide_eq_true hfit, rfl, _, rfl, hbs.trans (congrArg (· ++ rest) (rqmFrame_values hn))⟩
        · cases hi

/-- The frame of a well-formed command decodes to it, a pseudo-command's to its expansion (R79). -/
theorem decodeRequest_encode {i : Instr} {frame : List Byte} (rest : List Byte) (hw : WellFormed i = true)
    (hp : (portOf i).isSome = true) (he : encode i = some frame) :
    decodeRequest (frame ++ rest) = .ok (canonical i, rest) := by
  cases i <;> cases hp <;> cases he <;>
    -- each frame's function byte is a literal, which fixes the decoder's branch
    simp only [rq8Frame, rqmFrame, List.cons_append, decodeRequest, fnOfByte, BitVec.reduceEq, reduceIte]
  case writeSingleCoil a r v => exact decodeRq8_ok_iff.2 ⟨r, _, by rw [decodeCoil_ok_iff.2 rfl]; rfl, rfl⟩
  case writeMultiCoils a r count data => exact decodeRqm_ok_iff.2 ⟨r, count, data, of_decide_eq_true hw, rfl, rfl⟩
  case writeMultiHolding a r values =>
    have hv : values.length ≤ 127 := of_decide_eq_true hw
    have hcount : (bytesOf values).length = 2 * (BitVec.ofNat 16 values.length).toNat := by
      rw [bytesOf_length, toNat_ofNat_of_lt (by omega)]
    exact decodeRqm_ok_iff.2 ⟨r, _, bytesOf values, by rw [bytesOf_length]; omega,
      by rw [if_pos hcount, wordsOf_bytesOf]; rfl, rfl⟩
  all_goals exact decodeRq8_ok_iff.2 ⟨_, _, rfl, rfl⟩

/-- Settles O7: the decoder's branch is fixed by the function byte, and each format decodes from its frame. -/
theorem requestDecodeEncode : Obligations.RequestDecodeEncode := by
  intro i frame rest hw hp he
  exact decodeRequest_encode rest hw hp he

/-- Settles O9: what a format decodes from is its frame, and each command's test admits only the operands that the
encoder writes. -/
theorem requestDecodeIsExact : Obligations.RequestDecodeIsExact := by
  intro bs rest i h
  exact decodeRequest_ok h

end Sys2Proof.Machine
end

section
/-! PROOFS. Replies: each of the sixteen decodes from its frame, and what decodes is well-formed (R68 to R71). -/

namespace Sys2Proof.Machine

/-! ### What a read, an echo and an exception are made of -/

theorem isRead_of_readReplyInstr {f : FnCode} {fmt : LenFmt} {a : Byte} {body : List Byte} {c : Word} {i : Instr}
    (h : readReplyInstr f fmt a body c = some i) : isRead f = true := by cases f <;> cases h <;> rfl

theorem wellFormed_readReplyInstr {f : FnCode} {fmt : LenFmt} {a : Byte} {body : List Byte} {c : Word} {i : Instr}
    (h : readReplyInstr f fmt a body c = some i) : WellFormed i = bodyFits fmt body := by cases f <;> cases h <;> rfl

theorem isWrite_of_echoReplyInstr {f : FnCode} {a : Byte} {r x c : Word} {i : Instr}
    (h : echoReplyInstr f a r x c = some i) : isRead f = false := by cases f <;> cases h <;> rfl

theorem wellFormed_echoReplyInstr {f : FnCode} {a : Byte} {r x c : Word} {i : Instr}
    (h : echoReplyInstr f a r x c = some i) : WellFormed i = true := by cases f <;> cases h <;> rfl

theorem wellFormed_exceptionInstr (f : FnCode) (a code : Byte) (c : Word) :
    WellFormed (exceptionInstr f a code c) = true := by cases f <;> rfl

/-! ### The function byte of a normal reply and of an exception (R62, R63, R71) -/

theorem fnByte_bit7 (f : FnCode) : (fnByte f).getLsbD 7 = false := by cases f <;> rfl

theorem fnByte_low (f : FnCode) : fnByte f &&& 0x7F = fnByte f := by cases f <;> rfl

theorem exceptionByte_bit7 (f : FnCode) : (fnByte f ||| 0x80).getLsbD 7 = true := by cases f <;> rfl

theorem exceptionByte_low (f : FnCode) : (fnByte f ||| 0x80) &&& 0x7F = fnByte f := by cases f <;> rfl

/-! ### Decoding a frame -/

theorem decodeBody_append {f : FnCode} {fmt : LenFmt} {a : Byte} {body : List Byte} {c : Word} {i : Instr}
    (h : readReplyInstr f fmt a body c = some i) (tail : List Byte) :
    decodeBody f fmt a body.length (body ++ be16 c ++ tail) = .ok (i, tail) := by
  simp [decodeBody, be16, h]

theorem decodeReply_readReplyFrame {f : FnCode} {fmt : LenFmt} {a : Byte} {body : List Byte} {c : Word} {i : Instr}
    (hb : bodyFits fmt body = true) (h : readReplyInstr f fmt a body c = some i) (rest : List Byte) :
    decodeReply fmt (readReplyFrame fmt a (fnByte f) body c ++ rest) = .ok (i, rest) := by
  have hread := isRead_of_readReplyInstr h
  cases fmt with
  | len1 =>
    simp only [decodeReply, readReplyFrame, lengthField, List.cons_append, List.nil_append, fnByte_bit7,
      fnOfByte_fnByte, hread, if_true, Bool.false_eq_true, if_false]
    rw [toNat_ofNat_of_lt (of_decide_eq_true hb)]
    exact decodeBody_append h rest
  | len2 =>
    simp only [decodeReply, readReplyFrame, lengthField, be16, List.cons_append, List.nil_append, fnByte_bit7,
      fnOfByte_fnByte, hread, word_hi8_lo8, if_true, Bool.false_eq_true, if_false]
    rw [toNat_ofNat_of_lt (of_decide_eq_true hb)]
    exact decodeBody_append h rest

theorem decodeReply_echoFrame {f : FnCode} {a : Byte} {r x c : Word} {i : Instr}
    (h : echoReplyInstr f a r x c = some i) (fmt : LenFmt) (rest : List Byte) :
    decodeReply fmt (echoFrame a (fnByte f) r x c ++ rest) = .ok (i, rest) := by
  simp only [decodeReply, echoFrame, be16, List.cons_append, List.nil_append, fnByte_bit7, fnOfByte_fnByte,
    isWrite_of_echoReplyInstr h, word_hi8_lo8, h, Bool.false_eq_true, if_false]

theorem decodeReply_exceptionFrame (f : FnCode) (fmt : LenFmt) (a code : Byte) (c : Word) (rest : List Byte) :
    decodeReply fmt (exceptionFrame a (fnByte f) code c ++ rest) = .ok (exceptionInstr f a code c, rest) := by
  simp only [decodeReply, exceptionFrame, be16, List.cons_append, List.nil_append, exceptionByte_bit7,
    exceptionByte_low, fnOfByte_fnByte, word_hi8_lo8, if_true]

/-- A decoded read reply's body fits the length field it was counted by; no other operand of a reply has a limit. -/
theorem decodeReply_wellFormed {fmt : LenFmt} {bs rest : List Byte} {i : Instr}
    (h : decodeReply fmt bs = .ok (i, rest)) : WellFormed i = true := by
  unfold decodeReply at h
  split at h
  · split at h
    · split at h
      · cases h
      · split at h
        · cases h; exact wellFormed_exceptionInstr ..
        · cases h
    · split at h
      · cases h
      · split at h
        · split at h
          · next len more =>
            obtain ⟨body, c, hlen, -, hi⟩ := decodeBody_ok h
            rw [wellFormed_readReplyInstr hi]
            exact decide_eq_true (hlen ▸ len.isLt)
          · next l1 l0 more =>
            obtain ⟨body, c, hlen, -, hi⟩ := decodeBody_ok h
            rw [wellFormed_readReplyInstr hi]
            exact decide_eq_true (hlen ▸ (word l1 l0).isLt)
          · cases h
        · split at h
          · split at h
            · next j hj => cases h; exact wellFormed_echoReplyInstr hj
            · cases h
          · cases h
  · cases h

/-- Settles O8, by the frame of each format. -/
theorem replyDecodeEncode : Obligations.ReplyDecodeEncode := by
  intro fmt fmt' a code body rest r x c hb
  have read : ∀ f i, readReplyInstr f fmt a body c = some i →
      ∃ frame, encode i = some frame ∧ decodeReply fmt (frame ++ rest) = .ok (i, rest) := fun f i h =>
    ⟨_, (encode_readReplyInstr h).2, decodeReply_readReplyFrame hb h rest⟩
  have echo : ∀ f i, echoReplyInstr f a r x c = some i →
      ∃ frame, encode i = some frame ∧ decodeReply fmt' (frame ++ rest) = .ok (i, rest) := fun f i h =>
    ⟨_, (encode_echoReplyInstr h).2, decodeReply_echoFrame h fmt' rest⟩
  have exc : ∀ f, ∃ frame, encode (exceptionInstr f a code c) = some frame ∧
      decodeReply fmt' (frame ++ rest) = .ok (exceptionInstr f a code c, rest) := fun f =>
    ⟨_, (encode_exceptionInstr f a code c).2, decodeReply_exceptionFrame f fmt' a code c rest⟩
  simp only [List.forall_mem_cons]
  exact ⟨⟨read .readCoils _ rfl, read .readDiscrete _ rfl, read .readHolding _ rfl, read .readInput _ rfl, nofun⟩,
    echo .writeSingleCoil _ rfl, echo .writeSingleHolding _ rfl, echo .writeMultiCoils _ rfl,
    echo .writeMultiHolding _ rfl, exc .readCoils, exc .readDiscrete, exc .readHolding, exc .readInput,
    exc .writeSingleCoil, exc .writeSingleHolding, exc .writeMultiCoils, exc .writeMultiHolding, nofun⟩

/-- Settles O10: the frame is `decodeReply_frame`'s. -/
theorem replyDecodeIsExact : Obligations.ReplyDecodeIsExact := by
  intro fmt bs rest i h
  exact ⟨decodeReply_wellFormed h, decodeReply_frame h⟩

end Sys2Proof.Machine
end

section
/-! PROOFS. A reply that the receiver awaits is received whole (R114 to R127), a multiple register write whose data
do not fit its count runs as any command (R157, R162), and the spec's own frames decode. -/

namespace Sys2Proof.Machine

open Safety

/-! ### What a whole reply leads to -/

/-- The outcome of a reply that is taken whole: its frame is held, and it is delivered with this status if its trailer
`c` is right (R125), a CRC error if not (R127). -/
def ReceivedWhole (status : Byte) (c : Word) (frame : List Byte) (s : State) (o : StepResult) : Prop :=
  ∃ t, o = .next t ∧ ReceivedFrame frame s t ∧
    (c = crc16 (frame.take (frame.length - 2)) → Delivered status frame t) ∧
    (c ≠ crc16 (frame.take (frame.length - 2)) → Delivered 8 [] t)

/-- A ready receiver takes a frame whole whose header matches and whose length is the one `DecideLength` decides. -/
theorem burst_receivedWhole {a f : Byte} {s : State} {pre tail : List Byte} {c : Word} {total : Val17}
    {b1 b2 b3 status : Byte} (hwf : Memory.wf s.buf = true) (hr : ReadyFor a f s)
    (hf : functionMatches b1 f = true) (hg : pre ++ be16 c = a :: b1 :: b2 :: b3 :: tail)
    (hlen : lengthOf f s.expVal b1 b2 b3 = some total) (htot : total.toNat = (pre ++ be16 c).length)
    (hk : (if exceptionFlag b1 then b2 else 0) = status) :
    ReceivedWhole status c (pre ++ be16 c) s (burst (pre ++ be16 c) s) := by
  have hcovered : (pre ++ be16 c).take ((pre ++ be16 c).length - 2) = pre := by simp
  refine ⟨_, burst_frame hwf hr.phase hr.st hr.idx hr.clear hr.addr.symm (hr.fn.symm ▸ hf) hg (hr.fn.symm ▸ hlen) htot,
    afterFrame_received hwf, ?_⟩
  rw [hcovered]
  exact afterFrame_outcome hk

theorem functionMatches_fnByte (f : FnCode) : functionMatches (fnByte f) (fnByte f) = true :=
  beq_iff_eq.2 (fnByte_low f)

theorem functionMatches_exceptionByte (f : FnCode) : functionMatches (fnByte f ||| 0x80) (fnByte f) = true :=
  beq_iff_eq.2 (exceptionByte_low f)

theorem exceptionFlag_fnByte (f : FnCode) : exceptionFlag (fnByte f) = false := fnByte_bit7 f

theorem exceptionFlag_exceptionByte (f : FnCode) : exceptionFlag (fnByte f ||| 0x80) = true := exceptionByte_bit7 f

/-- A reply whose function byte is not flagged has status 0 (R125). -/
theorem status_fnByte (f : FnCode) (b2 : Byte) : (if exceptionFlag (fnByte f) then b2 else 0) = 0 := by
  rw [exceptionFlag_fnByte, if_neg Bool.false_ne_true]

/-! ### The length decided for each format -/

/-- A flagged function byte decides an exception's five bytes, whatever else is expected (R120). -/
theorem lengthOf_exception (f : FnCode) (ef : Byte) (ev : Val17) (b2 b3 : Byte) :
    lengthOf ef ev (fnByte f ||| 0x80) b2 b3 = some 5 :=
  if_pos (exceptionFlag_exceptionByte f)

/-- An echo of the expected register address decides eight bytes (R121). -/
theorem lengthOf_echo {f : FnCode} (hf : isRead f = false) (ev : Val17) :
    lengthOf (fnByte f) ev (fnByte f) (hi8 (ev.setWidth 16)) (lo8 (ev.setWidth 16)) = some 8 := by
  simp [lengthOf, exceptionFlag_fnByte, hf]

/-- A read reply's length field decides its length, by the width the expected value selects (R122). -/
theorem lengthOf_read {f : FnCode} (hf : isRead f = true) (ev : Val17) (b2 b3 : Byte) :
    lengthOf (fnByte f) ev (fnByte f) b2 b3 =
      some (if ev.toNat < 256 then b2.setWidth 17 + 5 else (word b2 b3).setWidth 17 + 6) := by
  simp only [lengthOf, exceptionFlag_fnByte, isWriteByte_fnByte, hf, Bool.not_true, Bool.false_eq_true, if_false,
    apply_ite some]

/-- The receiver's 17 bits hold a length of at most 16 bits and what the frame adds to it (R131). -/
theorem toNat_setWidth_add {w : Nat} (hw : w ≤ 16) (v : BitVec w) {k : Val17} (hk : k.toNat ≤ 65536) :
    (v.setWidth 17 + k).toNat = v.toNat + k.toNat := by
  have hv : v.toNat < 2 ^ 16 := v.isLt.trans_le (Nat.pow_le_pow_right (by decide) hw)
  rw [BitVec.toNat_add, BitVec.toNat_setWidth_of_le (by omega), Nat.mod_eq_of_lt (by omega)]

/-- The two bytes after the function byte of a read reply: a length field of two bytes, or one of one byte and the byte
after it, of the body or the trailer. The length decided from them is the whole frame's. -/
theorem readReply_header {f : FnCode} {fmt : LenFmt} {body : List Byte} {ev : Val17} (hf : isRead f = true)
    (hb : bodyFits fmt body = true) (hfmt : fmt = .len1 ↔ ev.toNat < 256) (c : Word) :
    ∃ b2 b3 tail total, lengthField fmt body.length ++ body ++ be16 c = b2 :: b3 :: tail ∧
      lengthOf (fnByte f) ev (fnByte f) b2 b3 = some total ∧
      total.toNat = (lengthField fmt body.length ++ body ++ be16 c).length + 2 := by
  have hlen := lengthOf_read hf ev
  cases fmt with
  | len1 =>
    obtain ⟨b3, tail, htail⟩ := List.exists_cons_of_ne_nil (l := body ++ be16 c) (by simp [be16])
    simp only [if_pos (hfmt.1 rfl)] at hlen
    refine ⟨_, b3, tail, _, congrArg (BitVec.ofNat 8 body.length :: ·) htail, hlen _ _, ?_⟩
    rw [toNat_setWidth_add (by decide) _ (by decide), toNat_ofNat_of_lt (of_decide_eq_true hb)]
    simp [lengthField]
  | len2 =>
    simp only [if_neg (mt hfmt.2 nofun)] at hlen
    refine ⟨_, _, body ++ be16 c, _, rfl, hlen _ _, ?_⟩
    rw [word_hi8_lo8, toNat_setWidth_add (by decide) _ (by decide), toNat_ofNat_of_lt (of_decide_eq_true hb)]
    simp [lengthField]; omega

/-! ### The three kinds of reply -/

theorem readReply_receivedWhole {f : FnCode} {fmt : LenFmt} {a : Byte} {body frame : List Byte} {c : Word} {i : Instr}
    {s : State} (hb : bodyFits fmt body = true) (hwf : Memory.wf s.buf = true)
    (hfmt : fmt = .len1 ↔ s.expVal.toNat < 256) (hi : readReplyInstr f fmt a body c = some i)
    (hr : ReadyFor a (fnByte f) s) (he : encode i = some frame) :
    ReceivedWhole 0 c frame s (exec i s) := by
  obtain ⟨hp, henc⟩ := encode_readReplyInstr hi
  obtain ⟨b2, b3, tail, total, hg, hlen, htot⟩ := readReply_header (isRead_of_readReplyInstr hi) hb hfmt c
  rw [exec_of_reply hp he]
  obtain rfl : readReplyFrame fmt a (fnByte f) body c = frame := Option.some.inj (henc.symm.trans he)
  exact burst_receivedWhole hwf hr (functionMatches_fnByte f) (congrArg (a :: fnByte f :: ·) hg) hlen htot
    (status_fnByte f b2)

theorem echoReply_receivedWhole {f : FnCode} {a : Byte} {x c : Word} {frame : List Byte} {i : Instr}
    {s : State} (hwf : Memory.wf s.buf = true)
    (hi : echoReplyInstr f a (s.expVal.setWidth 16) x c = some i) (hr : ReadyFor a (fnByte f) s)
    (he : encode i = some frame) : ReceivedWhole 0 c frame s (exec i s) := by
  obtain ⟨hp, henc⟩ := encode_echoReplyInstr hi
  rw [exec_of_reply hp he]
  obtain rfl : echoFrame a (fnByte f) _ x c = frame := Option.some.inj (henc.symm.trans he)
  exact burst_receivedWhole hwf hr (functionMatches_fnByte f) rfl (lengthOf_echo (isWrite_of_echoReplyInstr hi) _) rfl
    (status_fnByte f _)

theorem exception_receivedWhole {f : FnCode} {a code : Byte} {c : Word} {frame : List Byte} {s : State}
    (hwf : Memory.wf s.buf = true) (hr : ReadyFor a (fnByte f) s)
    (he : encode (exceptionInstr f a code c) = some frame) :
    ReceivedWhole code c frame s (exec (exceptionInstr f a code c) s) := by
  obtain ⟨hp, henc⟩ := encode_exceptionInstr f a code c
  rw [exec_of_reply hp he]
  obtain rfl : exceptionFrame a (fnByte f) code c = frame := Option.some.inj (henc.symm.trans he)
  exact burst_receivedWhole hwf hr (functionMatches_exceptionByte f) rfl (lengthOf_exception f _ _ _ _) rfl
    (if_pos (exceptionFlag_exceptionByte f))

/-- Settles O36: the length field of either width decides the length of the whole frame, and bit 7 is clear. -/
theorem readReplyCompletes : Obligations.ReadReplyCompletes := by
  intro fmt a body c s hb hwf hfmt
  have read : ∀ f i, readReplyInstr f fmt a body c = some i → ∀ frame, ReadyFor a (fnByte f) s →
      encode i = some frame → ReceivedWhole 0 c frame s (exec i s) := fun f i hi frame hr he =>
    readReply_receivedWhole hb hwf hfmt hi hr he
  simp only [List.forall_mem_cons]
  exact ⟨read .readCoils _ rfl, read .readDiscrete _ rfl, read .readHolding _ rfl, read .readInput _ rfl, nofun⟩

/-- Settles O37: the echoed register address is the one expected, so `DecideLength` decides eight bytes. -/
theorem echoReplyCompletes : Obligations.EchoReplyCompletes := by
  rintro a r x c s hwf rfl
  have echo : ∀ f i, echoReplyInstr f a (s.expVal.setWidth 16) x c = some i → ∀ frame, ReadyFor a (fnByte f) s →
      encode i = some frame → ReceivedWhole 0 c frame s (exec i s) := fun f i hi frame hr he =>
    echoReply_receivedWhole hwf hi hr he
  simp only [List.forall_mem_cons]
  exact ⟨echo .writeSingleCoil _ rfl, echo .writeSingleHolding _ rfl, echo .writeMultiCoils _ rfl,
    echo .writeMultiHolding _ rfl, nofun⟩

/-- Settles O39: bit 7 decides five bytes whatever is expected, and makes the code byte the status. -/
theorem exceptionReplyCompletes : Obligations.ExceptionReplyCompletes := by
  intro a code c s hwf
  have exc : ∀ f frame, ReadyFor a (fnByte f) s → encode (exceptionInstr f a code c) = some frame →
      ReceivedWhole code c frame s (exec (exceptionInstr f a code c) s) := fun f frame hr he =>
    exception_receivedWhole hwf hr he
  simp only [List.forall_mem_cons]
  exact ⟨exc .readCoils, exc .readDiscrete, exc .readHolding, exc .readInput, exc .writeSingleCoil,
    exc .writeSingleHolding, exc .writeMultiCoils, exc .writeMultiHolding, nofun⟩

/-- Settles O60: such a drive is accepted with its operands as the lines drive them, and its byte length is
`registersByteLen` of the registers latched. -/
theorem unevenMultiWriteTransmits : Obligations.UnevenMultiWriteTransmits := by
  intro s c rest hag hop harg hlen hne
  have hstep : step s = andThen (accept .writeMultiHolding c.dev c.reg (some c.arg) (some c.data)
      { s with agenda := rest, portArg := c.arg, portData := c.data }) runToPause := by
    rw [step_cons hag, stepMove_command,
      issueCommand_uneven ((decodePort_noValueList c).2 ⟨hop, harg, hlen, hne⟩)]
  refine ⟨fun ha hdev => ?_, fun ha hdev => ?_, fun ha => ?_⟩
  · exact ⟨_, hstep.trans (accept_runToPause ha ⟨hdev, nofun⟩)⟩
  · exact hstep.trans (accept_rejected ha fun h => Nat.not_le.2 hdev h.1)
  · obtain ⟨e, he⟩ := accept_refused (f := .writeMultiHolding) (a := c.dev) (r := c.reg) (arg := some c.arg)
      (data := some c.data) (s := { s with agenda := rest, portArg := c.arg, portData := c.data }) ha
    exact ⟨e, by rw [hstep, he, andThen_refused]⟩

/-- Settles O6: each frame is closed, and the kernel evaluates the decoder on it, the CRC of the three requests
included. -/
theorem specFramesDecode : Obligations.SpecFramesDecode := by
  refine ⟨?_, ?_, ?_, ?_, ?_, ?_, ?_⟩ <;> decide +kernel

end Sys2Proof.Machine
end

section
/-! The statements of 40_crc16.md: the CRC instructions run the register of R91 and R92, `Crc16` is the loop of R93, and
a frame's own trailer brings the register to zero (R97). -/

namespace Sys2Proof.Machine

/-! ### The shifts of `CRC_BYTE` -/

theorem crcShifts_eq_iterate (n : Nat) (r : Word) : crcShifts n r = crcShift^[n] r := by
  induction n generalizing r with
  | zero => rfl
  | succ n ih => exact ih (crcShift r)

theorem crcShift_of_bit0_clear {r : Word} (h : r.getLsbD 0 = false) : crcShift r = r >>> 1 := by
  rw [crcShift, h]
  rfl

/-- The exclusive-or of R92 acts only on a set bit 0, so shifting out clear bits is a plain shift. -/
theorem crcShifts_of_low_bits_clear {n : Nat} {r : Word} (h : ∀ i < n, r.getLsbD i = false) :
    crcShifts n r = r >>> n := by
  induction n generalizing r with
  | zero => simp [crcShifts]
  | succ n ih =>
    have hshift : ∀ i < n, (r >>> 1).getLsbD i = false := fun i hi => by
      simpa [Nat.add_comm] using h (i + 1) (by omega)
    calc crcShifts (n + 1) r = crcShifts n (r >>> 1) := by
          rw [crcShifts, crcShift_of_bit0_clear (h 0 (by omega))]
      _ = r >>> 1 >>> n := ih hshift
      _ = r >>> (n + 1) := by rw [← BitVec.shiftRight_add, Nat.add_comm]

/-! ### The residue -/

/-- A register's own low byte clears its low half before the shifts, so that its high byte is all they leave. -/
theorem crcStep_lo8 (r : Word) : crcStep r (lo8 r) = (hi8 r).setWidth 16 := by
  have hlow : ∀ i < 8, (r ^^^ (lo8 r).setWidth 16).getLsbD i = false := fun i hi => by
    simp [lo8, hi, show i < 16 by omega]
  rw [crcStep, crcShifts_of_low_bits_clear hlow]
  refine BitVec.eq_of_getLsbD_eq fun i hi => ?_
  by_cases h8 : i < 8
  · simp [lo8, hi8, hi, h8]
  · simp [lo8, hi8, hi, h8, BitVec.getLsbD_of_ge r (8 + i) (by omega)]

theorem crcStep_setWidth_self (b : Byte) : crcStep (b.setWidth 16) b = 0 := by
  rw [crcStep, BitVec.xor_self]
  rfl

theorem crcRaw_append (bs cs : List Byte) : crcRaw (bs ++ cs) = cs.foldl crcStep (crcRaw bs) :=
  List.foldl_append

theorem be16_crc16 (bs : List Byte) : be16 (crc16 bs) = [lo8 (crcRaw bs), hi8 (crcRaw bs)] :=
  be16_word _ _

/-- The residue of R97. -/
theorem crcRaw_append_trailer (bs : List Byte) : crcRaw (bs ++ be16 (crc16 bs)) = 0 :=
  calc crcRaw (bs ++ be16 (crc16 bs))
      = crcStep (crcStep (crcRaw bs) (lo8 (crcRaw bs))) (hi8 (crcRaw bs)) := by
        rw [crcRaw_append, be16_crc16, List.foldl_cons, List.foldl_cons, List.foldl_nil]
    _ = 0 := by rw [crcStep_lo8, crcStep_setWidth_self]

/-! ### The instructions -/

theorem exec_crcInit (s : State) : exec .crcInit s = .next (crcInitOp s) := rfl

theorem exec_crcByte (b : Byte) (s : State) : exec (.crcByte b) s = .next (crcByteOp b s) := rfl

theorem exec_crc16 (bs : List Byte) (s : State) :
    exec (.crc16 bs) s = .next { s with crc := crcRaw bs, retWord := crc16 bs } := by
  change execCrc16 bs s = _
  rw [execCrc16, crc16Op_eq]

/-- `CRC_BYTE` of every byte in order runs the loop of R93. -/
theorem foldl_exec_crcByte (bs : List Byte) (s : State) :
    bs.foldl (fun o b => andThen o (exec (.crcByte b))) (.next s) = .next (crcLoop bs s) := by
  induction bs generalizing s with
  | nil => rfl
  | cons b bs ih =>
    rw [List.foldl_cons, andThen_next, exec_crcByte, ih, crcLoop]

/-! ### The obligations -/

/-- Settles O3: the loop leaves the register at `raw(bs)`, and `Crc16` returns that value with its bytes swapped. -/
theorem crc16IsItsLoop : Obligations.Crc16IsItsLoop := by
  intro bs s
  refine ⟨{ s with crc := crcRaw bs }, ?_, rfl, exec_crc16 bs s⟩
  rw [exec_crcInit, foldl_exec_crcByte, crcLoop_eq]
  rfl

/-- Settles O4: the low byte of the trailer leaves the register's high byte alone, and the high byte cancels it. -/
theorem crcTrailerAndResidue : Obligations.CrcTrailerAndResidue := fun bs =>
  ⟨rfl, be16_crc16 bs, crcRaw_append_trailer bs⟩

/-- Settles O1, by the meaning of `CRC_INIT`. -/
theorem crcInitWritesAllOnes : Obligations.CrcInitWritesAllOnes := exec_crcInit

/-- Settles O2: the eight shifts are the eightfold iterate of `crcShift`. -/
theorem crcByteShiftsEightTimes : Obligations.CrcByteShiftsEightTimes := by
  intro b s
  rw [exec_crcByte, crcByteOp, crcStep, crcShifts_eq_iterate]
  rfl

end Sys2Proof.Machine
end

section
/-! PROOFS. `Build` as an instruction returns the frame of R100, and a single-write request fed back to the receiver is
the echo it awaits (R103), in a burst or byte by byte within the rolling timeout. -/

namespace Sys2Proof.Machine

open Safety

theorem exec_build (a f : Byte) (p : List Byte) (s : State) :
    exec (.build a f p) s = .next { s with crc := crcRaw (a :: f :: p), retBytes := buildFrame a f p } := by
  change execBuild a f p s = _
  rw [execBuild, buildOp_eq]

/-- Settles O5: the CRC register is left at `raw` of the covered bytes, and the returned frame is `buildFrame`'s. -/
theorem buildReturnsFrame : Obligations.BuildReturnsFrame := fun a f p s =>
  ⟨crcRaw (a :: f :: p), exec_build a f p s⟩

/-! ### Completion -/

/-- A frame delivered by completion (R125), with the moves `rest` still to come. -/
def CompletedWith (frame : List Byte) (rest : List Move) (t : State) : Prop :=
  t.rxSt = .complete ∧ Delivered 0 frame t ∧ t.agenda = rest

/-- A frame whose trailer is right ends the receiver in `Complete` (R124, R125). -/
theorem afterFrame_complete (total : Val17) (b1 b2 : Byte) (pre : List Byte) (s : State) :
    (afterFrame total b1 b2 pre (crc16 pre) s).rxSt = .complete := by
  simp only [afterFrame, if_true, finish_rxSt]

/-- A burst to a receiver with nothing waiting is the drain of its bytes. -/
theorem burst_eq_drain {s : State} (hin : s.inbound = []) (bs : List Byte) :
    burst bs s = drain bs.length { s with inbound := bs } := by
  simp only [burst, catchUp, deliver, rxAvail, hin, List.nil_append]

/-! ### The loopback law -/

section
variable {f : FnCode} {a : Byte} {r x : Word} {frame : List Byte} {rest : List Move} {s : State}
  (hf : isRead f = false) (hwf : Memory.wf s.buf = true) (hr : ReadyFor a (fnByte f) s)
  (hv : s.expVal = r.setWidth 17) (hframe : frame = buildFrame a (fnByte f) (be16 r ++ be16 x))
include hf hwf hr hv hframe

/-- A write's request is taken whole by a receiver that awaits the write's echo: it echoes its own register address. -/
theorem burst_request_completes :
    ∃ t, burst frame s = .next t ∧ t.inbound = [] ∧ CompletedWith frame s.agenda t := by
  subst hframe
  have hreg : s.expVal.setWidth 16 = r := by simp [hv]
  have hlen : lengthOf s.expFn s.expVal (fnByte f) (hi8 r) (lo8 r) = some 8 := by
    simpa only [hr.fn, hreg] using lengthOf_echo hf s.expVal
  have hfn : functionMatches (fnByte f) s.expFn = true := hr.fn.symm ▸ functionMatches_fnByte f
  have hrec := afterFrame_received (total := 8) (b1 := fnByte f) (b2 := hi8 r)
    (pre := a :: fnByte f :: (be16 r ++ be16 x)) (c := crc16 (a :: fnByte f :: (be16 r ++ be16 x))) hwf
  exact ⟨_, burst_frame hwf hr.phase hr.st hr.idx hr.clear hr.addr.symm hfn rfl hlen rfl, hrec.unread,
    afterFrame_complete .., (afterFrame_outcome (status_fnByte f _)).1 rfl, hrec.same.agenda⟩

/-- The request as one burst on the agenda (R103). -/
theorem step_loopback (hag : s.agenda = .frame frame :: rest) :
    ∃ t, step s = .next t ∧ CompletedWith frame rest t := by
  rw [step_cons hag, stepMove_frame]
  obtain ⟨t, ht, -, hc⟩ := burst_request_completes (s := { s with agenda := rest }) hf hwf { hr with } hv hframe
  exact ⟨t, ht, hc⟩

/-- The request byte by byte within the rolling timeout (R103, R115, R132): only the time differs from the burst. -/
theorem steps_paced_loopback {waits : List (List (Option Nat))} (hlen : waits.length = frame.length)
    (hc : s.rxLast = s.clock) (hw : ∀ w ∈ waits, (w.map (·.getD 0)).sum ≤ s.rxT)
    (hag : s.agenda = pacedArrival waits frame ++ rest) :
    ∃ t, steps (pacedArrival waits frame).length s = .next t ∧ CompletedWith frame rest t := by
  obtain ⟨t, ht, hin, hst, hd, -⟩ := burst_request_completes hf hwf hr hv hframe
  rw [burst_eq_drain hr.clear] at ht
  have hl : RxLive s := .inl ⟨hr.st, by simp [hr.idx]⟩
  have hne : frame ≠ [] := hframe ▸ List.cons_ne_nil _ _
  obtain ⟨c, hs⟩ := steps_paced hr.phase hl hr.clear hne hlen hc hw hag ht hin
  exact ⟨_, hs, hst, { hd with }, rfl⟩

end

/-- Settles O42: both functions are writes, and their request has the format of the echo. -/
theorem loopbackOfSingleWrite : Obligations.LoopbackOfSingleWrite := by
  intro a f r x frame rest s hf hwf hr hv hframe
  obtain ⟨g, hg, rfl⟩ : ∃ g, isRead g = false ∧ f = fnByte g := by
    rcases List.mem_pair.1 hf with rfl | rfl
    · exact ⟨.writeSingleCoil, rfl, rfl⟩
    · exact ⟨.writeSingleHolding, rfl, rfl⟩
  exact ⟨step_loopback hg hwf hr hv hframe, fun _ => steps_paced_loopback hg hwf hr hv hframe⟩

end Sys2Proof.Machine
end

section
/-! PROOFS. From a sound state no move faults, every result is local or a verified frame, and a timeout is delivered
only on a silent line. -/

namespace Sys2Proof.Machine

open Safety

/-! ### The engine's step, phase by phase -/

theorem engineStep_rest {s : State} (hm : HostMayMove s) : engineStep s = .next s := by
  rcases hm with hp | hp <;> simp only [engineStep, hp]

theorem engineStep_validate {s : State} (hp : s.phase = .validate) : engineStep s = validateStep s := by
  simp only [engineStep, hp]

theorem engineStep_flush {s : State} (hp : s.phase = .flush) : engineStep s = .next (flushStep s) := by
  simp only [engineStep, hp]

theorem engineStep_transmit {s : State} (hp : s.phase = .transmit) : engineStep s = transmitStep s := by
  simp only [engineStep, hp]

theorem engineStep_pause {s : State} (hp : s.phase = .pause) : engineStep s = pauseStep s := by
  simp only [engineStep, hp]

theorem engineStep_receive {s : State} (hp : s.phase = .receive) : engineStep s = poll s := by
  simp only [engineStep, hp]

/-! ### A sound engine always answers -/

theorem validateStep_answers {s : State} {f : FnCode} (hf : fnOfByte s.cmdOp = some f) :
    ∃ t, validateStep s = .next t := by
  by_cases ha : ValidAddress f s.cmdDev
  · exact ⟨_, validateStep_valid hf ha⟩
  · exact ⟨_, validateStep_invalid hf ha⟩

theorem pauseStep_answers {s : State} {f : FnCode} (hf : fnOfByte s.cmdOp = some f) :
    ∃ t, pauseStep s = .next t := by
  rcases Nat.lt_or_ge (s.clock - s.tTx) s.timeout with ht | ht
  · exact ⟨s, pauseStep_wait ht⟩
  · exact ⟨_, pauseStep_end hf ht⟩

theorem poll_answers {s : State} (hl : RxLive s) : ∃ t, poll s = .next t := by
  have hw : rxWaiting s = true := (rxWaiting_iff s).2 (hl.imp (·.1) (·.1))
  cases hin : s.inbound with
  | nil => exact ⟨_, poll_idle hw hin⟩
  | cons b rest =>
    obtain ⟨t, ht, -⟩ := takeByte_live (s := consumed rest s) b hl
    exact ⟨t, (poll_byte hw hin).trans ht⟩

theorem engineStep_answers {s : State} (h : Sound s) : ∃ t, engineStep s = .next t := by
  have hfn : s.phase ≠ .idle → s.phase ≠ .done → ∃ f, fnOfByte s.cmdOp = some f := fun hi hd =>
    (h.command ((inFlight_iff s).2 ⟨hi, hd⟩)).imp fun _ => And.left
  cases hp : s.phase with
  | idle => exact ⟨s, engineStep_rest (.inl hp)⟩
  | validate =>
    obtain ⟨f, hf⟩ := hfn (by simp [hp]) (by simp [hp])
    rw [engineStep_validate hp]
    exact validateStep_answers hf
  | flush => exact ⟨_, engineStep_flush hp⟩
  | transmit =>
    obtain ⟨f, hf⟩ := hfn (by simp [hp]) (by simp [hp])
    exact ⟨_, (engineStep_transmit hp).trans (transmitStep_eq hf)⟩
  | pause =>
    obtain ⟨f, hf⟩ := hfn (by simp [hp]) (by simp [hp])
    rw [engineStep_pause hp]
    exact pauseStep_answers hf
  | receive =>
    rw [engineStep_receive hp]
    exact poll_answers (h.receiver hp)
  | done => exact ⟨s, engineStep_rest (.inr hp)⟩

theorem engineRun_answers {n : Nat} {s : State} (h : Sound s) : ∃ t, engineRun n s = .next t := by
  induction n generalizing s with
  | zero => exact ⟨s, rfl⟩
  | succ n ih =>
    obtain ⟨u, hu⟩ := engineStep_answers h
    obtain ⟨t, ht⟩ := ih (engineMove_sound h (engineStep_next hu))
    exact ⟨t, by rw [engineRun, hu, andThen_next, ht]⟩

theorem burst_answers {s : State} (bs : List Byte) (h : Sound s) : ∃ t, burst bs s = .next t := by
  by_cases hp : s.phase = .receive
  · obtain ⟨t, ht, -⟩ := drain_live (s := deliver bs s) hp (h.receiver hp) (le_refl _)
    exact ⟨t, ht⟩
  · exact ⟨_, burst_waits hp⟩

/-- The issue of a command latches its operands or is refused. -/
theorem issueCommand_answers {c : PortCmd} {s : State} (ha : s.portArg = c.arg) (hd : s.portData = c.data) :
    (∃ t, issueCommand c s = .next t) ∨ ∃ e, issueCommand c s = .refused e := by
  by_cases hc : ∃ f, PortCarries f c
  · obtain ⟨f, hc⟩ := hc
    rw [issueCommand_carried hc ha hd]
    by_cases hacc : Accepting s
    · exact .inl ⟨_, accept_eq hacc⟩
    · exact .inr (accept_refused hacc)
  · cases hdec : decodePort c with
    | ok i => exact absurd (decodePort_ok_carries hdec) hc
    | error e =>
      refine .inr ⟨_, issueCommand_error hdec ?_ s⟩
      rintro rfl
      obtain ⟨hop, harg, hlen, -⟩ := (decodePort_noValueList c).1 hdec
      exact hc ⟨.writeMultiHolding, by rw [hop]; rfl, hlen, fun _ => harg⟩

/-- A move answers next or is refused, from a sound state. -/
theorem stepMove_answers {s : State} (m : Move) (h : Sound s) :
    (∃ t, stepMove m s = .next t) ∨ ∃ e, stepMove m s = .refused e := by
  cases m with
  | engine => exact .inl (engineStep_answers h)
  | tick n => exact .inl ⟨_, stepMove_tick n s⟩
  | byte b => exact .inl ⟨_, stepMove_byte b s⟩
  | frame bs => rw [stepMove_frame]; exact .inl (burst_answers bs h)
  | command c =>
    rw [stepMove_command]
    rcases issueCommand_answers (c := c) (s := { s with portArg := c.arg, portData := c.data }) rfl rfl
      with ⟨u, hu⟩ | ⟨e, he⟩
    · obtain ⟨f, hc, ha, rfl⟩ := issueCommand_latches rfl rfl hu
      rw [hu, andThen_next]
      exact .inl (engineRun_answers (issued_sound hc ha h))
    · exact .inr ⟨e, by rw [he, andThen_refused]⟩
  | issue c => exact issueCommand_answers rfl rfl
  | setTimeout n =>
    by_cases hm : HostMayMove s
    · exact .inl ⟨_, if_pos ((portReady_iff s).2 hm)⟩
    · exact .inr ⟨_, execSetTimeout_busy hm⟩
  | reset => exact .inl ⟨_, stepMove_reset s⟩

/-- Taking a move touches the agenda or the count of draws only. -/
theorem takeMove_sound {s : State} (h : Sound s) : Sound (takeMove s).2 := by
  unfold takeMove
  split <;> exact sound_agenda _ _ h

/-- Settles O56: a receiver within its bounds takes any byte, and everything else a move does answers next or is
refused. -/
theorem soundStatesNeverFault : Obligations.SoundStatesNeverFault := by
  refine fun s h => ⟨fun r hr => ?_, engineStep_answers h⟩
  rcases stepMove_answers (takeMove s).1 (takeMove_sound h) with ⟨t, ht⟩ | ⟨e, he⟩
  · cases ht.symm.trans hr
  · cases he.symm.trans hr

/-! ### What the last byte of a frame delivers -/

theorem memRead_drop (m : Memory) (i k n : Nat) : (memRead m i (k + n)).drop k = memRead m (i + k) n := by
  simp [memRead, List.range_add, Nat.add_assoc]

/-- A frame held in the buffer with a right trailer, and its status by its function byte (R125). -/
theorem frameResult_held {m : Memory} {n : Nat} (hn : 3 ≤ n)
    (hcrc : crc16 (memRead m 0 n) = word (Memory.read m n) (Memory.read m (n + 1))) :
    FrameResult (if exceptionFlag (Memory.read m 1) then Memory.read m 2 else 0) (memRead m 0 (n + 2)) := by
  have htrailer : (memRead m 0 (n + 2)).drop n = be16 (crc16 (memRead m 0 n)) := by
    rw [memRead_drop, hcrc, be16_word, Nat.zero_add]
    rfl
  refine ⟨by rw [memRead_length]; omega, ?_, ?_⟩
  · rw [memRead_length, Nat.add_sub_cancel, memRead_take, Nat.min_eq_left (Nat.le_add_right n 2), htrailer]
  · rw [memRead_getD _ _ _ _ _ (by omega), memRead_getD _ _ _ _ _ (by omega)]
    rfl

/-- What a verification of `total` bytes delivers (R124): a CRC error with no frame, or a frame of `total` bytes with a
right trailer and the status that its function byte gives. -/
def VerifiedOutcome (total : Nat) (t : State) : Prop :=
  t.phase = .done ∧ ((t.resStatus = 8 ∧ t.resFrame = []) ∨
    (2 ≤ total ∧ t.resFrame.length = total ∧ (5 ≤ total → FrameResult t.resStatus t.resFrame)))

theorem verify_outcome {s t : State} (h : verify s = .next t) : VerifiedOutcome s.rxTotal.toNat t := by
  rw [verify_eq] at h
  generalize htot : s.rxTotal.toNat = total at h ⊢
  split at h
  · next hm =>
    obtain ⟨n, rfl⟩ : ∃ n, total = n + 2 := ⟨total - 2, by omega⟩
    cases h
    split
    · next hcrc =>
      refine ⟨rfl, .inr ⟨hm.1, ?_, fun h5 => ?_⟩⟩
      · exact (memRead_length _ _ _).trans htot
      · rw [complete, finish_resStatus, finish_resFrame, htot]
        exact frameResult_held (by omega) hcrc
    · exact ⟨rfl, .inl ⟨rfl, rfl⟩⟩
  · cases h

/-- Taking a byte goes on in the same phase or ends a body with a verification. -/
theorem takeByte_outcome {b : Byte} {s t : State} (h : takeByte b s = .next t) :
    t.phase = s.phase ∨ (s.rxSt ≠ .awaitHeaderByte ∧ VerifiedOutcome s.rxTotal.toNat t) := by
  rcases takeByte_cases h with ⟨-, -, rfl⟩ | ⟨-, -, rfl⟩ | ⟨-, -, rfl⟩ | ⟨-, -, rfl⟩ | ⟨hst, -, hb⟩
  · exact .inl rfl
  · exact .inl rfl
  · exact .inl rfl
  · exact .inl (decideLength_live _).2.1
  · rcases hb with ⟨-, rfl⟩ | ⟨-, hv⟩
    · exact .inl rfl
    · exact .inr ⟨hst, verify_outcome (s := storeBody b s) hv⟩

/-- A poll in RECEIVE that comes to DONE found the line silent for more than `T`, or took the last byte of a frame. -/
theorem poll_done {s t : State} (hp : s.phase = .receive) (h : poll s = .next t) (hd : t.phase = .done) :
    (s.inbound = [] ∧ s.rxT < s.clock - s.rxLast ∧ t = timedOut s) ∨
      (s.rxSt ≠ .awaitHeaderByte ∧ VerifiedOutcome s.rxTotal.toNat t) := by
  by_cases hw : rxWaiting s = true
  · cases hin : s.inbound with
    | nil =>
      rw [poll_idle hw hin, timeoutTest] at h
      split at h
      · next hT => cases h; exact .inl ⟨rfl, hT, rfl⟩
      · cases h; rw [hp] at hd; cases hd
    | cons b rest =>
      rw [poll_byte hw hin] at h
      rcases takeByte_outcome h with hsame | hout
      · rw [hsame, show (consumed rest s).phase = .receive from hp] at hd
        cases hd
      · exact .inr hout
  · rw [poll_terminal (by simpa using hw)] at h
    cases h
    rw [hp] at hd
    cases hd

/-- Bytes polled as they come end in DONE only by the last byte of a frame. -/
theorem drain_done {n : Nat} {s t : State} (hp : s.phase = .receive) (h : drain n s = .next t) (hd : t.phase = .done) :
    ∃ u, (RxLive s → RxLive u) ∧ u.rxSt ≠ .awaitHeaderByte ∧ VerifiedOutcome u.rxTotal.toNat t := by
  induction n generalizing s with
  | zero => cases h; rw [hp] at hd; cases hd
  | succ n ih =>
    unfold drain at h
    split at h
    · next hc =>
      obtain ⟨-, hw, hav⟩ := hc
      obtain ⟨b, rest, hin⟩ := List.exists_cons_of_length_pos hav
      rw [poll_byte hw hin] at h
      obtain ⟨u, hu, h⟩ := andThen_eq_next h
      rcases takeByte_outcome hu with hsame | hout
      · have hup : u.phase = .receive := hsame.trans hp
        obtain ⟨v, hlive, hv⟩ := ih hup h
        refine ⟨v, fun hl => hlive ?_, hv⟩
        obtain ⟨u', hu', -, ⟨-, -, hul⟩ | ⟨hud, -⟩⟩ := takeByte_live (s := consumed rest s) b hl
        · cases hu.symm.trans hu'
          exact hul
        · cases hu.symm.trans hu'
          rw [hup] at hud
          cases hud
      · rw [drain_stop (by rw [hout.2.1]; decide)] at h
        cases h
        exact ⟨s, id, hout⟩
    · cases h; rw [hp] at hd; cases hd

/-! ### Results -/

/-- A result of one of the two kinds a host can tell apart (R217). -/
def LocalOrFramed (t : State) : Prop := LocalResult t.resStatus t.resFrame ∨ FrameResult t.resStatus t.resFrame

/-- A live receiver's body is at least five bytes long (R131), so its verification gives one of the two kinds. -/
theorem verified_localOrFramed {s t : State} (hl : RxLive s) (hst : s.rxSt ≠ .awaitHeaderByte)
    (h : VerifiedOutcome s.rxTotal.toNat t) : LocalOrFramed t := by
  rcases hl with ⟨h0, -⟩ | ⟨-, -, -, h5, -⟩
  · exact absurd h0 hst
  · rcases h.2 with ⟨h8, hf⟩ | ⟨-, -, hframe⟩
    · exact .inl ⟨hf, .inl h8⟩
    · exact .inr (hframe h5)

/-- From `s` to `t` the result in DONE is the one held, or a new one of the two kinds. -/
def KeepsOrDelivers (s t : State) : Prop :=
  t.phase = .done → (s.phase = .done ∧ t.resStatus = s.resStatus ∧ t.resFrame = s.resFrame) ∨ LocalOrFramed t

theorem keepsOrDelivers_same {s t : State} (hp : t.phase = s.phase) (hs : t.resStatus = s.resStatus)
    (hf : t.resFrame = s.resFrame) : KeepsOrDelivers s t := fun hd => .inl ⟨hp.symm.trans hd, hs, hf⟩

theorem engineMove_result {s t : State} (h : Sound s) (hm : EngineMove s t) : KeepsOrDelivers s t := by
  cases hm with
  | rest | wait => exact keepsOrDelivers_same rfl rfl rfl
  | pass | flush | transmit | listen => exact nofun
  | reject => exact fun _ => .inr (.inl ⟨rfl, .inr (.inr rfl)⟩)
  | poll hp hpoll =>
    intro hd
    rcases poll_done hp hpoll hd with ⟨-, -, rfl⟩ | ⟨hst, hout⟩
    · exact .inr (.inl ⟨rfl, .inr (.inl rfl)⟩)
    · exact .inr (verified_localOrFramed (h.receiver hp) hst hout)

theorem burst_result {bs : List Byte} {s t : State} (h : Sound s) (hb : burst bs s = .next t) :
    KeepsOrDelivers s t := by
  by_cases hp : s.phase = .receive
  · intro hd
    obtain ⟨u, hlive, hst, hout⟩ := drain_done (s := deliver bs s) hp hb hd
    exact .inr (verified_localOrFramed (hlive (h.receiver hp)) hst hout)
  · rw [burst_waits hp] at hb
    cases hb
    exact keepsOrDelivers_same rfl rfl rfl

/-- A command's move ends waiting for its pause or with `AddressError`. -/
theorem command_result {f : FnCode} {c : PortCmd} {s t : State} (h : engineRun 3 (issued f c s) = .next t) :
    KeepsOrDelivers s t := by
  by_cases haddr : ValidAddress f c.dev
  · cases (runToPause_valid haddr).symm.trans h
    exact nofun
  · cases (runToPause_invalid haddr).symm.trans h
    exact fun _ => .inr (.inl ⟨rfl, .inr (.inr rfl)⟩)

theorem agentMove_result {s t : State} (h : Sound s) (hm : AgentMove s t) : KeepsOrDelivers s t := by
  cases hm with
  | engine hm => exact engineMove_result h hm
  | burst hb => exact burst_result h hb
  | command _ _ hr => exact command_result hr
  | tick | arrive | setTimeout => exact keepsOrDelivers_same rfl rfl rfl
  | issue | reset => exact nofun

/-- A step is a move of one agent, with the agenda or the count of draws taken on. -/
theorem step_agentMove {s t : State} (h : step s = .next t) :
    ∃ g n, AgentMove { s with agenda := g, draws := n } t := by
  obtain ⟨m, u, hmove, hu⟩ := step_move h
  exact ⟨u.agenda, u.draws, hu ▸ stepMove_next hmove⟩

/-- Settles O58: of the agents' moves only the address test, the timeout test and a verification write a result. -/
theorem resultsAreLocalOrFramed : Obligations.ResultsAreLocalOrFramed := by
  intro s t h hstep
  obtain ⟨g, n, hm⟩ := step_agentMove hstep
  have hres := agentMove_result (sound_agenda g n h) hm
  exact hres

/-! ### Timeouts -/

/-- A verification that delivers no frame delivers a CRC error. -/
theorem verified_status {total : Nat} {t : State} (h : VerifiedOutcome total t) (hf : t.resFrame = []) :
    t.resStatus = 8 := by
  rcases h.2 with ⟨h8, -⟩ | ⟨h2, hlen, -⟩
  · exact h8
  · rw [hf, List.length_nil] at hlen
    omega

/-- A move from RECEIVE to DONE that is no verification is a poll of a line silent for more than `T`. -/
theorem agentMove_timedOut {s t : State} (hp : s.phase = .receive) (hm : AgentMove s t) (hd : t.phase = .done)
    (hnot : ∀ total, ¬ VerifiedOutcome total t) :
    s.inbound = [] ∧ s.rxT < s.clock - s.rxLast ∧ t = timedOut s := by
  have hflight : InFlight s := by simp [inFlight_iff, hp]
  cases hm with
  | engine hm =>
    cases hm with
    | poll _ hpoll => exact (poll_done hp hpoll hd).resolve_right fun hv => hnot _ hv.2
    | rest hm => exact absurd hm hflight
    | pass hp' | reject hp' | flush hp' | transmit hp' | wait hp' | listen hp' => cases hp.symm.trans hp'
  | burst hb =>
    obtain ⟨u, -, -, hv⟩ := drain_done (s := deliver _ s) hp hb hd
    exact absurd hv (hnot _)
  | issue _ ha | command _ ha => exact absurd ha.1 hflight
  | setTimeout _ hm => exact absurd hm hflight
  | tick | arrive => cases hp.symm.trans hd
  | reset => cases hd

/-- Settles O34: in RECEIVE a result with no frame that is not a CRC error is the timeout test's. -/
theorem noTimeoutWithoutSilence : Obligations.NoTimeoutWithoutSilence := by
  intro s t hp hstep hd h9 hf
  have hnot : ∀ total, ¬ VerifiedOutcome total t := fun total hv => by
    cases h9.symm.trans (verified_status hv hf)
  obtain ⟨g, n, hm⟩ := step_agentMove hstep
  obtain ⟨hin, hT, rfl⟩ := agentMove_timedOut (s := { s with agenda := g, draws := n }) hp hm hd hnot
  exact ⟨hin, hT, rfl⟩

end Sys2Proof.Machine
end

section
/-! PROOFS. The receiver's start and its polls, one by one (R113 to R128): what the engine's step does in each state of
the receiver, with its frame. -/

namespace Sys2Proof.Machine

open Safety

/-! ### The start -/

theorem exists_fnOfByte {b : Byte} (h : b ∈ functionBytes) : ∃ f, fnOfByte b = some f := by
  rw [← Option.isSome_iff_exists, fnOfByte_isSome]
  exact List.contains_iff_mem.2 h

/-- A coil read expects one byte (R150, R151). -/
theorem expectOf_coilRead {f : FnCode} (s : State) (h : fnByte f ∈ ([0x01, 0x02] : List Byte)) :
    expectOf f s = 1 := by
  cases f with
  | readCoils | readDiscrete => rfl
  | _ => exact absurd h (by decide)

/-- A register read expects two bytes a register (R152, R153), which 17 bits hold. -/
theorem expectOf_registerRead {f : FnCode} (s : State) (h : fnByte f ∈ ([0x03, 0x04] : List Byte)) :
    (expectOf f s).toNat = 2 * s.cmdArg.toNat := by
  have htwice : (s.cmdArg.setWidth 17 * 2 : Val17).toNat = 2 * s.cmdArg.toNat := by
    have hlt := s.cmdArg.isLt
    rw [BitVec.toNat_mul, BitVec.toNat_setWidth_of_le (by decide), Nat.mul_comm]
    exact Nat.mod_eq_of_lt (by change 2 * _ < _; omega)
  cases f with
  | readHolding | readInput => exact htwice
  | _ => exact absurd h (by decide)

/-- A write expects its register address back (R154 to R157). -/
theorem expectOf_write {f : FnCode} (s : State) (h : fnByte f ∈ ([0x05, 0x06, 0x0F, 0x10] : List Byte)) :
    expectOf f s = s.cmdReg.setWidth 17 := by
  cases f with
  | writeSingleCoil | writeSingleHolding | writeMultiCoils | writeMultiHolding => rfl
  | _ => exact absurd h (by decide)

/-- Settles O24: the sample that ends the pause starts the receiver with the inputs of the operation held. -/
theorem pauseEndsAtTimeout : Obligations.PauseEndsAtTimeout := by
  intro s hp hop
  obtain ⟨f, hf⟩ := exists_fnOfByte hop
  rw [engineStep_pause hp]
  refine ⟨pauseStep_wait, fun ht => ⟨expectOf f s, pauseStep_end hf ht, ?_⟩⟩
  rw [fnByte_of_fnOfByte hf]
  refine ⟨expectOf_coilRead s, expectOf_registerRead s, fun hw => ?_⟩
  rw [expectOf_write s hw, BitVec.toNat_setWidth_of_le (by decide)]

theorem catchUp_silent {s : State} (hin : s.inbound = []) : catchUp s = .next s := by
  rw [catchUp, rxAvail, hin]
  rfl

/-- Settles O25: with nothing on the line the start is all that `Receive` does. -/
theorem receiveStarts : Obligations.ReceiveStarts := by
  intro ea ef ev T s
  refine ⟨fun hef hin => ?_, fun hef => ?_⟩
  · exact (execReceive_eq hef ea ev T s).trans (catchUp_silent hin)
  · have hnone : fnOfByte ef = none := by
      rw [← Option.not_isSome_iff_eq_none, fnOfByte_isSome]
      exact mt List.contains_iff_mem.1 hef
    change execReceive ea ef ev T s = _
    simp only [execReceive, hnone]

/-! ### Polls that take no byte -/

theorem engineStep_timesOut {s : State} (hp : Polling s) (hin : s.inbound = []) (h : s.rxT < s.clock - s.rxLast) :
    engineStep s = .next (timedOut s) := by
  rw [engineStep_receive hp.1, poll_idle ((rxWaiting_iff s).2 hp.2) hin]
  exact congrArg Host.Outcome.next (if_pos h)

/-- Settles O28: the timeout test is strict. -/
theorem idlePollTestsTimeout : Obligations.IdlePollTestsTimeout :=
  fun _ hp hin => ⟨engineStep_waits hp hin, engineStep_timesOut hp hin⟩

/-- Settles O33: in a terminal state no poll runs, and in IDLE and DONE the engine waits for the host. -/
theorem terminalReceiverIsFinal : Obligations.TerminalReceiverIsFinal := by
  refine fun s => ⟨fun hp hst => ?_, engineStep_rest⟩
  rcases hp with hp | hp
  · rw [engineStep_receive hp]
    refine poll_terminal (Bool.not_eq_true _ ▸ mt (rxWaiting_iff s).1 ?_)
    rcases hst with h | h | h <;> simp [h]
  · exact engineStep_rest (.inr hp)

/-! ### Header bytes -/

/-- Settles O29, by the three header steps. -/
theorem headerBytesAreSought : Obligations.HeaderBytesAreSought := by
  intro b rest s hp hst hin
  rw [engineStep_takes ⟨hp, .inl hst⟩ hin]
  refine ⟨takeByte_header0 (s := consumed rest s) hst, fun h => ?_, takeByte_header2 (s := consumed rest s) hst⟩
  rw [takeByte_header1 (s := consumed rest s) hst h]
  simp only [headerStep1, functionMatches, beq_iff_eq]
  rfl

/-- The write functions as bytes (R62, R121). -/
theorem isWriteByte_iff (b : Byte) : isWriteByte b = true ↔ b ∈ ([0x05, 0x06, 0x0F, 0x10] : List Byte) := by
  revert b; decide

theorem lengthOf_flagged {b1 : Byte} (h : exceptionFlag b1 = true) (ef b2 b3 : Byte) (ev : Val17) :
    lengthOf ef ev b1 b2 b3 = some 5 := if_pos h

theorem lengthOf_write {ef b1 : Byte} (h : exceptionFlag b1 = false) (hw : isWriteByte ef = true) (b2 b3 : Byte)
    (ev : Val17) : lengthOf ef ev b1 b2 b3 = if word b2 b3 = ev.setWidth 16 then some 8 else none := by
  simp [lengthOf, h, hw]

theorem lengthOf_unflaggedRead {ef b1 : Byte} (h : exceptionFlag b1 = false) (hw : isWriteByte ef = false)
    (b2 b3 : Byte) (ev : Val17) :
    lengthOf ef ev b1 b2 b3 = some (if ev.toNat < 256 then b2.setWidth 17 + 5 else (word b2 b3).setWidth 17 + 6) := by
  simp only [lengthOf, h, hw, Bool.false_eq_true, if_false, apply_ite some]

/-- The receiver with the fourth header byte taken, before `DecideLength` (R119). -/
def fourHeld (b : Byte) (rest : List Byte) (s : State) : State :=
  { s with inbound := rest, rxLast := s.clock, buf := Memory.write s.buf 3 b, rxIdx := 4 }

section
variable {b : Byte} {rest : List Byte} {s : State} (hp : s.phase = .receive) (hst : s.rxSt = .awaitHeaderByte)
  (hidx : s.rxIdx = 3) (hin : s.inbound = b :: rest)
include hp hst hidx hin

theorem engineStep_fourth : engineStep s = .next (decideLength (fourHeld b rest s)) :=
  (engineStep_takes ⟨hp, .inl hst⟩ hin).trans (takeByte_header3 (s := consumed rest s) hst hidx)

variable (hwf : Memory.wf s.buf = true)
include hwf

/-- A decided length is waited for. -/
theorem engineStep_fourth_decided {total : Val17}
    (hlen : lengthOf s.expFn s.expVal (Memory.read s.buf 1) (Memory.read s.buf 2) b = some total) :
    engineStep s = .next (awaitBodyOf total (fourHeld b rest s)) := by
  rw [engineStep_fourth hp hst hidx hin, decideLength_eq, fourHeld, Memory.read_write_other (by decide),
    Memory.read_write_other (by decide), Memory.read_write_same b hwf, hlen]

/-- An undecided length is a resynchronisation. -/
theorem engineStep_fourth_undecided
    (hlen : lengthOf s.expFn s.expVal (Memory.read s.buf 1) (Memory.read s.buf 2) b = none) :
    engineStep s = .next { fourHeld b rest s with rxIdx := 0 } := by
  rw [engineStep_fourth hp hst hidx hin, decideLength_eq, fourHeld, Memory.read_write_other (by decide),
    Memory.read_write_other (by decide), Memory.read_write_same b hwf, hlen, ← hst]

end

/-- Settles O30: the three branches of `DecideLength`, in their order. -/
theorem fourthByteDecidesLength : Obligations.FourthByteDecidesLength := by
  intro b rest s hp hst hidx hin hwf h hh
  obtain rfl : h = fourHeld b rest s := hh
  have decided := fun total => engineStep_fourth_decided (total := total) hp hst hidx hin hwf
  refine ⟨fun hflag => decided 5 (lengthOf_flagged hflag ..), fun hflag hw => ?_, fun hflag hr => ?_⟩
  · have hlen := lengthOf_write hflag ((isWriteByte_iff _).2 hw) (Memory.read s.buf 2) b s.expVal
    refine ⟨fun hne => ?_, fun heq => decided 8 (hlen.trans (if_pos heq))⟩
    exact engineStep_fourth_undecided hp hst hidx hin hwf (hlen.trans (if_neg hne))
  · have hlen := lengthOf_unflaggedRead hflag (Bool.not_eq_true _ ▸ mt (isWriteByte_iff _).1 hr)
      (Memory.read s.buf 2) b s.expVal
    have h4 : 4 ≤ _ := Nat.le_of_succ_le (lengthOf_bounds hlen).1
    refine ⟨_, _, decided _ hlen, ?_, fun hv => ?_, fun hv => ?_⟩
    · rw [toNat_sub_four h4, Nat.sub_add_cancel h4]
    · rw [if_pos hv, toNat_setWidth_add (by decide) _ (by decide)]
      rfl
    · rw [if_neg (Nat.not_lt.2 hv), toNat_setWidth_add (by decide) _ (by decide)]
      rfl

/-! ### Body bytes -/

/-- The receiver with a body byte stored at `rx.total - rx.rem` and counted (R123). -/
def bodyHeld (b : Byte) (rest : List Byte) (s : State) : State :=
  { s with
    inbound := rest, rxLast := s.clock
    buf := Memory.write s.buf (s.rxTotal.toNat - s.rxRem.toNat) b, rxRem := s.rxRem - 1 }

theorem engineStep_body {b : Byte} {rest : List Byte} {s : State} (hp : s.phase = .receive) (hst : s.rxSt = .awaitBody)
    (hin : s.inbound = b :: rest) (h1 : 1 ≤ s.rxRem.toNat) (hrem : s.rxRem.toNat ≤ s.rxTotal.toNat)
    (hmax : s.rxTotal.toNat ≤ 65541) : engineStep s = afterBodyByte (bodyHeld b rest s) := by
  have hidx : bodyIndex (consumed rest s) = s.rxTotal.toNat - s.rxRem.toNat := toNat_body_index hrem
  rw [engineStep_takes ⟨hp, .inr hst⟩ hin, takeByte_body (s := consumed rest s) hst (by rw [hidx]; omega), bodyHeld,
    ← hidx]
  rfl

/-- Settles O31: with more than one byte to come nothing is verified yet. -/
theorem bodyByteStored : Obligations.BodyByteStored := by
  intro b rest s hp hst hin h2 hrem hmax
  have hmore : s.rxRem - 1 ≠ 0 := by
    rw [Ne, eq_zero_iff_toNat, toNat_pred (by omega)]
    omega
  rw [engineStep_body hp hst hin (by omega) (by omega) hmax]
  exact if_neg hmore

theorem memRead_write_last {m : Memory} (hwf : Memory.wf m = true) (n : Nat) (b : Byte) :
    memRead (Memory.write m n b) 0 (n + 1) = memRead m 0 n ++ [b] := by
  rw [memRead_succ, memRead_write_outside (by omega), Nat.zero_add, Memory.read_write_same b hwf]

/-- Verification in terms of the frame held (R124, R125, R127). -/
theorem verify_frame {s : State} {frame : List Byte} (hframe : memRead s.buf 0 s.rxTotal.toNat = frame)
    (h3 : 3 ≤ s.rxTotal.toNat) (hmax : s.rxTotal.toNat ≤ 65541) :
    verify s = .next
      (if crc16 (frame.take (frame.length - 2)) =
          word (frame.getD (frame.length - 2) 0) (frame.getD (frame.length - 1) 0) then
        finish (if (frame.getD 1 0).getLsbD 7 then frame.getD 2 0 else 0) frame
          { s with crc := crcRaw (frame.take (frame.length - 2)), rxSt := .complete }
      else
        finish 8 [] { s with crc := crcRaw (frame.take (frame.length - 2)), rxSt := .crcMismatch }) := by
  have hread : ∀ k, k < s.rxTotal.toNat → Memory.read s.buf k = frame.getD k 0 := fun k hk => by
    rw [← hframe, memRead_getD _ _ _ _ _ hk, Nat.zero_add]
  have hlen : s.rxTotal.toNat = frame.length := by rw [← hframe, memRead_length]
  have htake : memRead s.buf 0 (s.rxTotal.toNat - 2) = frame.take (frame.length - 2) := by
    rw [← hframe, memRead_take, memRead_length, Nat.min_eq_left (Nat.sub_le _ 2)]
  rw [verify_eq, if_pos ⟨by omega, hmax⟩, htake, hread _ (by omega), hread _ (by omega), hlen]
  simp only [complete, heldExceptionFlag, exceptionFlag, hread 1 (by omega), hread 2 (by omega), hframe]
  rfl

/-- Settles O32: the last byte completes the frame held, and its verification is the same step's. -/
theorem lastBodyByteVerifies : Obligations.LastBodyByteVerifies := by
  intro b rest frame s hp hst hin hrem h5 hmax hwf hframe
  have hone : s.rxRem.toNat = 1 := by rw [hrem]; rfl
  have hbody : bodyHeld b rest s =
      { s with
        inbound := rest, rxLast := s.clock, buf := Memory.write s.buf (s.rxTotal.toNat - 1) b, rxRem := 0 } := by
    rw [bodyHeld, hone, hrem]
    rfl
  have hheld : memRead (bodyHeld b rest s).buf 0 s.rxTotal.toNat = frame := by
    rw [hbody, hframe, ← memRead_write_last hwf, Nat.sub_add_cancel (by omega)]
  have hlast : (bodyHeld b rest s).rxRem = 0 := by rw [hbody]
  have hstep := engineStep_body hp hst hin (by omega) (by omega) hmax
  rw [afterBodyByte, if_pos hlast, verify_frame (s := bodyHeld b rest s) hheld (Nat.le_of_add_left_le h5) hmax,
    hbody] at hstep
  refine ⟨crcRaw (frame.take (frame.length - 2)), ?_⟩
  rintro h rfl
  refine ⟨fun hcrc => ?_, fun hcrc => ?_⟩
  · rw [hstep, if_pos hcrc]
    rfl
  · rw [hstep, if_neg hcrc]
    rfl

end Sys2Proof.Machine
end

section
/-! PROOFS. What a reply leads to in any state of a live receiver: it is taken byte by byte, a wrong echo is scanned on,
and a stray byte before the reply is passed over (R114, R121, R130). -/

namespace Sys2Proof.Machine

open Safety

/-! ### The two classes of function bytes -/

theorem fnByte_of_readByte {b : Byte} (h : b ∈ ([0x01, 0x02, 0x03, 0x04] : List Byte)) :
    ∃ f, isRead f = true ∧ b = fnByte f := by
  obtain ⟨f, hf⟩ := exists_fnOfByte (List.mem_append_left [0x05, 0x06, 0x0F, 0x10] h)
  obtain rfl := fnByte_of_fnOfByte hf
  exact ⟨f, isRead_of_fnByte h, rfl⟩

theorem fnByte_of_writeByte {b : Byte} (h : b ∈ ([0x05, 0x06, 0x0F, 0x10] : List Byte)) :
    ∃ f, isRead f = false ∧ b = fnByte f := by
  obtain ⟨f, hf⟩ := exists_fnOfByte (List.mem_append_right [0x01, 0x02, 0x03, 0x04] h)
  obtain rfl := fnByte_of_fnOfByte hf
  have hw := (isWriteByte_iff _).2 h
  rw [isWriteByte_fnByte, Bool.not_eq_true'] at hw
  exact ⟨f, hw, rfl⟩

/-! ### Any reply -/

/-- Settles O41: a reply is a burst of its frame, and draining a live receiver answers next. -/
theorem repliesAlwaysAnswer : Obligations.RepliesAlwaysAnswer := by
  intro i frame s hp hl hport he
  have hlive : RxLive (deliver frame s) := hl
  obtain ⟨t, ht, hcase⟩ := drain_live (s := deliver frame s) hp hlive (le_refl _)
  obtain ⟨taken, htaken, hbuf⟩ := drain_taken hlive ht
  exact ⟨t, taken, (exec_of_reply hport he s).trans ht, burst_same (s := s) ht, htaken, hcase, hbuf⟩

/-! ### An echo of another register address -/

theorem read_memWrite_same {m : Memory} (hwf : Memory.wf m = true) {bs : List Byte} {k : Nat} (hk : k < bs.length) :
    Memory.read (memWrite m 0 bs) k = bs.getD k 0 := by
  have h := memRead_getD (memWrite m 0 bs) 0 bs.length k 0 hk
  rwa [memRead_memWrite hwf, Nat.zero_add, eq_comm] at h

/-- The receiver with its four header bytes held, before `DecideLength`, and `rest` still unread (R119). -/
def headerHeld (header rest : List Byte) (s : State) : State :=
  { s with inbound := rest, rxLast := s.clock, rxIdx := 4, buf := memWrite s.buf 0 header }

/-- The receiver awaits an address again, with `rest` still to be scanned (R121). -/
def resynchronised (header rest : List Byte) (s : State) : State :=
  { headerHeld header rest s with rxIdx := 0, rxSt := .awaitHeaderByte }

theorem decideLength_resynchronises {b0 b1 b2 b3 : Byte} {rest : List Byte} {s : State}
    (hwf : Memory.wf s.buf = true) (hlen : lengthOf s.expFn s.expVal b1 b2 b3 = none) :
    decideLength (headerHeld [b0, b1, b2, b3] rest s) = resynchronised [b0, b1, b2, b3] rest s := by
  have hread : ∀ k < 4, Memory.read (headerHeld [b0, b1, b2, b3] rest s).buf k = [b0, b1, b2, b3].getD k 0 :=
    fun k hk => read_memWrite_same hwf hk
  generalize hu : headerHeld [b0, b1, b2, b3] rest s = u at hread
  have hnone : lengthOf u.expFn u.expVal (Memory.read u.buf 1) (Memory.read u.buf 2) (Memory.read u.buf 3) = none := by
    rw [hread 1 (by decide), hread 2 (by decide), hread 3 (by decide), ← hu]
    exact hlen
  rw [decideLength_eq, hnone, ← hu]
  rfl

/-- A write echo of a register address other than the one expected is a resynchronisation at its fourth byte (R121). -/
theorem burst_wrongEcho {f : FnCode} {a : Byte} {r x c : Word} {s : State} (hf : isRead f = false)
    (hwf : Memory.wf s.buf = true) (hr : ReadyFor a (fnByte f) s) (hne : r ≠ s.expVal.setWidth 16) :
    burst (echoFrame a (fnByte f) r x c) s =
      drain 4 (resynchronised [a, fnByte f, hi8 r, lo8 r] (be16 x ++ be16 c) s) := by
  have hlen : lengthOf s.expFn s.expVal (fnByte f) (hi8 r) (lo8 r) = none := by
    rw [hr.fn, lengthOf_write (exceptionFlag_fnByte f) (by rw [isWriteByte_fnByte, hf]; rfl), word_hi8_lo8, if_neg hne]
  rw [burst_eq_drain hr.clear, ← decideLength_resynchronises hwf hlen]
  exact drain_header (s := { s with inbound := echoFrame a (fnByte f) r x c }) hr.phase hr.st hr.idx hr.addr.symm
    (hr.fn.symm ▸ functionMatches_fnByte f) rfl (by simp [echoFrame])

/-- A burst after which the receiver still listens: no result, the line read out, and nothing changed outside the
receiver or at index 4 of the buffer and beyond. -/
def KeepsListening (s : State) (o : StepResult) : Prop :=
  ∃ t, o = .next t ∧ SameOutsideReceiver s t ∧ t.phase = .receive ∧ RxLive t ∧ t.inbound = [] ∧
    t.rxLast = s.clock ∧ t.resValid = s.resValid ∧ t.resStatus = s.resStatus ∧ t.resFrame = s.resFrame ∧
    ∀ j, 4 ≤ j → Memory.read t.buf j = Memory.read s.buf j

/-- Four bytes are too few for a frame, so a receiver that scans them after a header goes on listening. -/
theorem resynchronised_keepsListening {header rest : List Byte} {s : State} (hp : s.phase = .receive)
    (hheader : header.length ≤ 4) (hrest : rest.length ≤ 4) :
    KeepsListening s (drain 4 (resynchronised header rest s)) := by
  have hlive : RxLive (resynchronised header rest s) := .inl ⟨rfl, Nat.zero_le _⟩
  have hheld : bytesHeld (resynchronised header rest s) = 0 := rfl
  have hin : (resynchronised header rest s).inbound = rest := rfl
  obtain ⟨t, ht, hphase, hl, hunread, hlast, hvalid, hstatus, hframe⟩ :=
    drain_short (s := resynchronised header rest s) hp hlive hrest (by rw [hheld, hin]; omega) rfl
  obtain ⟨taken, htaken, hbuf⟩ := drain_taken hlive ht
  have hsame : SameOutsideReceiver s (resynchronised header rest s) := by constructor <;> rfl
  refine ⟨t, ht, sameOutside_trans hsame (drain_same ht), hphase, hl, hunread, hlast, hvalid, hstatus, hframe,
    fun j hj => ?_⟩
  rw [hunread, List.append_nil, hin] at htaken
  subst htaken
  rw [hbuf j (by omega)]
  exact read_memWrite_outside _ _ (.inr (by omega))

theorem wrongEcho_keepsListening {f : FnCode} {a : Byte} {r x c : Word} {s : State} {i : Instr}
    (hwf : Memory.wf s.buf = true) (hne : r ≠ s.expVal.setWidth 16) (hi : echoReplyInstr f a r x c = some i)
    (hr : ReadyFor a (fnByte f) s) : KeepsListening s (exec i s) := by
  obtain ⟨hp, he⟩ := encode_echoReplyInstr hi
  rw [exec_of_reply hp he, burst_wrongEcho (isWrite_of_echoReplyInstr hi) hwf hr hne]
  exact resynchronised_keepsListening hr.phase (le_refl 4) (le_refl 4)

/-- Settles O38, by the resynchronisation of each write's echo. -/
theorem wrongEchoKeepsListening : Obligations.WrongEchoKeepsListening := by
  intro a r x c s hwf hne
  have echo : ∀ f i, echoReplyInstr f a r x c = some i → ReadyFor a (fnByte f) s → KeepsListening s (exec i s) :=
    fun f i hi => wrongEcho_keepsListening hwf hne hi
  simp only [List.forall_mem_cons]
  exact ⟨echo .writeSingleCoil _ rfl, echo .writeSingleHolding _ rfl, echo .writeMultiCoils _ rfl,
    echo .writeMultiHolding _ rfl, nofun⟩

/-! ### A stray byte before the reply -/

/-- A byte other than the expected address is passed over by a ready receiver (R116). -/
theorem burst_stray {a f stray : Byte} {bs : List Byte} {s : State} (hr : ReadyFor a f s) (hne : stray ≠ a) :
    burst (stray :: bs) s = burst bs { s with rxLast := s.clock, buf := Memory.write s.buf 0 stray } := by
  have hstep : headerStep0 stray (consumed bs { s with inbound := stray :: bs }) =
      { s with inbound := bs, rxLast := s.clock, buf := Memory.write s.buf 0 stray } := by
    simp only [headerStep0, consumed, hr.addr, if_neg hne, ← hr.idx]
    rfl
  rw [burst_eq_drain hr.clear,
    burst_eq_drain (s := { s with rxLast := s.clock, buf := Memory.write s.buf 0 stray }) hr.clear, List.length_cons,
    drain_cons (s := { s with inbound := stray :: bs }) hr.phase ((rxWaiting_iff _).2 (.inl hr.st)) rfl,
    takeByte_header0 (s := consumed bs { s with inbound := stray :: bs }) hr.st hr.idx, andThen_next, hstep]

/-- Every reply a ready receiver awaits is received whole, with the status it gives (R68 to R71, R125). -/
theorem awaitedReply_receivedWhole {a f status : Byte} {covered : List Byte} {s : State} (c : Word)
    (hwf : Memory.wf s.buf = true) (hr : ReadyFor a f s) (h : AwaitedReply a f s.expVal covered status) :
    ReceivedWhole status c (covered ++ be16 c) s (burst (covered ++ be16 c) s) := by
  rcases h with ⟨hf, rfl, fmt, body, hfmt, hfit, rfl⟩ | ⟨hf, rfl, x, rfl⟩ | ⟨hf, rfl⟩
  · obtain ⟨g, hg, rfl⟩ := fnByte_of_readByte hf
    obtain ⟨b2, b3, tail, total, hbytes, hlen, htot⟩ := readReply_header hg hfit hfmt c
    exact burst_receivedWhole hwf hr (functionMatches_fnByte g) (congrArg (a :: fnByte g :: ·) hbytes) hlen htot
      (status_fnByte g b2)
  · obtain ⟨g, hg, rfl⟩ := fnByte_of_writeByte hf
    exact burst_receivedWhole hwf hr (functionMatches_fnByte g) rfl (lengthOf_echo hg _) rfl (status_fnByte g _)
  · obtain ⟨g, hg⟩ := exists_fnOfByte hf
    obtain rfl := fnByte_of_fnOfByte hg
    exact burst_receivedWhole hwf hr (functionMatches_exceptionByte g) rfl (lengthOf_exception g _ _ _ _) rfl
      (if_pos (exceptionFlag_exceptionByte g))

/-- Settles O43: after the stray byte the receiver is ready as before. -/
theorem strayByteSurvived : Obligations.StrayByteSurvived := by
  intro a f stray status covered rest s hne hwf hr hreply hag
  have hready : ReadyFor a f { s with agenda := rest } := { hr with }
  obtain ⟨t, ht, -, hgood, -⟩ := awaitedReply_receivedWhole (crc16 covered)
    (s := { s with agenda := rest, rxLast := s.clock, buf := Memory.write s.buf 0 stray })
    (Memory.wf_write 0 stray hwf) { hr with } hreply
  refine ⟨t, ?_, hgood ?_⟩
  · rw [step_cons hag, stepMove_frame]
    exact (burst_stray hready hne).trans ht
  · simp

end Sys2Proof.Machine
end

section
/-! PROOFS. The silent line and whole transactions: the receiver times out at the first poll late enough, and a command
runs up to its receiver whatever its operands (R126, R132, R141, R161). -/

namespace Sys2Proof.Machine

open Safety

/-! ### The silent line -/

/-- The ticks of a list of quiet moves: a poll takes none. -/
def quietTicks (ws : List (Option Nat)) : Nat := (ws.map (·.getD 0)).sum

@[simp] theorem quietTicks_poll (ws : List (Option Nat)) : quietTicks (none :: ws) = quietTicks ws := by
  simp [quietTicks]

@[simp] theorem quietTicks_tick (n : Nat) (ws : List (Option Nat)) :
    quietTicks (some n :: ws) = n + quietTicks ws := by
  simp [quietTicks]

@[simp] theorem quietTicks_thenPoll (ws : List (Option Nat)) : quietTicks (ws ++ [none]) = quietTicks ws := by
  simp [quietTicks]

/-- The state with the moves `rest` to come. -/
def leaving (rest : List Move) (s : State) : State := { s with agenda := rest }

theorem steps_cons {m : Move} {rest : List Move} {s : State} (h : s.agenda = m :: rest) (n : Nat) :
    steps (n + 1) s = andThen (stepMove m (leaving rest s)) (steps n) := by
  rw [steps_succ, step_cons h]
  rfl

/-- The clock advances and the engine moves. -/
theorem steps_tick_engine {n : Nat} {rest : List Move} {s t : State} (ha : s.agenda = .tick n :: .engine :: rest)
    (h : engineStep (leaving rest (advance n s)) = .next t) : steps 2 s = .next t := by
  rw [steps_cons ha, stepMove_tick, andThen_next, steps_cons (m := .engine) (rest := rest) rfl, stepMove_engine]
  exact congrArg (andThen · (steps 0)) h

/-- After the result is delivered quiet moves only pass the time (R188). -/
theorem steps_quiet_done {ws : List (Option Nat)} {rest : List Move} {s : State} (hp : s.phase = .done)
    (ha : s.agenda = ws.map quietMove ++ rest) :
    steps ws.length s = .next { s with agenda := rest, clock := s.clock + quietTicks ws } := by
  induction ws generalizing s with
  | nil => rw [show rest = s.agenda from ha.symm]; rfl
  | cons w ws ih =>
    have hq : (leaving (ws.map quietMove ++ rest) s).phase = .done := hp
    rw [List.length_cons, steps_cons (rest := ws.map quietMove ++ rest) ha]
    cases w with
    | none =>
      rw [quietMove, stepMove_engine, engineStep_rest (.inr hq), andThen_next, ih hq rfl, quietTicks_poll]
      rfl
    | some n =>
      have hq' : (advance n (leaving (ws.map quietMove ++ rest) s)).phase = .done := hp
      rw [quietMove, stepMove_tick, andThen_next, ih hq' rfl, quietTicks_tick, ← Nat.add_assoc]
      rfl

/-- The timeout delivered, the clock at `c`, nothing sent since `s` (R126). -/
def TimedOutAt (c : Nat) (s t : State) : Prop :=
  Delivered 9 [] t ∧ t.rxSt = .timedOut ∧ t.clock = c ∧ t.outbound = s.outbound

/-- Quiet moves that bring more than `T` ticks since the last progress, and a poll: one of the polls is the first late
enough, and the moves after it change nothing but the clock. -/
theorem steps_silent {ws : List (Option Nat)} {s : State} (hp : Polling s) (hin : s.inbound = [])
    (ha : s.agenda = (ws ++ [none]).map quietMove) (h : s.rxT < s.clock + quietTicks ws - s.rxLast) :
    ∃ t, steps (ws ++ [none]).length s = .next t ∧ TimedOutAt (s.clock + quietTicks ws) s t := by
  induction ws generalizing s with
  | nil =>
    refine ⟨timedOut (leaving [] s), ?_, ⟨rfl, rfl, rfl, rfl⟩, rfl, rfl, rfl⟩
    have hlast := engineStep_timesOut (s := leaving [] s) hp hin h
    rw [List.nil_append, List.length_singleton, steps_cons ha]
    exact congrArg (andThen · (steps 0)) hlast
  | cons w ws ih =>
    rw [List.cons_append, List.length_cons, steps_cons (rest := (ws ++ [none]).map quietMove) ha]
    generalize hu : leaving ((ws ++ [none]).map quietMove) s = u
    have hpu : Polling u := hu ▸ hp
    have hinu : u.inbound = [] := hu ▸ hin
    cases w with
    | none =>
      rw [quietMove, stepMove_engine]
      rw [quietTicks_poll] at h ⊢
      rcases Nat.lt_or_ge s.rxT (s.clock - s.rxLast) with hlate | hearly
      · rw [engineStep_timesOut hpu hinu (hu ▸ hlate), andThen_next,
          steps_quiet_done (ws := ws ++ [none]) (rest := []) rfl (hu ▸ (List.append_nil _).symm), quietTicks_thenPoll]
        subst hu
        exact ⟨_, rfl, ⟨rfl, rfl, rfl, rfl⟩, rfl, rfl, rfl⟩
      · rw [engineStep_waits hpu hinu (hu ▸ hearly), andThen_next]
        subst hu
        exact ih hpu hinu rfl h
    | some n =>
      rw [quietTicks_tick, ← Nat.add_assoc] at h ⊢
      subst hu
      exact ih (s := advance n (leaving ((ws ++ [none]).map quietMove) s)) hpu hinu rfl h

/-- Within `T` ticks of the last progress neither the quiet moves nor the poll after them find anything to do. -/
theorem steps_silent_early {ws : List (Option Nat)} {s : State} (hp : Polling s) (hin : s.inbound = [])
    (ha : s.agenda = (ws ++ [none]).map quietMove) (h : s.clock + quietTicks ws - s.rxLast ≤ s.rxT) :
    steps (ws ++ [none]).length s = .next { s with agenda := [], clock := s.clock + quietTicks ws } := by
  rw [← quietTicks_thenPoll ws] at h ⊢
  exact steps_quiet hp hin h (ha.trans (List.append_nil _).symm)

/-- Settles O35: the quiet moves and the poll after them are quiet moves themselves, of as many ticks. -/
theorem silentReceiveTimesOut : Obligations.SilentReceiveTimesOut := by
  intro ws s hp hin _ hag
  have ha : s.agenda = (ws ++ [none]).map quietMove := by rw [hag, List.map_append]; rfl
  rw [show ws.length + 1 = (ws ++ [none]).length by simp]
  rcases Nat.lt_or_ge s.rxT (s.clock + quietTicks ws - s.rxLast) with hlate | hearly
  · obtain ⟨t, ht, hout⟩ := steps_silent hp hin ha hlate
    exact ⟨t, ht, fun h => absurd hlate (Nat.not_lt.2 h), fun _ => hout⟩
  · exact ⟨_, steps_silent_early hp hin ha hearly, fun _ => rfl, fun h => absurd h (Nat.not_lt.2 hearly)⟩

/-! ### A command up to its receiver -/

/-- A pseudo-command's frame is its expansion's (R79). -/
theorem encode_canonical (i : Instr) : encode (canonical i) = encode i := by
  cases i <;> rfl

/-- The frame that the registers latched from a command's drive make is the command's encoding. -/
theorem command_frame {i : Instr} {c : PortCmd} {frame : List Byte} (hw : WellFormed i = true)
    (hport : portOf i = some c) (he : encode i = some frame) :
    ∃ f, PortCarries f c ∧
      ∀ s, buildFrame c.dev (fnByte f) (payloadOf f (accepted f c.dev c.reg c.arg c.data s)) = frame := by
  have hdec := portDecodeEncode i c hw hport
  obtain ⟨f, hc⟩ := decodePort_ok_carries hdec
  have ⟨hf, hlen, _⟩ := hc
  refine ⟨f, hc, fun s => ?_⟩
  have hheld : heldDrive (accepted f c.dev c.reg c.arg c.data s) = c := by
    rw [heldDrive, accepted, ← fnByte_of_fnOfByte hf]
  have hinstr : portInstr f (heldDrive (accepted f c.dev c.reg c.arg c.data s)) = .ok (canonical i) := by
    rw [hheld, ← decodePort_of_fn hf hlen, hdec]
  obtain ⟨-, hframe, -⟩ := encode_heldDrive hlen hinstr
  exact Option.some.inj (hframe.symm.trans ((encode_canonical i).trans he))

/-- A read's byte is one of the four (R62). -/
theorem fnByte_mem_read {f : FnCode} (h : isRead f = true) : fnByte f ∈ ([0x01, 0x02, 0x03, 0x04] : List Byte) := by
  cases f with
  | readCoils | readDiscrete | readHolding | readInput => decide
  | _ => cases h

/-- A receiver started for the command of the drive `c` (R147), which was issued in `s`: nothing received yet, and the
request sent. -/
structure Awaits (c : PortCmd) (request : List Byte) (s u : State) : Prop where
  ready : ReadyFor c.dev c.op u
  started : u.rxLast = u.clock
  time : u.rxT = s.timeout
  val : ∃ f, fnOfByte c.op = some f ∧ u.expVal = expectOf f u
  reg : u.cmdReg = c.reg
  arg : u.cmdArg = c.arg
  sent : u.outbound = s.outbound ++ request
  buf : u.buf = s.buf

section
variable {i : Instr} {c : PortCmd} {request : List Byte} {wait : Nat} {rest : List Move} {s : State}
  (hw : WellFormed i = true) (hport : portOf i = some c) (he : encode i = some request) (hacc : Accepting s)
  (hdev : c.dev.toNat ≤ 247) (hread : c.op ∈ ([0x01, 0x02, 0x03, 0x04] : List Byte) → c.dev ≠ 0)
include hw hport he hacc hdev hread

theorem stepMove_command_transmits :
    ∃ f p, fnOfByte c.op = some f ∧ buildFrame c.dev (fnByte f) p = request ∧
      stepMove (.command c) s =
        .next (transmitted f c.dev c.reg c.arg c.data p { s with portArg := c.arg, portData := c.data }) := by
  obtain ⟨f, hc, hframe⟩ := command_frame hw hport he
  have haddr : ValidAddress f c.dev := ⟨hdev, fun hf => hread (fnByte_of_fnOfByte hc.1 ▸ fnByte_mem_read hf)⟩
  refine ⟨f, _, hc.1, hframe { s with portArg := c.arg, portData := c.data }, ?_⟩
  rw [stepMove_command, issueCommand_carried hc rfl rfl]
  exact accept_runToPause hacc haddr

/-- After a pause of at least `TIMEOUT` the engine receives (R146, R147). -/
theorem steps_to_receive (hwait : s.timeout ≤ wait)
    (hag : s.agenda = .command c :: .tick wait :: .engine :: rest) :
    ∃ u, steps 3 s = .next u ∧ Awaits c request s u ∧ u.clock = s.clock + wait ∧ u.agenda = rest := by
  obtain ⟨f, p, hf, rfl, hstep⟩ := stepMove_command_transmits
    (s := leaving (.tick wait :: .engine :: rest) s) hw hport he hacc hdev hread
  generalize hv : transmitted f c.dev c.reg c.arg c.data p _ = v at hstep
  have hphase : (leaving rest (advance wait v)).phase = .pause := by rw [← hv]; rfl
  have hop : fnOfByte (leaving rest (advance wait v)).cmdOp = some f := by rw [← hv]; exact fnOfByte_fnByte f
  have hlate : v.timeout ≤ v.clock + wait - v.tTx := by
    rw [← hv]
    exact hwait.trans_eq (Nat.add_sub_cancel_left s.clock wait).symm
  have hlisten := (engineStep_pause hphase).trans (pauseStep_end hop hlate)
  have hpaused := steps_tick_engine (s := v) (by rw [← hv]; rfl) hlisten
  have hcommand : steps 3 s = steps 2 v := (steps_cons hag 2).trans (congrArg (andThen · (steps 2)) hstep)
  refine ⟨_, hcommand.trans hpaused, ?_⟩
  subst hv
  exact
    ⟨{ ready := ⟨rfl, rfl, rfl, rfl, (fnByte_of_fnOfByte hf).symm, rfl⟩
       started := rfl
       time := rfl
       val := ⟨f, hf, (expectOf_congr rfl rfl f).symm⟩
       reg := rfl
       arg := rfl
       sent := rfl
       buf := rfl }, rfl, rfl⟩

end

/-! ### Whole transactions -/

/-- Settles O48: the receiver the command starts is a silent receiver, and its timeout is the command's. -/
theorem silentLineTimesOut : Obligations.SilentLineTimesOut := by
  intro i c frame wait silence rest s hw hport he hacc hdev hread hwait hsilence hag
  obtain ⟨u, hu, haw, hclock, hagu⟩ := steps_to_receive hw hport he hacc hdev hread hwait hag
  have hpoll : Polling (leaving rest (advance silence u)) := ⟨haw.ready.phase, .inl haw.ready.st⟩
  have hlate : u.rxT < u.clock + silence - u.rxLast := by
    rw [haw.time, haw.started, Nat.add_sub_cancel_left]
    exact hsilence
  have hout := engineStep_timesOut hpoll haw.ready.clear hlate
  refine ⟨timedOut (leaving rest (advance silence u)), ?_, ⟨rfl, rfl, rfl, rfl⟩, haw.sent, ?_, rfl⟩
  · rw [show 5 = 3 + 2 from rfl, steps_add, hu, andThen_next, steps_tick_engine hagu hout]
  · rw [← hclock]
    rfl

/-- Settles O50: a write's receiver awaits the echo of its register address, which the reply is. -/
theorem writeTransactionCompletes : Obligations.WriteTransactionCompletes := by
  intro i c request reply x wait rest s hw hport he hop hacc hwf hdev hreply hwait hag
  obtain ⟨f, hf, hfop⟩ := fnByte_of_writeByte hop
  have hread : c.op ∈ ([0x01, 0x02, 0x03, 0x04] : List Byte) → c.dev ≠ 0 := fun hr => by
    rw [hfop] at hr
    rw [isRead_of_fnByte hr] at hf
    cases hf
  obtain ⟨u, hu, haw, -, hagu⟩ := steps_to_receive hw hport he hacc hdev hread hwait hag
  obtain ⟨g, hg, hval⟩ := haw.val
  have hgop := fnByte_of_fnOfByte hg
  have hexp : u.expVal = c.reg.setWidth 17 := by
    rw [hval, expectOf_write u (hgop ▸ hop), haw.reg]
  obtain ⟨t, ht, hunread, -, hdone, hagt⟩ := burst_request_completes (s := leaving rest u) hf (haw.buf ▸ hwf)
    { haw.ready with fn := haw.ready.fn.trans hfop } hexp (hfop ▸ hreply)
  have hnormal : resNormal t = true := by
    rw [resNormal_iff, hdone.frame, hreply, hfop]
    exact ⟨hdone.valid, hdone.status, by simp, exceptionFlag_fnByte f⟩
  refine ⟨t, ?_, hdone, viewStatus_normal hnormal, ?_, hunread, hagt⟩
  · rw [show 4 = 3 + 1 from rfl, steps_add, hu, andThen_next, steps_cons hagu, stepMove_frame, ht]
    rfl
  · exact (burst_same ht).outbound.trans haw.sent

end Sys2Proof.Machine
end

section
/-! PROOFS. The commands at the host's side (43_commands.md): a command's meaning from its acceptance to the pause or to
`AddressError`, the engine's moves between them, the port's limits, the typed views, and a read answered by a reply. -/

namespace Sys2Proof.Machine

open Safety

/-! ### The address test by class of command (R142, R143) -/

theorem byte_ne_zero_iff (dev : Byte) : dev ≠ 0 ↔ 1 ≤ dev.toNat := by
  rw [Nat.one_le_iff_ne_zero, ← BitVec.toNat_ne_iff_ne]
  rfl

/-- A read accepts the addresses 1 to 247. -/
theorem validAddress_read {f : FnCode} (hf : isRead f = true) (dev : Byte) :
    ValidAddress f dev ↔ 1 ≤ dev.toNat ∧ dev.toNat ≤ 247 := by
  rw [ValidAddress, byte_ne_zero_iff, and_comm]
  simp only [hf, forall_const]

/-- A write accepts the broadcast address too. -/
theorem validAddress_write {f : FnCode} (hf : isRead f = false) (dev : Byte) :
    ValidAddress f dev ↔ dev.toNat ≤ 247 := by
  simp [ValidAddress, hf]

theorem not_validAddress_read {f : FnCode} (hf : isRead f = true) {dev : Byte} (h : dev = 0 ∨ 247 < dev.toNat) :
    ¬ ValidAddress f dev := fun ⟨hmax, hzero⟩ => h.elim (hzero hf) (Nat.not_lt.2 hmax)

theorem not_validAddress_above {f : FnCode} {dev : Byte} (h : 247 < dev.toNat) : ¬ ValidAddress f dev :=
  fun ⟨hmax, _⟩ => Nat.not_lt.2 hmax h

theorem engineStep_validate_passes {f : FnCode} {s : State} (hp : s.phase = .validate) (hop : s.cmdOp = fnByte f)
    (ha : ValidAddress f s.cmdDev) : engineStep s = .next { s with phase := .flush } :=
  (engineStep_validate hp).trans (validateStep_valid (hop ▸ fnOfByte_fnByte f) ha)

theorem engineStep_validate_rejects {f : FnCode} {s : State} (hp : s.phase = .validate) (hop : s.cmdOp = fnByte f)
    (ha : ¬ ValidAddress f s.cmdDev) :
    engineStep s = .next { s with phase := .done, resStatus := 11, resFrame := [], resValid := true } :=
  (engineStep_validate hp).trans (validateStep_invalid (hop ▸ fnOfByte_fnByte f) ha)

/-- Settles O16: the operation held is a read or a write, and VALIDATE asks whether its address is valid for it. -/
theorem addressTestDecides : Obligations.AddressTestDecides := by
  intro s hp
  refine ⟨fun hop => ?_, fun hop => ?_⟩
  · obtain ⟨f, hf, hop⟩ := fnByte_of_readByte hop
    exact ⟨fun ha => engineStep_validate_passes hp hop ((validAddress_read hf _).2 ha),
      fun ha => engineStep_validate_rejects hp hop (not_validAddress_read hf ha)⟩
  · obtain ⟨f, hf, hop⟩ := fnByte_of_writeByte hop
    exact ⟨fun ha => engineStep_validate_passes hp hop ((validAddress_write hf _).2 ha),
      fun ha => engineStep_validate_rejects hp hop (not_validAddress_above ha)⟩

/-! ### Flush, transmission and `SetTimeout` -/

/-- Settles O22: the flush reads as many bytes as are waiting, which is all of them. -/
theorem flushEmptiesInbound : Obligations.FlushEmptiesInbound := by
  intro s hp
  rw [engineStep_flush hp, flushStep_eq]

/-- Settles O23: the register is left at `raw` of the covered bytes. -/
theorem transmitHandsOverFrame : Obligations.TransmitHandsOverFrame := fun f s hp hf =>
  ⟨crcRaw (s.cmdDev :: s.cmdOp :: payloadOf f s), (engineStep_transmit hp).trans (transmitStep_eq hf)⟩

/-- Settles O21: `SetTimeout` asks only whether the host may move. -/
theorem setTimeoutWrites : Obligations.SetTimeoutWrites := fun _ s =>
  ⟨fun hm => if_pos ((portReady_iff s).2 hm), execSetTimeout_busy⟩

/-! ### A command's meaning: its acceptance and the moves up to the pause -/

theorem exec_writeMultiCoils {data : List Byte} (hd : data.length ≤ 255) (a : Byte) (r count : Word) (s : State) :
    exec (.writeMultiCoils a r count data) s =
      andThen (accept .writeMultiCoils a r (some count) (some data) s) runToPause :=
  congrArg (andThen · runToPause) (if_pos hd)

theorem exec_writeMultiHolding {values : List Word} (hv : values.length ≤ 127) (a : Byte) (r : Word) (s : State) :
    exec (.writeMultiHolding a r values) s =
      andThen (accept .writeMultiHolding a r (some (BitVec.ofNat 16 values.length)) (some (bytesOf values)) s)
        runToPause :=
  congrArg (andThen · runToPause) (if_pos hv)

/-- An accepted command with a valid address, its payload written out. -/
theorem accept_transmits {f : FnCode} {a : Byte} {r : Word} {arg : Option Word} {data : Option (List Byte)}
    {s : State} {p : List Byte} (h : Accepting s) (ha : ValidAddress f a)
    (hp : payloadOf f (accepted f a r (arg.getD s.portArg) (data.getD s.portData) s) = p) :
    andThen (accept f a r arg data s) runToPause =
      .next (transmitted f a r (arg.getD s.portArg) (data.getD s.portData) p s) :=
  hp ▸ accept_runToPause h ha

/-- Settles O13: each read is an acceptance, and its payload is the register address and the count. -/
theorem readCommandsTransmit : Obligations.ReadCommandsTransmit := by
  intro a r n s hacc hmin hmax
  have haddr : ∀ f, isRead f = true → ValidAddress f a := fun f hf => (validAddress_read hf a).2 ⟨hmin, hmax⟩
  have hone : be16 r ++ be16 1 = be16 r ++ [0x00, 0x01] := rfl
  exact
    ⟨accept_transmits hacc (haddr .readCoils rfl) hone, accept_transmits hacc (haddr .readDiscrete rfl) hone,
      accept_transmits hacc (haddr .readHolding rfl) rfl, accept_transmits hacc (haddr .readInput rfl) rfl,
      accept_transmits hacc (haddr .readHolding rfl) hone, accept_transmits hacc (haddr .readInput rfl) hone⟩

/-- The coil word of the boolean that bit 0 of `cmd.arg` holds (R76, R154). -/
theorem be16_coilWord (lines : Word) (v : Bool) :
    be16 (coilWord (coilArg lines v)) = if v then [0xFF, 0x00] else [0x00, 0x00] := by
  rw [coilWord, coilArg_bit]
  cases v <;> rfl

/-- The payload of a list of values (R157): twice their number fits the byte length. -/
theorem payloadOf_values {values : List Word} (hv : values.length ≤ 127) (a : Byte) (r : Word) (s : State) :
    payloadOf .writeMultiHolding
        (accepted .writeMultiHolding a r (BitVec.ofNat 16 values.length) (bytesOf values) s) =
      be16 r ++ be16 (BitVec.ofNat 16 values.length) ++ [BitVec.ofNat 8 (2 * values.length)] ++ bytesOf values := by
  have hcount : (BitVec.ofNat 16 values.length).toNat = values.length := toNat_ofNat_of_lt (by omega)
  have hlen : registersByteLen (accepted .writeMultiHolding a r (BitVec.ofNat 16 values.length) (bytesOf values) s) =
      BitVec.ofNat 8 (2 * values.length) := by
    rw [registersByteLen_fit (by simp only [accepted, bytesOf_length, hcount])]
    simp only [accepted, hcount]
  simp only [payloadOf, writeMultiHoldingPayload, hlen]
  rfl

/-- Settles O14: each write is an acceptance once its operands are within the limits; only the coil word and the byte
length of a list of values are computed. -/
theorem writeCommandsTransmit : Obligations.WriteCommandsTransmit := by
  intro a r v count on data values s hacc hmax hd hv
  have haddr : ∀ f, isRead f = false → ValidAddress f a := fun f hf => (validAddress_write hf a).2 hmax
  refine ⟨accept_transmits hacc (haddr .writeSingleCoil rfl) (congrArg (be16 r ++ ·) (be16_coilWord s.portArg on)),
    accept_transmits hacc (haddr .writeSingleHolding rfl) rfl, ?_, ?_⟩
  · rw [exec_writeMultiCoils hd]
    exact accept_transmits hacc (haddr .writeMultiCoils rfl) rfl
  · rw [exec_writeMultiHolding hv]
    exact accept_transmits hacc (haddr .writeMultiHolding rfl) (payloadOf_values hv a r s)

/-- Settles O15: an accepted command with an address invalid for its class is turned away. -/
theorem invalidAddressEndsCommand : Obligations.InvalidAddressEndsCommand := by
  intro a r v count on data values s hacc hd hv
  refine ⟨fun ha => ?_, fun ha => ?_⟩
  · have hbad : ∀ f, isRead f = true → ¬ ValidAddress f a := fun f hf => not_validAddress_read hf ha
    exact
      ⟨accept_rejected hacc (hbad .readCoils rfl), accept_rejected hacc (hbad .readDiscrete rfl),
        accept_rejected hacc (hbad .readHolding rfl), accept_rejected hacc (hbad .readInput rfl),
        accept_rejected hacc (hbad .readHolding rfl), accept_rejected hacc (hbad .readInput rfl)⟩
  · have hbad : ∀ f, ¬ ValidAddress f a := fun f => not_validAddress_above ha
    refine ⟨accept_rejected hacc (hbad .writeSingleCoil), accept_rejected hacc (hbad .writeSingleHolding), ?_, ?_⟩
    · rw [exec_writeMultiCoils hd]
      exact accept_rejected hacc (hbad .writeMultiCoils)
    · rw [exec_writeMultiHolding hv]
      exact accept_rejected hacc (hbad .writeMultiHolding)

/-! ### The port's limits (R162, U2) -/

/-- An operation of the eight with operands beyond the port's limits decodes to no command. -/
theorem decodePort_operandLimits {c : PortCmd} (hop : c.op ∈ functionBytes)
    (h : 255 < c.data.length ∨ (c.op = 0x10 ∧ 127 < c.arg.toNat)) : decodePort c = .error .operandLimits := by
  obtain ⟨f, hf⟩ := exists_fnOfByte hop
  rcases Nat.lt_or_ge 255 c.data.length with hlong | hfits
  · simp only [decodePort, hf]
    exact if_neg (Nat.not_le.2 hlong)
  · obtain ⟨hmulti, harg⟩ := h.resolve_left (Nat.not_lt.2 hfits)
    obtain rfl : FnCode.writeMultiHolding = f := Option.some.inj ((hmulti ▸ hf : fnOfByte 0x10 = some f))
    rw [decodePort_of_fn hf hfits]
    exact if_pos harg

/-- Settles O19: the two multiple writes test their operands before the acceptance, the port before any command. -/
theorem operandLimitsRefused : Obligations.OperandLimitsRefused := by
  intro a r count data values c rest s
  refine ⟨fun hd => congrArg (andThen · runToPause) (if_neg (Nat.not_le.2 hd)),
    fun hv => congrArg (andThen · runToPause) (if_neg (Nat.not_le.2 hv)), fun hag hop hlim => ?_⟩
  have hissue := issueCommand_error (decodePort_operandLimits hop hlim) nofun
  rcases hag with hag | hag
  · rw [step_cons hag, stepMove_command, hissue, andThen_refused]
    rfl
  · rw [step_cons hag, stepMove_issue, hissue]
    rfl

/-! ### The views of a normal reply (R148) -/

/-- A field of a frame, cut out by its offset and its length. -/
theorem field_of_frame {head body tail : List Byte} {off n : Nat} (hoff : head.length = off) (hn : n = body.length) :
    (if off + n ≤ (head ++ body ++ tail).length then some (((head ++ body ++ tail).drop off).take n) else none) =
      some body := by
  subst hoff hn
  rw [if_pos (by simp), List.append_assoc, List.drop_left, List.take_left]

/-- The body view of a read reply is its body, where the length field has the width the expected value selects. -/
theorem bodyOf_readReplyFrame {fmt : LenFmt} {body : List Byte} {ev : Val17} (hfmt : fmt = .len1 ↔ ev.toNat < 256)
    (hb : bodyFits fmt body = true) (a f : Byte) (c : Word) :
    bodyOf ev (readReplyFrame fmt a f body c) = some body := by
  cases fmt with
  | len1 =>
    have hev : lenFmtOf ev = .len1 := if_pos (hfmt.1 rfl)
    simp only [bodyOf, hev]
    exact field_of_frame (head := [a, f, BitVec.ofNat 8 body.length]) rfl (toNat_ofNat_of_lt (of_decide_eq_true hb))
  | len2 =>
    have hev : lenFmtOf ev = .len2 := if_neg (mt hfmt.2 nofun)
    have hlen : (word (hi8 (BitVec.ofNat 16 body.length)) (lo8 (BitVec.ofNat 16 body.length))).toNat = body.length := by
      rw [word_hi8_lo8, toNat_ofNat_of_lt (of_decide_eq_true hb)]
    simp only [bodyOf, hev]
    exact field_of_frame (head := a :: f :: be16 (BitVec.ofNat 16 body.length)) rfl hlen

section
variable {a f : Byte} {s : State} (hvalid : s.resValid = true) (hstatus : s.resStatus = 0)
  (hflag : f.getLsbD 7 = false)
include hvalid hstatus hflag

theorem resBody_readReply {fmt : LenFmt} {body : List Byte} {c : Word}
    (hframe : s.resFrame = readReplyFrame fmt a f body c) (hfmt : fmt = .len1 ↔ s.expVal.toNat < 256)
    (hb : bodyFits fmt body = true) : resBody s = some body := by
  have hnormal : resNormal s = true := by
    rw [resNormal_iff, hframe]
    exact ⟨hvalid, hstatus, Nat.le_add_left 2 _, hflag⟩
  rw [resBody_normal hnormal, hframe, bodyOf_readReplyFrame hfmt hb]

theorem viewStatus_echo {r x c : Word} (hframe : s.resFrame = echoFrame a f r x c) : viewStatus s = some 0 := by
  refine viewStatus_normal ((resNormal_iff s).2 ?_)
  rw [hframe]
  exact ⟨hvalid, hstatus, Nat.le_add_left 2 _, hflag⟩

end

theorem viewBit_body {s : State} {body : List Byte} (h : resBody s = some body) (hlen : 1 ≤ body.length) :
    viewBit s = some ((body.getD 0 0).getLsbD 0) := by
  cases body with
  | nil => cases hlen
  | cons b rest => simp only [viewBit, h, List.getD_cons_zero]

theorem viewWord_body {s : State} {body : List Byte} (h : resBody s = some body) (hlen : 2 ≤ body.length) :
    viewWord s = some (word (body.getD 0 0) (body.getD 1 0)) := by
  match body with
  | b0 :: b1 :: rest => simp only [viewWord, h, List.getD_cons_zero, List.getD_cons_succ]

/-- Word `k` of a byte sequence is its bytes `2 * k` and `2 * k + 1` (R43, R152). -/
theorem wordsOf_getElem? : ∀ (bs : List Byte) (k : Nat), k < bs.length / 2 →
    (wordsOf bs)[k]? = some (word (bs.getD (2 * k) 0) (bs.getD (2 * k + 1) 0))
  | [], k, h => absurd h (Nat.not_lt_zero k)
  | [_], _, h => by simp at h
  | _ :: _ :: _, 0, _ => rfl
  | b0 :: b1 :: rest, k + 1, h => wordsOf_getElem? rest k (by simp at h; omega)

/-- Settles O51: the body view of a normal read reply is its body, and every view of a command is one of it; a write is
read through the status. -/
theorem viewsOfNormalReply : Obligations.ViewsOfNormalReply := by
  intro fmt a f body c s hvalid hstatus hflag
  refine ⟨fun hframe hfmt hb => ?_, fun r x d b on data values hframe => ?_⟩
  · have hbody := resBody_readReply hvalid hstatus hflag hframe hfmt hb
    have hregisters : (viewData s).map (fun d => TypedResult.values d (wordsOf d)) =
        some (.values body (wordsOf body)) :=
      congrArg (Option.map _) hbody
    refine ⟨wordsOf body, hbody, congrArg (Option.map wordsOf) hbody, wordsOf_length body, wordsOf_getElem? body,
      fun d r n => ⟨hregisters, hregisters, fun hlen => ?_, fun hlen => ?_⟩⟩
    · have hbit := congrArg (Option.map TypedResult.bit) (viewBit_body hbody hlen)
      exact ⟨hbit, hbit⟩
    · have hword := congrArg (Option.map TypedResult.value) (viewWord_body hbody hlen)
      exact ⟨hword, hword⟩
  · have hwrite : (viewStatus s).map TypedResult.status = some (.status 0) :=
      congrArg (Option.map _) (viewStatus_echo hvalid hstatus hflag hframe)
    simp only [List.forall_mem_cons]
    exact ⟨hwrite, hwrite, hwrite, hwrite, nofun⟩

/-! ### A read answered by its reply -/

/-- A read has no operand with a limit. -/
theorem wellFormed_of_readDrive {i : Instr} {c : PortCmd} (hport : portOf i = some c)
    (hop : c.op ∈ ([0x01, 0x02, 0x03, 0x04] : List Byte)) : WellFormed i = true := by
  cases i <;> cases hport
  case writeMultiCoils | writeMultiHolding => simp at hop
  all_goals rfl

theorem exists_readReplyInstr {f : FnCode} (hf : isRead f = true) (fmt : LenFmt) (a : Byte) (body : List Byte)
    (c : Word) : ∃ i, readReplyInstr f fmt a body c = some i := by
  cases f with
  | readCoils | readDiscrete | readHolding | readInput => exact ⟨_, rfl⟩
  | _ => cases hf

/-- A ready receiver takes a read reply of the expected format whole, as a burst. -/
theorem burst_readReply {f : FnCode} {fmt : LenFmt} {a : Byte} {body : List Byte} {s : State} (hf : isRead f = true)
    (hb : bodyFits fmt body = true) (hwf : Memory.wf s.buf = true) (hfmt : fmt = .len1 ↔ s.expVal.toNat < 256)
    (hr : ReadyFor a (fnByte f) s) (c : Word) :
    ReceivedWhole 0 c (readReplyFrame fmt a (fnByte f) body c) s
      (burst (readReplyFrame fmt a (fnByte f) body c) s) := by
  obtain ⟨i, hi⟩ := exists_readReplyInstr hf fmt a body c
  obtain ⟨hp, he⟩ := encode_readReplyInstr hi
  exact exec_of_reply hp he s ▸ readReply_receivedWhole hb hwf hfmt hi hr he

/-- The width of the length field a read awaits: one byte for a coil read, and for a register read of fewer than 128
registers (R122, R147). -/
theorem expectOf_read_lt {f : FnCode} (hf : isRead f = true) (s : State) :
    (expectOf f s).toNat < 256 ↔ fnByte f ∈ ([0x01, 0x02] : List Byte) ∨ 2 * s.cmdArg.toNat < 256 := by
  by_cases hcoil : fnByte f ∈ ([0x01, 0x02] : List Byte)
  · rw [expectOf_coilRead s hcoil]
    exact iff_of_true (by decide) (.inl hcoil)
  · have hread : fnByte f ∈ ([0x01, 0x02] ++ [0x03, 0x04] : List Byte) := fnByte_mem_read hf
    have hregister := (List.mem_append.1 hread).resolve_left hcoil
    rw [expectOf_registerRead s hregister, or_iff_right hcoil]

/-- Settles O49: the receiver the read starts awaits a reply of the format its expected value selects, and the body of
the reply delivered is the data view. -/
theorem readTransactionCompletes : Obligations.ReadTransactionCompletes := by
  intro i c request body reply fmt wait rest s hport he hop hacc hwf hmin hmax hfmt hb hreply hwait hag
  obtain ⟨covered, htrailer, rfl⟩ := hreply
  obtain ⟨u, hu, haw, -, hagu⟩ := steps_to_receive (wellFormed_of_readDrive hport hop) hport he hacc hmax
    (fun _ => (byte_ne_zero_iff c.dev).2 hmin) hwait hag
  obtain ⟨f, hf, hval⟩ := haw.val
  have hfop := fnByte_of_fnOfByte hf
  have hread : isRead f = true := isRead_of_fnByte (hfop ▸ hop)
  have hwidth : fmt = .len1 ↔ u.expVal.toNat < 256 := by
    rw [hval, expectOf_read_lt hread, haw.arg, ← hfop]
    exact hfmt
  obtain ⟨t, ht, hrec, hgood, -⟩ := burst_readReply (s := leaving rest u) hread hb (haw.buf ▸ hwf) hwidth
    { haw.ready with fn := haw.ready.fn.trans hfop } (crc16 covered)
  rw [← hfop] at ht hrec hgood
  have hdone : Delivered 0 (readReplyFrame fmt c.dev c.op body (crc16 covered)) t := hgood (by rw [htrailer]; simp)
  have hexp : t.expVal = u.expVal := hrec.same.expVal
  refine ⟨t, ?_, hdone, ?_, hrec.same.outbound.trans haw.sent, hrec.unread, hrec.same.agenda⟩
  · rw [show 4 = 3 + 1 from rfl, steps_add, hu, andThen_next, steps_cons hagu, stepMove_frame, ht]
    rfl
  · exact resBody_readReply hdone.valid hdone.status (hfop ▸ fnByte_bit7 f) hdone.frame (hexp ▸ hwidth) hb

end Sys2Proof.Machine
end

section
/-! PROOFS. What the coarse moves amount to (R10, R202). No move of the engine and no acceptance looks at the moves still
to come, so a command is its issue and three moves of the engine, and a burst is its bytes and one poll for each byte
ready; and the port refuses an operation outside the eight. -/

namespace Sys2Proof.Machine

open Safety

/-! ### A reserved operation -/

/-- An operation that is none of the eight is not decoded, whatever else is driven (R77). -/
theorem decodePort_unknown {c : PortCmd} (hop : c.op ∉ functionBytes) :
    decodePort c = .error (.unknownFunction c.op) := by
  have hf : fnOfByte c.op = none := by
    rw [← Option.not_isSome_iff_eq_none, fnOfByte_isSome, List.contains_iff_mem]
    exact hop
  simp only [decodePort, hf]

/-- A command's move begins with its issue, so both moves end where the port's decoder does. -/
theorem step_undecoded {s : State} {c : PortCmd} {e : DecodeError} {rest : List Move} (hdec : decodePort c = .error e)
    (he : e ≠ .noValueList) (hag : s.agenda = .command c :: rest ∨ s.agenda = .issue c :: rest) :
    step s = .refused (portRefusal e) := by
  have hissue := issueCommand_error hdec he
  rcases hag with hag | hag
  · rw [step_cons hag, stepMove_command, hissue, andThen_refused]
  · rw [step_cons hag, stepMove_issue, hissue]

/-- Settles O12: the port does not decode such an operation. -/
theorem reservedOperationRefused : Obligations.ReservedOperationRefused := fun _ _ _ hop hag =>
  step_undecoded (decodePort_unknown hop) nofun hag

/-! ### No move of the engine looks at the moves to come -/

theorem takeByte_leaving (g : List Move) (b : Byte) (rest : List Byte) (s : State) :
    takeByte b (consumed rest (leaving g s)) =
      andThen (takeByte b (consumed rest s)) fun t => .next (leaving g t) := by
  have hg : consumed rest (leaving g s) = around s.clock rest g s := rfl
  have hs : consumed rest s = around s.clock rest s.agenda s := rfl
  rw [hg, hs, takeByte_around, takeByte_around, andThen_assoc]
  rfl

theorem poll_leaving (g : List Move) (s : State) :
    poll (leaving g s) = andThen (poll s) fun t => .next (leaving g t) := by
  by_cases hw : rxWaiting s = true
  · cases hin : s.inbound with
    | nil =>
      rw [poll_idle hw hin, poll_idle (s := leaving g s) hw hin, andThen_next, timeoutTest, timeoutTest,
        apply_ite (leaving g)]
      rfl
    | cons b rest => rw [poll_byte hw hin, poll_byte (s := leaving g s) hw hin, takeByte_leaving]
  · rw [Bool.not_eq_true] at hw
    rw [poll_terminal hw, poll_terminal (s := leaving g s) hw, andThen_next]

theorem validateStep_leaving (g : List Move) (s : State) :
    validateStep (leaving g s) = andThen (validateStep s) fun t => .next (leaving g t) := by
  cases hf : fnOfByte s.cmdOp with
  | none => simp [validateStep, leaving, hf]
  | some f =>
    by_cases ha : ValidAddress f s.cmdDev
    · rw [validateStep_valid hf ha, validateStep_valid (s := leaving g s) hf ha]
      rfl
    · rw [validateStep_invalid hf ha, validateStep_invalid (s := leaving g s) hf ha]
      rfl

theorem payloadOf_leaving (g : List Move) (f : FnCode) (s : State) : payloadOf f (leaving g s) = payloadOf f s := by
  cases f <;> rfl

theorem transmitStep_leaving (g : List Move) (s : State) :
    transmitStep (leaving g s) = andThen (transmitStep s) fun t => .next (leaving g t) := by
  cases hf : fnOfByte s.cmdOp with
  | none => simp [transmitStep, leaving, hf]
  | some f =>
    rw [transmitStep_eq hf, transmitStep_eq (s := leaving g s) hf, payloadOf_leaving]
    rfl

theorem pauseStep_leaving (g : List Move) (s : State) :
    pauseStep (leaving g s) = andThen (pauseStep s) fun t => .next (leaving g t) := by
  rcases Nat.lt_or_ge (s.clock - s.tTx) s.timeout with ht | ht
  · rw [pauseStep_wait ht, pauseStep_wait (s := leaving g s) ht, andThen_next]
  · cases hf : fnOfByte s.cmdOp with
    | none => simp [pauseStep, leaving, now, hf, ht]
    | some f =>
      rw [pauseStep_end hf ht, pauseStep_end (s := leaving g s) hf ht, expectOf_congr rfl rfl f]
      rfl

/-- The engine's move is the same whatever moves are to come after it, and leaves them to come. -/
theorem engineStep_leaving (g : List Move) (s : State) :
    engineStep (leaving g s) = andThen (engineStep s) fun t => .next (leaving g t) := by
  cases hp : s.phase with
  | idle => rw [engineStep_rest (.inl hp), engineStep_rest (s := leaving g s) (.inl hp), andThen_next]
  | validate =>
    rw [engineStep_validate hp, engineStep_validate (s := leaving g s) hp]
    exact validateStep_leaving g s
  | flush =>
    rw [engineStep_flush hp, engineStep_flush (s := leaving g s) hp, flushStep_eq, flushStep_eq]
    rfl
  | transmit =>
    rw [engineStep_transmit hp, engineStep_transmit (s := leaving g s) hp]
    exact transmitStep_leaving g s
  | pause =>
    rw [engineStep_pause hp, engineStep_pause (s := leaving g s) hp]
    exact pauseStep_leaving g s
  | receive =>
    rw [engineStep_receive hp, engineStep_receive (s := leaving g s) hp]
    exact poll_leaving g s
  | done => rw [engineStep_rest (.inr hp), engineStep_rest (s := leaving g s) (.inr hp), andThen_next]

/-! ### Moves from the agenda -/

theorem steps_leaving_cons (m : Move) (rest : List Move) (s : State) (n : Nat) :
    steps (n + 1) (leaving (m :: rest) s) = andThen (stepMove m (leaving rest s)) (steps n) := steps_cons rfl n

theorem steps_one (m : Move) (rest : List Move) (s : State) :
    steps 1 (leaving (m :: rest) s) = stepMove m (leaving rest s) := by
  rw [steps_leaving_cons]
  cases stepMove m (leaving rest s) <;> rfl

/-- The engine's moves on the agenda are as many moves of the engine with nothing else moving. -/
theorem steps_engine (n : Nat) (rest : List Move) (s : State) :
    steps n (leaving (List.replicate n .engine ++ rest) s) = engineRun n (leaving rest s) := by
  induction n generalizing s with
  | zero => rfl
  | succ n ih =>
    calc steps (n + 1) (leaving (List.replicate (n + 1) .engine ++ rest) s)
        = andThen (engineStep (leaving (List.replicate n .engine ++ rest) s)) (steps n) := steps_leaving_cons ..
      _ = andThen (engineStep s) fun t => steps n (leaving (List.replicate n .engine ++ rest) t) := by
          rw [engineStep_leaving, andThen_assoc]
          rfl
      _ = andThen (engineStep s) fun t => engineRun n (leaving rest t) := by simp only [ih]
      _ = engineRun (n + 1) (leaving rest s) := by
          rw [engineRun, engineStep_leaving, andThen_assoc]
          rfl

/-- Bytes that arrive one by one wait as they do when they arrive at once (R202). -/
theorem steps_bytes (bs : List Byte) (rest : List Move) (s : State) :
    steps bs.length (leaving (bs.map .byte ++ rest) s) = .next (leaving rest (deliver bs s)) := by
  induction bs generalizing s with
  | nil => simp [steps, leaving, deliver]
  | cons b bs ih =>
    rw [List.map_cons, List.cons_append, List.length_cons, steps_leaving_cons, stepMove_byte, andThen_next]
    refine (ih (deliver [b] s)).trans ?_
    simp [deliver]

/-! ### A command -/

theorem accept_leaving (f : FnCode) (a : Byte) (r : Word) (arg : Option Word) (data : Option (List Byte))
    (g : List Move) (s : State) :
    accept f a r arg data (leaving g s) = andThen (accept f a r arg data s) fun t => .next (leaving g t) := by
  by_cases hm : HostMayMove s
  · cases hs : s.timeoutSet with
    | true =>
      rw [accept_eq ⟨hm, hs⟩, accept_eq (s := leaving g s) ⟨hm, hs⟩]
      rfl
    | false => rw [accept_unset hm hs, accept_unset (s := leaving g s) hm hs, andThen_refused]
  · rw [accept_busy hm, accept_busy (s := leaving g s) hm, andThen_refused]

/-- Whether the port takes a drive is a matter of the drive alone. -/
theorem portCarries_or_refused (c : PortCmd) :
    (∃ f, PortCarries f c) ∨ ∃ r, ∀ s, issueCommand c s = .refused r := by
  cases hdec : decodePort c with
  | ok i => exact .inl (decodePort_ok_carries hdec)
  | error e =>
    by_cases he : e = .noValueList
    · obtain ⟨hop, harg, hlen, -⟩ := (decodePort_noValueList c).1 (he ▸ hdec)
      exact .inl ⟨.writeMultiHolding, by rw [hop]; rfl, hlen, fun _ => harg⟩
    · exact .inr ⟨_, issueCommand_error hdec he⟩

/-- The issue of a command is the same whatever moves are to come after it. -/
theorem stepMove_issue_leaving (c : PortCmd) (g : List Move) (s : State) :
    stepMove (.issue c) (leaving g s) = andThen (stepMove (.issue c) s) fun t => .next (leaving g t) := by
  rw [stepMove_issue, stepMove_issue]
  rcases portCarries_or_refused c with ⟨f, hc⟩ | ⟨r, hr⟩
  · rw [issueCommand_carried hc rfl rfl, issueCommand_carried hc rfl rfl]
    exact accept_leaving _ _ _ _ _ g { s with portArg := c.arg, portData := c.data }
  · rw [hr, hr, andThen_refused]

/-- Settles O46: the command's move is its issue and three moves of the engine with nothing else moving, and neither
looks at the agenda. -/
theorem commandIsIssueAndThreeMoves : Obligations.CommandIsIssueAndThreeMoves := by
  intro s c rest
  calc steps 1 (leaving (.command c :: rest) s)
      = andThen (stepMove (.issue c) (leaving rest s)) runToPause := by
        rw [steps_one, stepMove_command, stepMove_issue]
    _ = andThen (stepMove (.issue c) s) fun t => engineRun 3 (leaving rest t) := by
        rw [stepMove_issue_leaving, andThen_assoc]
        rfl
    _ = andThen (stepMove (.issue c) s) fun t => steps 3 (leaving (List.replicate 3 .engine ++ rest) t) := by
        simp only [steps_engine]
    _ = steps 4 (leaving (.issue c :: (List.replicate 3 .engine ++ rest)) s) := by
        rw [steps_leaving_cons, stepMove_issue_leaving, andThen_assoc]
        rfl

/-! ### A burst -/

theorem engineRun_rest (n : Nat) {s : State} (hm : HostMayMove s) : engineRun n s = .next s := by
  induction n with
  | zero => rfl
  | succ n ih => rw [engineRun, engineStep_rest hm, andThen_next, ih]

/-- While bytes are ready a live receiver takes one per poll, and the engine's moves after the outcome do nothing. -/
theorem drain_eq_engineRun {n : Nat} {s : State} (hp : s.phase = .receive) (hl : RxLive s)
    (hn : n ≤ s.inbound.length) : drain n s = engineRun n s := by
  induction n generalizing s with
  | zero => rfl
  | succ n ih =>
    obtain ⟨b, rest, hin⟩ := List.exists_cons_of_length_pos (Nat.zero_lt_of_lt hn)
    have hst := hl.imp And.left And.left
    obtain ⟨t, ht, hrest, hout⟩ := takeByte_live (s := consumed rest s) b hl
    rw [drain_cons hp ((rxWaiting_iff s).2 hst) hin, engineRun, engineStep_takes ⟨hp, hst⟩ hin, ht, andThen_next,
      andThen_next]
    rcases hout with ⟨hpt, -, hlt⟩ | ⟨hd, -⟩
    · refine ih (hpt.trans hp) hlt ?_
      rw [hin, List.length_cons] at hn
      rw [hrest]
      exact Nat.le_of_succ_le_succ hn
    · rw [drain_stop (by simp [hd]), engineRun_rest n (.inr hd)]

/-- A burst to a live receiver is one move of the engine for each byte then ready. -/
theorem burst_eq_engineRun {s : State} (hp : s.phase = .receive) (hl : RxLive s) (bs : List Byte) :
    burst bs s = engineRun (s.inbound.length + bs.length) (deliver bs s) := by
  have hready : rxAvail (deliver bs s) = s.inbound.length + bs.length := List.length_append
  rw [← hready]
  exact drain_eq_engineRun hp hl le_rfl

/-- Settles O47: the bytes wait as a burst's do, and then as many polls as bytes are ready are the burst's own. -/
theorem burstIsPolls : Obligations.BurstIsPolls := by
  intro s bs rest hp hl
  rw [List.append_assoc]
  calc steps 1 (leaving (.frame bs :: rest) s)
      = burst bs (leaving rest s) := by rw [steps_one, stepMove_frame]
    _ = engineRun (s.inbound.length + bs.length) (leaving rest (deliver bs s)) :=
        burst_eq_engineRun (s := leaving rest s) hp hl bs
    _ = steps (bs.length + (s.inbound.length + bs.length))
          (leaving (bs.map .byte ++ (List.replicate (s.inbound.length + bs.length) .engine ++ rest)) s) := by
        rw [steps_add, steps_bytes, andThen_next, steps_engine]

end Sys2Proof.Machine
end
